-- ==== Sys2Proof/Word.lean ====
section
/-! DEFINITION. The word types of the Huffman Codec Engine and the records its tables hold: widths of
spec/00_scope.md R8, node references of spec/10_state.md R25, entries of R26, R29 and R30. Every quantity is
unsigned (R10, R13). -/

namespace Sys2Proof

/-- One byte of a stream (spec/20_memory.md R63). -/
abbrev Byte := BitVec 8

/-- "One byte value (0–255)", SYM_BITS = 8 (R7). -/
abbrev Sym := BitVec 8

/-- A count, a node weight or a queue key. WEIGHT_BITS is a parameter of at most 32, the widest key a command word
carries (R8, spec/30_encoding.md R83); a narrower engine uses the low WEIGHT_BITS bits of this type (log entry 4). -/
abbrev Weight := BitVec 32

/-- A node reference: REF_BITS (R8, R25). -/
abbrev Ref := BitVec 9

/-- The number of a queue bank, one of PQ_BANKS (R8, R30, R82). -/
abbrev Bank := BitVec 1

/-- A value operand or a response value, 48 bits (R81, R84), and the type of BITCOUNT and UREM, of which an engine uses
the low BITCOUNT_BITS bits (R8, log entry 4). -/
abbrev Val := BitVec 48

/-- A command word or a response word: CMD_BITS (R8, R80). -/
abbrev Word64 := BitVec 64

/-- A heap slot's content, `{key: W bits, item: 9 bits}` (R30). -/
structure Entry where
  key  : Weight
  item : Ref
  deriving DecidableEq, Repr

/-- An entry of the node memory NM, `{weight: W bits, left: 9 bits, right: 9 bits}` (R26). -/
structure Node where
  weight : Weight
  left   : Ref
  right  : Ref
  deriving DecidableEq, Repr

/-- An entry of the code table CT, `{len: 8 bits, code: 255 bits}`, the digits right-aligned with the first digit
most significant (R29). -/
structure Code where
  len  : BitVec 8
  code : BitVec 255
  deriving DecidableEq, Repr

end Sys2Proof
end

