-- ==== Sys2Proof/Syntax.lean ====
section
/-! DEFINITION. The 24 commands of spec/30_encoding.md R85 with the operands of their formats (R82, R83): one
constructor for each row of spec/opcode_table.json, in the table's order. -/

namespace Sys2Proof

inductive Instr where
  /-- CLR (spec/40_system.md R100) -/
  | clr
  /-- COUNT b (spec/42_build.md R130) -/
  | count (b : Sym)
  /-- BUILD (R131) -/
  | build
  /-- RDCSR c (spec/40_system.md R101) -/
  | rdcsr (c : BitVec 8)
  /-- WRCSR c, v (R102) -/
  | wrcsr (c : BitVec 8) (v : Val)
  /-- Q_INSERT q, key, item (spec/41_queue.md R113) -/
  | qInsert (q : Bank) (key : Weight) (item : Ref)
  /-- Q_PEEK q (R114) -/
  | qPeek (q : Bank)
  /-- Q_EXTRACT q (R115) -/
  | qExtract (q : Bank)
  /-- Q_SIZE q (R116) -/
  | qSize (q : Bank)
  /-- Q_EMPTY q (R117) -/
  | qEmpty (q : Bank)
  /-- Q_DUP q (R118) -/
  | qDup (q : Bank)
  /-- Q_ITER_BEGIN q (R119) -/
  | qIterBegin (q : Bank)
  /-- Q_ITER_NEXT (R120) -/
  | qIterNext
  /-- Q_ITER_REMOVE (R121) -/
  | qIterRemove
  /-- ENC b (spec/43_textual_codec.md R152) -/
  | enc (b : Sym)
  /-- DEC_START (R153) -/
  | decStart
  /-- DECB b (R154) -/
  | decb (b : Byte)
  /-- DEC_END (R155) -/
  | decEnd
  /-- CMP_START (spec/44_packed_codec.md R166) -/
  | cmpStart
  /-- CMPS b (R168) -/
  | cmps (b : Sym)
  /-- CMP_END (R169) -/
  | cmpEnd
  /-- DCMP_START (R170) -/
  | dcmpStart
  /-- DCMPB b (R171) -/
  | dcmpb (b : Byte)
  /-- DCMP_END (R172) -/
  | dcmpEnd
  deriving DecidableEq, Repr

end Sys2Proof
end

