-- ==== Sys2Proof/Decode.lean ====
section
/-! DEFINITION. The command word (spec/30_encoding.md R80 to R83): fields, formats, opcode map, the decoder and,
after it, the encoder. The decoder is total on 64-bit words and refuses by name what R86 (a) and (b) call illegal by
the opcode table's masks; R86 (c), and R83's high key bits of an engine with W < 32, which no mask of the table covers,
are checked after it (`Instr.wellFormed`, log entry 13). -/

namespace Sys2Proof

/-- Why a word is no command: R86 (a) and R86 (b), in R93's order. -/
inductive Reject where
  /-- OP is not in the table of R85 -/
  | unknownOpcode (op : BitVec 8)
  /-- a bit that the command's format says must be 0 is 1 -/
  | mustBeZero (op : BitVec 8)
  deriving DecidableEq, Repr

/-- OP, bits 63:56 (R81). -/
def opField (w : Word64) : BitVec 8 := w.extractLsb' 56 8

/-- A, bits 55:48 (R81). -/
def aField (w : Word64) : BitVec 8 := w.extractLsb' 48 8

/-- V, bits 47:0 (R81). -/
def vField (w : Word64) : Val := w.extractLsb' 0 48

/-- Format N: A and V must be 0 (R82). -/
def formatN (w : Word64) (i : Instr) : Except Reject Instr :=
  if aField w = 0 ∧ vField w = 0 then .ok i else .error (.mustBeZero (opField w))

/-- Format B: byte `b` in V[7:0]; A and V[47:8] must be 0 (R82). -/
def formatB (w : Word64) (mk : Byte → Instr) : Except Reject Instr :=
  if aField w = 0 ∧ w.extractLsb' 8 40 = 0 then .ok (mk (w.extractLsb' 0 8))
  else .error (.mustBeZero (opField w))

/-- Format Q: bank `q` in A[0]; A[7:1] and V must be 0 (R82). -/
def formatQ (w : Word64) (mk : Bank → Instr) : Except Reject Instr :=
  if w.extractLsb' 49 7 = 0 ∧ vField w = 0 then .ok (mk (w.extractLsb' 48 1))
  else .error (.mustBeZero (opField w))

/-- Format QE: bank `q` in A[0], `key` in V[47:16], `item` in V[8:0]; A[7:1] and V[15:9] must be 0 (R82). The whole key
field is read; with W < 32 its high bits must be 0 as well, which Q_INSERT checks (`keyFits`, R83). -/
def formatQE (w : Word64) (mk : Bank → Weight → Ref → Instr) : Except Reject Instr :=
  if w.extractLsb' 49 7 = 0 ∧ w.extractLsb' 9 7 = 0 then
    .ok (mk (w.extractLsb' 48 1) (w.extractLsb' 16 32) (w.extractLsb' 0 9))
  else .error (.mustBeZero (opField w))

/-- Format C: CSR number `c` in A; V must be 0 (R82). -/
def formatC (w : Word64) (mk : BitVec 8 → Instr) : Except Reject Instr :=
  if vField w = 0 then .ok (mk (aField w)) else .error (.mustBeZero (opField w))

/-- Format CW: CSR number `c` in A, value `v` in V (R82). -/
def formatCW (w : Word64) (mk : BitVec 8 → Val → Instr) : Except Reject Instr :=
  .ok (mk (aField w) (vField w))

/-- The opcode map of R85: every OP value not listed is illegal, 0x00 among them (R86 a). -/
def decode (w : Word64) : Except Reject Instr :=
  match (opField w).toNat with
  | 0x01 => formatN w .clr
  | 0x02 => formatB w .count
  | 0x03 => formatN w .build
  | 0x08 => formatC w .rdcsr
  | 0x09 => formatCW w .wrcsr
  | 0x20 => formatQE w .qInsert
  | 0x21 => formatQ w .qPeek
  | 0x22 => formatQ w .qExtract
  | 0x23 => formatQ w .qSize
  | 0x24 => formatQ w .qEmpty
  | 0x25 => formatQ w .qDup
  | 0x26 => formatQ w .qIterBegin
  | 0x27 => formatN w .qIterNext
  | 0x28 => formatN w .qIterRemove
  | 0x40 => formatB w .enc
  | 0x41 => formatN w .decStart
  | 0x42 => formatB w .decb
  | 0x43 => formatN w .decEnd
  | 0x44 => formatN w .cmpStart
  | 0x45 => formatB w .cmps
  | 0x46 => formatN w .cmpEnd
  | 0x47 => formatN w .dcmpStart
  | 0x48 => formatB w .dcmpb
  | 0x49 => formatN w .dcmpEnd
  | _ => .error (.unknownOpcode (opField w))

/-- The word of format N. -/
def wordN (op : BitVec 8) : Word64 := op ++ (0 : BitVec 56)

/-- The word of format B. -/
def wordB (op : BitVec 8) (b : Byte) : Word64 := op ++ (0 : BitVec 48) ++ b

/-- The word of format Q. -/
def wordQ (op : BitVec 8) (q : Bank) : Word64 := op ++ (0 : BitVec 7) ++ q ++ (0 : BitVec 48)

/-- The word of format QE. -/
def wordQE (op : BitVec 8) (q : Bank) (key : Weight) (item : Ref) : Word64 :=
  op ++ (0 : BitVec 7) ++ q ++ key ++ (0 : BitVec 7) ++ item

/-- The word of format C. -/
def wordC (op : BitVec 8) (c : BitVec 8) : Word64 := op ++ c ++ (0 : BitVec 48)

/-- The word of format CW. -/
def wordCW (op : BitVec 8) (c : BitVec 8) (v : Val) : Word64 := op ++ c ++ v

/-- The command word of an instruction, from the same tables R82 and R85. -/
def encode : Instr → Word64
  | .clr => wordN 0x01
  | .count b => wordB 0x02 b
  | .build => wordN 0x03
  | .rdcsr c => wordC 0x08 c
  | .wrcsr c v => wordCW 0x09 c v
  | .qInsert q key item => wordQE 0x20 q key item
  | .qPeek q => wordQ 0x21 q
  | .qExtract q => wordQ 0x22 q
  | .qSize q => wordQ 0x23 q
  | .qEmpty q => wordQ 0x24 q
  | .qDup q => wordQ 0x25 q
  | .qIterBegin q => wordQ 0x26 q
  | .qIterNext => wordN 0x27
  | .qIterRemove => wordN 0x28
  | .enc b => wordB 0x40 b
  | .decStart => wordN 0x41
  | .decb b => wordB 0x42 b
  | .decEnd => wordN 0x43
  | .cmpStart => wordN 0x44
  | .cmps b => wordB 0x45 b
  | .cmpEnd => wordN 0x46
  | .dcmpStart => wordN 0x47
  | .dcmpb b => wordB 0x48 b
  | .dcmpEnd => wordN 0x49

/-- The 64-bit word the command port presents for `w` given in `nbits` bits: the bits above `nbits` are 0. -/
def tableWord (nbits w : Nat) : Word64 := BitVec.ofNat 64 (w % 2 ^ nbits)

/-- What the decoder reads from an opcode-table word. A word crosses the port whole, so it has no byte order
(spec/20_memory.md R66). -/
def decodeTableWord (nbits w : Nat) : Option Instr :=
  match decode (tableWord nbits w) with
  | .ok i => some i
  | .error _ => none

end Sys2Proof
end

