-- ==== Sys2Proof/Config.lean ====
section
/-! DEFINITION. The parameters of spec/00_scope.md R8. Those that spec/92_eei_decisions.md marks OPEN ("a named
parameter the model takes as an argument": D1, D4, D7, D11, D12, D25) are the record `Config`, which a state carries and
no step changes; the others, which the rules' own layouts fix, are constants (log entry 4). The free values of the
model stand at the end. -/

namespace Sys2Proof

/-! ### Parameters that the layouts fix -/

/-- REF_BITS, the width of a node reference (R8): bit 8 is the tag of R25 (decision D2). -/
def refBits : Nat := 9

/-- PQ_BANKS, the number of queue banks (R8): a bank is named by the one bit A[0] (R82, decision D5). -/
def pqBanks : Nat := 2

/-- CMD_BITS, the width of a command word and of a response word (R8): the fields of R81 fill it (decision D13). -/
def cmdBits : Nat := 64

/-- The reference NIL, "no node" (R25). -/
def nilRef : Ref := 0x1FF#9

/-- SENTINEL, the symbol value an internal node reports; no rule reads it (R8, R26, decision D3). -/
def sentinel : Sym := 0x00#8

/-- SINGLE_CODE, the code word of the only symbol of a one-symbol input: the one digit 0 (R8, spec/42_build.md
R136, decision D10). -/
def singleCode : List Bool := [false]

/-! ### Open parameters -/

/-- PACK_BITS (G): 7 is the source's literal behaviour, 8 the documented deviation (R8, decision D11). -/
inductive PackBits where
  | seven
  | eight
  deriving DecidableEq, Repr

/-- G as a number. -/
def PackBits.count : PackBits → Nat
  | .seven => 7
  | .eight => 8

/-- TIE_POLICY: which child `sink` takes when its two children have equal keys (R8, spec/41_queue.md R112,
decision D7). -/
inductive TiePolicy where
  /-- slot 2k, the engine's own choice -/
  | left
  /-- slot 2k + 1 -/
  | right
  /-- "for a model only, `any` (a non-deterministic choice)" -/
  | any
  deriving DecidableEq, Repr

/-- The OPEN parameters of R8. -/
structure Config where
  /-- WEIGHT_BITS (W), the width of a count, a node weight, a queue key and TOTAL (decision D1) -/
  weightBits    : Nat
  /-- PQ_SLOTS, the live-element capacity of each queue bank (decision D4) -/
  pqSlots       : Nat
  /-- BITCOUNT_BITS, the width of BITCOUNT and UREM (decision D25) -/
  bitcountBits  : Nat
  packBits      : PackBits
  /-- whether Q_DUP of an empty bank raises EMPTY_QUEUE (decision D12) -/
  dupEmptyFails : Bool
  tiePolicy     : TiePolicy
  deriving DecidableEq, Repr

/-- The third column of R8's table. -/
def Config.default : Config :=
  { weightBits := 32, pqSlots := 256, bitcountBits := 48
    packBits := .seven, dupEmptyFails := true, tiePolicy := .left }

/-- The values of the parameters that the rules' layouts have room for (log entry 4): a key fits V[47:16] (R83), QITK =
PQ_SLOTS + 1 fits 9 bits (spec/10_state.md R32), a bit count fits V (R41). What sink's indices do past 9 bits, where
PQ_SLOTS is above 256, is the model's choice (log entry 19). -/
abbrev Config.Legal (c : Config) : Prop :=
  (1 ≤ c.weightBits ∧ c.weightBits ≤ 32) ∧ (1 ≤ c.pqSlots ∧ c.pqSlots ≤ 510) ∧
    (1 ≤ c.bitcountBits ∧ c.bitcountBits ≤ 48)

/-! ### Free values -/

/-- FREE VALUE (log entry 5): under TIE_POLICY = any, whether the draw-th ExtractMin takes the right child at slot k
when the two children of slot k have equal keys. It has no body, so nothing can be proved of its values. -/
opaque Config.tieRight (draw slot : Nat) : Bool

/-- FREE VALUE (log entry 17): what a BITCOUNT of `bits` bits holds after a write of a number `n` that needs more. It
has no body, so nothing can be proved of its values. -/
opaque Config.bitcountPast (bits n : Nat) : Nat

end Sys2Proof
end

