-- ==== Sys2Proof/Machine/State.lean ====
section
/-! DEFINITION. The engine's state as plain data (spec/10_state.md R20 to R40), its reset values (R43), and the
reasons a step can stop. Widths and encodings of every field are those of the rule its docstring names. -/

namespace Sys2Proof.Machine

/-- PHASE (R21). The values 5 to 7 are "never taken by any rule". -/
inductive Phase where
  /-- 0: a session is open, frequencies may be counted, no tree exists -/
  | count
  /-- 1: tree and code table exist and are immutable; no stream open -/
  | ready
  /-- 2: a textual decode stream is open -/
  | dec
  /-- 3: a compress stream is open -/
  | cmp
  /-- 4: a decompress stream is open -/
  | dcmp
  deriving DecidableEq, Repr

/-- The error codes of spec/60_exceptions.md R185 other than 0. -/
inductive Err where
  /-- 0x01, never raised by the engine (R189) -/
  | invalidArgument
  /-- 0x02 -/
  | emptyInput
  /-- 0x03 -/
  | emptyQueue
  /-- 0x04 -/
  | streamCorruption
  /-- 0x05 -/
  | unsupportedOperation
  /-- 0x06, never raised by the engine (R189) -/
  | unimplementedPath
  /-- 0x07, never raised by the engine (R189) -/
  | ioFailure
  /-- 0x08 -/
  | illegalCommand
  deriving DecidableEq, Repr

/-- The response of one command (R39); `err = none` is code 0. -/
structure Response where
  err  : Option Err
  done : Bool
  val  : Val
  deriving DecidableEq, Repr

/-- What the host can do to the engine that changes its state (spec/70_reset_and_hazards.md R214). -/
inductive HostEvent where
  /-- present a command word -/
  | command (w : Word64)
  /-- assert hardware reset -/
  | reset
  deriving DecidableEq, Repr

/-- What is known of the iteration over bank QITB (spec/93_implementation_defined.md U5); the model's own (log entries
8, 9). -/
inductive IterMark where
  /-- no Q_ITER_BEGIN and no Q_ITER_NEXT since hardware reset -/
  | fresh
  /-- bank QITB has not been written since the iteration began -/
  | valid
  /-- bank QITB has been written, or CLR run, since the iteration began -/
  | invalid
  deriving DecidableEq, Repr

structure State where
  /-- PHASE (R21) -/
  phase     : Phase
  /-- ERR (R22), the first error since reset or CLR; `none` is the value 0 (log entry 12) -/
  err       : Option Err
  /-- TOTAL (R23) -/
  total     : Weight
  /-- FT (R24) -/
  ft        : Vector Weight 256
  /-- NM (R26): the entries 0x100, 0x101, … that hold a value, in order. NINT (R28) is their number
  (log entry 6) -/
  nm        : List Node
  /-- ROOT (R27) -/
  root      : Ref
  /-- CT (R29) -/
  ct        : Vector Code 256
  /-- HQ[0] (R30): its live slots 1, 2, … in order. QN[0] is their number -/
  hq0       : List Entry
  /-- HQ[1] (R30): its live slots 1, 2, … in order. QN[1] is their number -/
  hq1       : List Entry
  /-- QITB (R32) -/
  qitb      : Bank
  /-- QITK (R32) -/
  qitk      : BitVec 9
  /-- WP (R33) -/
  wp        : Ref
  /-- PBUF (R35) -/
  pbuf      : Byte
  /-- PCNT (R35) -/
  pcnt      : BitVec 3
  /-- BITCOUNT (R36) -/
  bitcount  : Val
  /-- UREM (R37) -/
  urem      : Val
  /-- OUT (R38), oldest byte first -/
  out       : List Byte
  /-- the responses of all commands since reset (R39), oldest first (log entry 11) -/
  resps     : List Response
  /-- the model's own: what the host will still do, next first (log entry 1) -/
  port      : List HostEvent
  /-- the model's own: the parameters of R8, which no step changes (log entry 4) -/
  cfg       : Config
  /-- the model's own: how many ExtractMin have run, the index of the free tie choices (log entry 5) -/
  draws     : Nat
  /-- the model's own: the mark of 93_implementation_defined U5, which Q_ITER_NEXT reads (log entries 8, 9) -/
  iter      : IterMark
  deriving DecidableEq, Repr

/-- The state right after hardware reset (R43), with the parameters of R8's third column and nothing at the port. -/
def State.reset : State where
  phase := .count
  err := none
  total := 0
  ft := Vector.replicate 256 0
  nm := []
  root := nilRef
  ct := Vector.replicate 256 { len := 0, code := 0 }
  hq0 := []
  hq1 := []
  qitb := 0
  qitk := 1
  wp := nilRef
  pbuf := 0
  pcnt := 0
  bitcount := 0
  urem := 0
  out := []
  resps := []
  port := []
  cfg := Config.default
  draws := 0
  iter := .fresh

/-- Why the MODEL stops: a table entry that holds no value was read, which R45 asks to be "a fault of the model, not
a zero", or a slot was written that the bank does not have. No error of the spec is here: those are responses, and the
engine goes on (R186). All are safe (the model stops where the engine has no such access), and the first three are not
reached from a state that keeps `Sys2Proof.Inv`. -/
inductive Fault where
  /-- raised by `slot`: heap slot `k` of the bank is not live (slot 0, or above QN). Safe. -/
  | unwrittenSlot (k : Nat)
  /-- raised by `State.node` and `visit`: reference `r` names no written NM entry. Safe. -/
  | unwrittenNode (r : Ref)
  /-- raised by `visit`: a path of more than the 255 digits a CT entry holds (R9 d, R29). Safe. -/
  | codeTooLong
  /-- raised by `buildTree`: LEAVES would write slot `k` of bank 0, which an engine with PQ_SLOTS < 256 and more counted
  symbols than slots does not have (R8, R9 c, log entry 18). Safe. -/
  | noSlot (k : Nat)
  deriving DecidableEq, Repr

/-- Why the model gives a command no meaning. -/
inductive Refusal where
  /-- reserved for an arm of `exec` whose command has no meaning yet; none has it. Safe. -/
  | notModelled (mnemonic : String)
  /-- raised by Q_ITER_NEXT after bank QITB was changed since the iteration began: "give a later Q_ITER_NEXT no meaning
  until the next Q_ITER_BEGIN" (spec/93_implementation_defined.md U5, log entry 8). Safe. -/
  | staleIteration
  deriving DecidableEq, Repr

/-- What a step answers. -/
abbrev Answer := Host.Outcome State Fault Refusal

/-- How a part of a command ends: it went on, it raised an error (with the writes made before the `raise`, R186), or
the model stopped. -/
inductive Run where
  | ok (s : State)
  | raised (e : Err) (s : State)
  | stuck (f : Fault)
  deriving DecidableEq, Repr

end Sys2Proof.Machine
end

