-- ==== Sys2Proof/Machine/Ops.lean ====
section
/-! DEFINITION. The named operations over the tables, the output stream and the responses, and `raise`, the one way
an error is taken (spec/60_exceptions.md R186). There is no return from an error: the engine has no traps (R195). -/

namespace Sys2Proof.Machine

/-! ### Codes -/

/-- The number of a phase in PHASE (spec/10_state.md R21). -/
def Phase.code : Phase → BitVec 3
  | .count => 0
  | .ready => 1
  | .dec => 2
  | .cmp => 3
  | .dcmp => 4

/-- The number of an error (spec/60_exceptions.md R185). -/
def Err.code : Err → BitVec 8
  | .invalidArgument => 0x01
  | .emptyInput => 0x02
  | .emptyQueue => 0x03
  | .streamCorruption => 0x04
  | .unsupportedOperation => 0x05
  | .unimplementedPath => 0x06
  | .ioFailure => 0x07
  | .illegalCommand => 0x08

/-- The 8-bit value of ERR and of a response's `err`: "0 when none" (R22, R39). -/
def errValue : Option Err → BitVec 8
  | none => 0x00
  | some e => e.code

/-! ### Node references (R12, R25) -/

/-- `isLeaf(r)`: bit 8 of the reference is 0. NIL has bit 8 set. -/
def isLeaf (r : Ref) : Bool := !r.getLsbD 8

/-- `sym(r)`: `r[7:0]` of a leaf, SENTINEL otherwise. -/
def sym (r : Ref) : Sym := if isLeaf r then r.extractLsb' 0 8 else sentinel

/-- The reference of the leaf of symbol `b`. -/
def leafRef (b : Sym) : Ref := (0 : BitVec 1) ++ b

/-- The reference `0x100 + k` of internal node number `k`. -/
def internalRef (k : Nat) : Ref := 0x100#9 + BitVec.ofNat 9 k

/-- `NM[r]` in a node memory (R26, R60); a reference that names no written entry is a fault of the model (R45). -/
def nodeAt (nm : List Node) (r : Ref) : Except Fault Node :=
  if isLeaf r ∨ r = nilRef then .error (.unwrittenNode r)
  else
    match nm[r.toNat - 0x100]? with
    | some n => .ok n
    | none => .error (.unwrittenNode r)

/-! ### Tables -/

/-- `MemRead(FT, b)` in a frequency table (R60). -/
def ftGet (ft : Vector Weight 256) (b : Sym) : Weight := ft[b.toNat]'b.isLt

/-- `FT[b]` (R24). -/
def State.ftAt (s : State) (b : Sym) : Weight := ftGet s.ft b

/-- `CT[b]` (R29). -/
def State.ctAt (s : State) (b : Sym) : Code := s.ct[b.toNat]'b.isLt

/-- `NM[r]`. -/
def State.node (s : State) (r : Ref) : Except Fault Node := nodeAt s.nm r

/-- `weight(r)`: `FT[r[7:0]]` of a leaf, `NM[r].weight` otherwise (R12). -/
def State.weightOf (s : State) (r : Ref) : Except Fault Weight :=
  if isLeaf r then .ok (s.ftAt (r.extractLsb' 0 8))
  else
    match s.node r with
    | .ok n => .ok n.weight
    | .error f => .error f

/-- NINT (R28). -/
def State.nint (s : State) : BitVec 8 := BitVec.ofNat 8 s.nm.length

/-- The live slots of bank `q`, slot 1 first (R30). -/
def State.bank (s : State) (q : Bank) : List Entry := if q = 0 then s.hq0 else s.hq1

/-- QN[q] (R30). -/
def State.qn (s : State) (q : Bank) : BitVec 9 := BitVec.ofNat 9 (s.bank q).length

/-- "Mark the iteration invalid": what a write to bank QITB, or CLR, makes of an iteration that was begun
(93_implementation_defined U5, log entries 8, 9). -/
def IterMark.disturb : IterMark → IterMark
  | .fresh => .fresh
  | .valid => .invalid
  | .invalid => .invalid

/-- Write bank `q`, and mark the iteration when it is the bank the cursor is on (93_implementation_defined U5). -/
def State.setBank (s : State) (q : Bank) (h : List Entry) : State :=
  if q = 0 then { s with hq0 := h, iter := if s.qitb = 0 then s.iter.disturb else s.iter }
  else { s with hq1 := h, iter := if s.qitb = 1 then s.iter.disturb else s.iter }

/-- The number `n` in a BITCOUNT of `bits` bits: `n` itself when it fits, and otherwise a free value of that width, of
which the spec states nothing (log entry 17). -/
def inBitcount (bits n : Nat) : Val :=
  BitVec.ofNat 48 (if n < 2 ^ bits then n else Config.bitcountPast bits n % 2 ^ bits)

/-- `BITCOUNT <- n`, a register of BITCOUNT_BITS bits (R8, R36). -/
def State.setBitcount (s : State) (n : Nat) : State := { s with bitcount := inBitcount s.cfg.bitcountBits n }

/-- `FT[b] <- v`. -/
def State.setFt (s : State) (b : Sym) (v : Weight) : State :=
  { s with ft := s.ft.set b.toNat v b.isLt }

/-! ### Output and responses -/

/-- `Emit(b)`: append a byte to OUT (R12, R38). -/
def State.emit (s : State) (b : Byte) : State := { s with out := s.out ++ [b] }

/-- `Resp(val)`: the response of a command that raised nothing (R12, R39). -/
def State.respond (s : State) (v : Val) : State :=
  { s with resps := s.resps ++ [{ err := none, done := false, val := v }] }

/-- `Resp(0, done = 1)`, used only by Q_ITER_NEXT (R39, spec/41_queue.md R120). -/
def State.respondDone (s : State) : State :=
  { s with resps := s.resps ++ [{ err := none, done := true, val := 0 }] }

/-- `raise E` (spec/60_exceptions.md R186): ERR keeps the first code, the response is `err = E, done = 0, val = 0`,
PHASE and everything written before stay, and the engine goes on. -/
def State.raise (s : State) (e : Err) : State :=
  { s with
    err := if s.err = none then some e else s.err
    resps := s.resps ++ [{ err := some e, done := false, val := 0 }] }

/-- ILLEGAL_COMMAND "with no other effect" (spec/30_encoding.md R86, R87; R190). -/
def State.illegal (s : State) : Answer := .next (s.raise .illegalCommand)

/-- How many bytes a command that took `s` to `t` has emitted (conflict C9). -/
def emitted (s t : State) : Val := BitVec.ofNat 48 (t.out.length - s.out.length)

/-- The end of a command whose result is the number of bytes it emitted since `s`. -/
def finish (s : State) : Run → Answer
  | .ok t => .next (t.respond (emitted s t))
  | .raised e t => .next (t.raise e)
  | .stuck f => .fault f

end Sys2Proof.Machine
end

