-- ==== Sys2Proof/Machine/Operands.lean ====
section
/-! DEFINITION. The layouts in which operands and results travel: an entry in a 48-bit value and the response word
(spec/30_encoding.md R83, R84), digit sequences as registers hold them (spec/10_state.md R29, spec/00_scope.md R11),
and the byte values of the ASCII digits (R10). -/

namespace Sys2Proof.Machine

/-- `{key, 0b0000000, item}`: `val[47:16]` = key, `val[15:9]` = 0, `val[8:0]` = item (R84). -/
def entryVal (e : Entry) : Val := e.key ++ (0 : BitVec 7) ++ e.item

/-- The response word: bits 63:56 `err`, 55:49 zero, 48 `done`, 47:0 `val` (R84). -/
def Response.word (r : Response) : Word64 :=
  errValue r.err ++ (0 : BitVec 7) ++ BitVec.ofBool r.done ++ r.val

/-- A digit as a bit of a register. -/
def digitBit (d : Bool) : BitVec 255 := if d then 1 else 0

/-- A digit sequence as a CT entry holds it: right-aligned, the first digit most significant, bits `len` and above 0
(R29). -/
def codeOf (ds : List Bool) : Code where
  len := BitVec.ofNat 8 ds.length
  code := ds.foldl (fun acc d => acc <<< 1 ||| digitBit d) 0

/-- `c[0], c[1], …`: digit `c[i]` is bit `len - 1 - i` of `code` (R29). -/
def Code.digits (c : Code) : List Bool :=
  (List.range c.len.toNat).map fun i => c.code.getLsbD (c.len.toNat - 1 - i)

/-- The digit sequence that `CT[b]` stands for. -/
def State.codeWord (s : State) (b : Sym) : List Bool := Code.digits (s.ctAt b)

/-- The ASCII character of a digit: '0' = 0x30, '1' = 0x31 (R10, spec/20_memory.md R64). -/
def asciiDigit (d : Bool) : Byte := if d then 0x31 else 0x30

/-- The digits of a packed byte in the order they are walked: bit G - 1 down to bit 0 (R65,
spec/44_packed_codec.md R171). -/
def packedDigits (g : Nat) (b : Byte) : List Bool :=
  (List.range g).map fun i => b.getLsbD (g - 1 - i)

end Sys2Proof.Machine
end

