-- ==== Sys2Proof/Machine/Flags.lean ====
section
/-! DEFINITION. The derived flags and the control and status registers (spec/10_state.md R40, R41). The engine has no
condition codes. -/

namespace Sys2Proof.Machine

/-- TV, tree valid: `PHASE != 0` (R40). -/
def State.tv (s : State) : Bool := s.phase ≠ .count

/-- SINGLE: TV and `isLeaf(ROOT)` (R40). -/
def State.single (s : State) : Bool := s.tv && isLeaf s.root

/-- ATROOT: TV and `WP == ROOT` (R40). -/
def State.atRoot (s : State) : Bool := s.tv && s.wp == s.root

/-- STATUS: [2:0] PHASE, [3] TV, [4] SINGLE, [5] ATROOT, [47:6] zero (R41). -/
def State.status (s : State) : Val :=
  (0 : BitVec 42) ++ BitVec.ofBool s.atRoot ++ BitVec.ofBool s.single ++ BitVec.ofBool s.tv ++ s.phase.code

/-- PACK: [7:0] PBUF, [10:8] PCNT, [47:11] zero (R41). -/
def State.pack (s : State) : Val := (0 : BitVec 37) ++ s.pcnt ++ s.pbuf

/-- QITER: [8:0] QITK, [15:9] zero, [16] QITB, [47:17] zero (R41). -/
def State.qiter (s : State) : Val := (0 : BitVec 31) ++ s.qitb ++ (0 : BitVec 7) ++ s.qitk

/-- The value RDCSR reads from CSR `c`, zero-extended to 48 bits; `none` where R41 has no such number. -/
def State.csr (s : State) (c : BitVec 8) : Option Val :=
  match c.toNat with
  | 0x00 => some s.status
  | 0x01 => some ((errValue s.err).setWidth 48)
  | 0x02 => some s.bitcount
  | 0x03 => some (s.total.setWidth 48)
  | 0x04 => some (s.root.setWidth 48)
  | 0x05 => some (s.nint.setWidth 48)
  | 0x06 => some (s.wp.setWidth 48)
  | 0x07 => some s.pack
  | 0x08 => some s.urem
  | 0x09 => some s.qiter
  | _ => none

end Sys2Proof.Machine
end

