-- ==== Sys2Proof/Machine/Textual.lean ====
section
/-! DEFINITION. The tree walk and the textual transforms (spec/43_textual_codec.md): WALK, ENC, DEC_START, DECB,
DEC_END. -/

namespace Sys2Proof.Machine

/-- `WALK(d)` (R150): digit 1 is `true`. -/
def walk (s : State) (d : Bool) : Run :=
  if isLeaf s.root then
    if d then .raised .streamCorruption s else .ok (s.emit (sym s.root))
  else
    match s.node s.wp with
    | .error f => .stuck f
    | .ok n =>
      let next := if d then n.right else n.left
      if isLeaf next then .ok { s.emit (sym next) with wp := s.root }
      else .ok { s with wp := next }

/-- `Emit(0x30 + c[i])` for each digit of a code word, first digit first (R152). -/
def emitDigits : List Bool → State → State
  | [], s => s
  | d :: ds, s => emitDigits ds (s.emit (asciiDigit d))

/-- ENC b (R152): in phase READY only; writes no register. -/
def execEnc (b : Sym) (s : State) : Answer :=
  if s.phase = .ready then
    .next ((emitDigits (s.codeWord b) s).respond (BitVec.ofNat 48 (s.codeWord b).length))
  else s.illegal

/-- DEC_START (R153): in phase READY only. -/
def execDecStart (s : State) : Answer :=
  if s.phase = .ready then .next ({ s with wp := s.root, phase := .dec }.respond 0)
  else s.illegal

/-- DECB b (R154): in phase DEC only; a byte that is neither '0' nor '1' is STREAM_CORRUPTION. -/
def execDecb (b : Byte) (s : State) : Answer :=
  if s.phase = .dec then
    if b = asciiDigit false then finish s (walk s false)
    else if b = asciiDigit true then finish s (walk s true)
    else .next (s.raise .streamCorruption)
  else s.illegal

/-- DEC_END (R155): in phase DEC only; the stream is closed, and a partial path is discarded with an error. -/
def execDecEnd (s : State) : Answer :=
  if s.phase = .dec then
    if s.wp = s.root then .next ({ s with phase := .ready }.respond 0)
    else .next ({ s with phase := .ready, wp := s.root }.raise .streamCorruption)
  else s.illegal

end Sys2Proof.Machine
end

