-- ==== Sys2Proof/Machine/Packed.lean ====
section
/-! DEFINITION. The bit-stream packer and unpacker (spec/44_packed_codec.md): PUSH, CMP_START, CMPS, CMP_END,
DCMP_START, DCMPB, DCMP_END, for a general G = PACK_BITS. -/

namespace Sys2Proof.Machine

/-- G, the significant bits per packed byte (spec/00_scope.md R8). -/
def State.g (s : State) : Nat := s.cfg.packBits.count

/-- `PUSH(d)` (R167). PCNT + 1 is compared with G as a number, since with G = 8 it does not fit PCNT's 3 bits before
it is reset (log entry 10). `BITCOUNT + 1` is a free value where the register has no room for it (log entry 17). -/
def push (s : State) (d : Bool) : State :=
  let buf : Byte := s.pbuf <<< 1 ||| BitVec.setWidth 8 (BitVec.ofBool d)
  if s.pcnt.toNat + 1 = s.g then
    ({ s.emit buf with pbuf := 0, pcnt := 0 } : State).setBitcount (s.bitcount.toNat + 1)
  else ({ s with pbuf := buf, pcnt := s.pcnt + 1 } : State).setBitcount (s.bitcount.toNat + 1)

/-- `PUSH` of each digit of a code word, first digit first (R168). -/
def pushDigits : List Bool → State → State
  | [], s => s
  | d :: ds, s => pushDigits ds (push s d)

/-- CMP_START (R166): in phase READY only. -/
def execCmpStart (s : State) : Answer :=
  if s.phase = .ready then
    .next ({ s with pbuf := 0, pcnt := 0, bitcount := 0, phase := .cmp }.respond 0)
  else s.illegal

/-- CMPS b (R168): in phase CMP only. -/
def execCmps (b : Sym) (s : State) : Answer :=
  if s.phase = .cmp then finish s (.ok (pushDigits (s.codeWord b) s))
  else s.illegal

/-- The flush of CMP_END (R169): a partial group is filled with zero digits up to the group boundary and emitted. -/
def flush (s : State) : State :=
  if 0 < s.pcnt.toNat then
    { s.emit (s.pbuf <<< (s.g - s.pcnt.toNat)) with pbuf := 0, pcnt := 0 }
  else s

/-- CMP_END (R169): in phase CMP only; BITCOUNT is not changed. -/
def execCmpEnd (s : State) : Answer :=
  if s.phase = .cmp then finish s (.ok { flush s with phase := .ready })
  else s.illegal

/-- DCMP_START (R170): in phase READY only. -/
def execDcmpStart (s : State) : Answer :=
  if s.phase = .ready then
    .next ({ s with urem := s.bitcount, wp := s.root, phase := .dcmp }.respond 0)
  else s.illegal

/-- The loop of DCMPB (R171): walk each digit while UREM is not 0; a digit that raises is not counted. -/
def unpack : List Bool → State → Run
  | [], s => .ok s
  | d :: ds, s =>
    if s.urem = 0 then .ok s
    else
      match walk s d with
      | .ok t => unpack ds { t with urem := t.urem - 1 }
      | .raised e t => .raised e t
      | .stuck f => .stuck f

/-- DCMPB b (R171): in phase DCMP only. -/
def execDcmpb (b : Byte) (s : State) : Answer :=
  if s.phase = .dcmp then finish s (unpack (packedDigits s.g b) s)
  else s.illegal

/-- DCMP_END (R172): in phase DCMP only; the stream is closed, and a walk off the root or an unspent budget is an
error. -/
def execDcmpEnd (s : State) : Answer :=
  if s.phase = .dcmp then
    if s.wp = s.root ∧ s.urem = 0 then .next ({ s with phase := .ready, wp := s.root }.respond 0)
    else .next ({ s with phase := .ready, wp := s.root }.raise .streamCorruption)
  else s.illegal

end Sys2Proof.Machine
end

