-- ==== Sys2Proof/WellFormed.lean ====
section
/-! DEFINITION. The checks on a command word that its operand fields' widths and the opcode table's masks do not
already make: R86 (c) of spec/30_encoding.md (a CSR command names a CSR of spec/10_state.md R41, and WRCSR one that may
be written) and R83 (on an engine with W < 32 the key's bits above W are 0). A command that fails one raises
ILLEGAL_COMMAND when it is issued. -/

namespace Sys2Proof

/-- `c` is a CSR number of R41: 0x00 to 0x09. -/
def isCsr (c : BitVec 8) : Bool := c.toNat ≤ 0x09

/-- `c` is a CSR that R41 lets a command write: BITCOUNT, 0x02, alone. -/
def isWritableCsr (c : BitVec 8) : Bool := c == 0x02#8

/-- The key of a Q_INSERT fits W bits: "for a smaller W the high bits of the field must be 0" (R83). -/
def keyFits (c : Config) (key : Weight) : Bool := key.toNat < 2 ^ c.weightBits

/-- The well-formed commands of an engine with parameters `cfg`. R86 (c): "the command is RDCSR or WRCSR and A is not a
CSR number of R41, or the command is WRCSR and the CSR is read-only" makes the word illegal; R83, R86 (b): so does a key
with a bit above W. -/
def Instr.wellFormed (cfg : Config) : Instr → Bool
  | .rdcsr c => isCsr c
  | .wrcsr c _ => isWritableCsr c
  | .clr => true
  | .count _ => true
  | .build => true
  | .qInsert _ key _ => keyFits cfg key
  | .qPeek _ => true
  | .qExtract _ => true
  | .qSize _ => true
  | .qEmpty _ => true
  | .qDup _ => true
  | .qIterBegin _ => true
  | .qIterNext => true
  | .qIterRemove => true
  | .enc _ => true
  | .decStart => true
  | .decb _ => true
  | .decEnd => true
  | .cmpStart => true
  | .cmps _ => true
  | .cmpEnd => true
  | .dcmpStart => true
  | .dcmpb _ => true
  | .dcmpEnd => true

end Sys2Proof
end

