-- ==== Sys2Proof/Machine/Queue.lean ====
section
/-! DEFINITION. The priority-queue unit (spec/41_queue.md): the procedures swim, sink, Insert and ExtractMin on the
live slots of a bank, and the nine Q_ commands. A heap is the list of its live slots, slot 1 first; slots are numbered
from 1 as the spec numbers them. -/

namespace Sys2Proof.Machine

/-- `HQ[b][k]`: a slot that is not live holds no value (spec/10_state.md R45). -/
def slot (h : List Entry) (k : Nat) : Except Fault Entry :=
  if k = 0 then .error (.unwrittenSlot 0)
  else
    match h[k - 1]? with
    | some e => .ok e
    | none => .error (.unwrittenSlot k)

/-- `swap(HQ[b], i, j)` (spec/00_scope.md R12). -/
def swapSlots (h : List Entry) (i j : Nat) : Except Fault (List Entry) := do
  let a ← slot h i
  let b ← slot h j
  .ok ((h.set (i - 1) b).set (j - 1) a)

/-- `swim(b, k)` (R111). `k` halves at each turn, so `k` turns are more than enough (log entry 16). -/
def swim : Nat → List Entry → Nat → Except Fault (List Entry)
  | 0, h, _ => .ok h
  | fuel + 1, h, k =>
    if 1 < k then do
      let e ← slot h k
      let parent ← slot h (k / 2)
      if e.key < parent.key then do
        let h' ← swapSlots h k (k / 2)
        swim fuel h' (k / 2)
      else .ok h
    else .ok h

/-- The child `sink` compares with slot `k`, which has a left child (R112): slot 2k + 1 when it is live and its key
is smaller, or equal while the tie policy takes the right child at `k`; else slot 2k. The indices do not wrap (log
entry 19). -/
def smallerChild (right : Nat → Bool) (h : List Entry) (k : Nat) : Except Fault Nat :=
  if 2 * k < h.length then do
    let l ← slot h (2 * k)
    let r ← slot h (2 * k + 1)
    if r.key < l.key ∨ (r.key = l.key ∧ right k = true) then .ok (2 * k + 1) else .ok (2 * k)
  else .ok (2 * k)

/-- `sink(b, k)` (R112). `k` doubles at each turn, so as many turns as there are slots are more than enough (log
entry 16). DESIGN CHOICE (log entry 19): `2k` and `2k + 1` are natural numbers and do not wrap at the 9 bits of a heap
index (spec/00_scope.md R13), which they can pass only where PQ_SLOTS is above 256. -/
def sink (right : Nat → Bool) : Nat → List Entry → Nat → Except Fault (List Entry)
  | 0, h, _ => .ok h
  | fuel + 1, h, k =>
    if 2 * k ≤ h.length then do
      let j ← smallerChild right h k
      let c ← slot h j
      let e ← slot h k
      if c.key < e.key then do
        let h' ← swapSlots h k j
        sink right fuel h' j
      else .ok h
    else .ok h

/-- Which child a tie at slot `k` takes during the `draw`-th ExtractMin (spec/00_scope.md R8, TIE_POLICY). -/
def tieChoice (p : TiePolicy) (draw : Nat) (k : Nat) : Bool :=
  match p with
  | .left => false
  | .right => true
  | .any => Config.tieRight draw k

/-- `Insert(q, e)` (R113): the entry goes into the slot after the last live one and swims. -/
def heapInsert (h : List Entry) (e : Entry) : Except Fault (List Entry) :=
  swim (h.length + 1) (h ++ [e]) (h.length + 1)

/-- `ExtractMin(q)` (R115): slot 1 and the last live slot change places, the last slot is no longer live, and slot 1
sinks. -/
def extractMin (right : Nat → Bool) (h : List Entry) : Except Fault (Entry × List Entry) := do
  let m ← slot h 1
  let h' ← swapSlots h 1 h.length
  let h'' ← sink right (h.length - 1) h'.dropLast 1
  .ok (m, h'')

/-- Q_INSERT q, key, item (R113): ILLEGAL_COMMAND when the key has a bit above W (spec/30_encoding.md R83) and when the
bank is full. -/
def execQInsert (q : Bank) (key : Weight) (item : Ref) (s : State) : Answer :=
  if keyFits s.cfg key = false then s.illegal
  else if (s.bank q).length = s.cfg.pqSlots then s.illegal
  else
    match heapInsert (s.bank q) { key := key, item := item } with
    | .ok h => .next ((s.setBank q h).respond 0)
    | .error f => .fault f

/-- Q_PEEK q (R114). -/
def execQPeek (q : Bank) (s : State) : Answer :=
  if (s.bank q).length = 0 then .next (s.raise .emptyQueue)
  else
    match slot (s.bank q) 1 with
    | .ok e => .next (s.respond (entryVal e))
    | .error f => .fault f

/-- Q_EXTRACT q (R115). -/
def execQExtract (q : Bank) (s : State) : Answer :=
  if (s.bank q).length = 0 then .next (s.raise .emptyQueue)
  else
    match extractMin (tieChoice s.cfg.tiePolicy s.draws) (s.bank q) with
    | .ok (m, h) => .next ({ s.setBank q h with draws := s.draws + 1 }.respond (entryVal m))
    | .error f => .fault f

/-- Q_SIZE q (R116). -/
def execQSize (q : Bank) (s : State) : Answer := .next (s.respond ((s.qn q).setWidth 48))

/-- Q_EMPTY q (R117). -/
def execQEmpty (q : Bank) (s : State) : Answer :=
  .next (s.respond (if s.qn q = 0 then 1 else 0))

/-- Q_DUP q (R118): a slot-for-slot copy of bank `q` into the other bank. -/
def execQDup (q : Bank) (s : State) : Answer :=
  if (s.bank q).length = 0 then
    if s.cfg.dupEmptyFails then .next (s.raise .emptyQueue)
    else .next ((s.setBank (1 - q) []).respond 0)
  else .next ((s.setBank (1 - q) (s.bank q)).respond 0)

/-- Q_ITER_BEGIN q (R119): the one cursor goes to slot 1 of bank `q`; the iteration is valid. -/
def execQIterBegin (q : Bank) (s : State) : Answer :=
  .next ({ s with qitb := q, qitk := 1, iter := .valid }.respond 0)

/-- Q_ITER_NEXT (R120): slot QITK of bank QITB, or the end mark. Over a bank that was changed since the iteration began
it has no meaning until the next Q_ITER_BEGIN (93_implementation_defined U5, R216, log entry 8). -/
def execQIterNext (s : State) : Answer :=
  if s.iter = .invalid then .refused .staleIteration
  else if s.qitk.toNat ≤ (s.bank s.qitb).length then
    match slot (s.bank s.qitb) s.qitk.toNat with
    | .ok e => .next ({ s with qitk := s.qitk + 1, iter := .valid }.respond (entryVal e))
    | .error f => .fault f
  else .next ({ s with iter := .valid }.respondDone)

/-- Q_ITER_REMOVE (R121): always UNSUPPORTED_OPERATION. -/
def execQIterRemove (s : State) : Answer := .next (s.raise .unsupportedOperation)

end Sys2Proof.Machine
end

