-- ==== Sys2Proof/Machine/System.lean ====
section
/-! DEFINITION. CLR, RDCSR, WRCSR (spec/40_system.md) and hardware reset (spec/70_reset_and_hazards.md R210). -/

namespace Sys2Proof.Machine

/-- The state CLR leaves (R100): the reset values of R43 in everything but OUT. The model's own fields stay, but the
iteration mark: U5 asks CLR to invalidate an iteration that was begun (log entry 9). -/
def State.cleared (s : State) : State :=
  { State.reset with
    out := s.out
    resps := s.resps
    port := s.port
    cfg := s.cfg
    draws := s.draws
    iter := s.iter.disturb }

/-- Hardware reset (R210): everything at its reset value, OUT empty; what the host will still do, the parameters and
the count of free choices are not the engine's (log entry 3). -/
def State.hardReset (s : State) : State :=
  { State.reset with port := s.port, cfg := s.cfg, draws := s.draws }

/-- CLR (R100): legal in every phase. -/
def execClr (s : State) : Answer := .next (s.cleared.respond 0)

/-- RDCSR c (R101): legal in every phase; writes no state. -/
def execRdcsr (c : BitVec 8) (s : State) : Answer :=
  match s.csr c with
  | some v => .next (s.respond v)
  | none => s.illegal

/-- WRCSR c, v (R102): BITCOUNT, in phases COUNT and READY. -/
def execWrcsr (c : BitVec 8) (v : Val) (s : State) : Answer :=
  if c = 0x02 ∧ (s.phase = .count ∨ s.phase = .ready) then
    .next ((s.setBitcount v.toNat).respond 0)
  else s.illegal

end Sys2Proof.Machine
end

