-- ==== Sys2Proof/Machine/Tree.lean ====
section
/-! DEFINITION. Frequency counting and tree building (spec/42_build.md): COUNT, and BUILD with its parts LEAVES,
MERGE, ROOTSTEP and DERIVE. -/

namespace Sys2Proof.Machine

/-- COUNT b (R130): in phase COUNT only; ILLEGAL_COMMAND when `TOTAL == 2^W - 1`. -/
def execCount (b : Sym) (s : State) : Answer :=
  if s.phase = .count ∧ s.total.toNat ≠ 2 ^ s.cfg.weightBits - 1 then
    .next ({ s.setFt b (s.ftAt b + 1) with total := s.total + 1 }.respond 0)
  else s.illegal

/-- The symbols 0, 1, …, 255 in this order. -/
def allSyms : List Sym := (List.range 256).map (BitVec.ofNat 8)

/-- LEAVES (R132): one leaf per symbol with non-zero count, inserted in ascending symbol order. -/
def leaves (ft : Vector Weight 256) : List Sym → List Entry → Except Fault (List Entry)
  | [], h => .ok h
  | b :: bs, h =>
    if ftGet ft b = 0 then leaves ft bs h
    else do
      let h' ← heapInsert h { key := ftGet ft b, item := leafRef b }
      leaves ft bs h'

/-- What MERGE works on: bank 0, the node memory, and the count of ExtractMin runs. -/
structure Forest where
  heap  : List Entry
  nm    : List Node
  draws : Nat
  deriving DecidableEq, Repr

/-- One turn of MERGE (R133): the two minimum entries `a`, `b` become the left and the right child of a new node. -/
def mergeOnce (p : TiePolicy) (f : Forest) : Except Fault Forest := do
  let (a, h1) ← extractMin (tieChoice p f.draws) f.heap
  let (b, h2) ← extractMin (tieChoice p (f.draws + 1)) h1
  let h3 ← heapInsert h2 { key := a.key + b.key, item := internalRef f.nm.length }
  .ok { heap := h3
        nm := f.nm ++ [{ weight := a.key + b.key, left := a.item, right := b.item }]
        draws := f.draws + 2 }

/-- MERGE (R133): "While the queue holds more than one item". Each turn leaves one item fewer, so as many turns as
there are items are enough (log entry 16). -/
def merge (p : TiePolicy) : Nat → Forest → Except Fault Forest
  | 0, f => .ok f
  | fuel + 1, f =>
    if 1 < f.heap.length then do
      let f' ← mergeOnce p f
      merge p fuel f'
    else .ok f

/-- `Visit(r, p)` (R135): the accumulated path at each leaf under `r`. `room` is how many more digits a CT entry can
hold. -/
def visit (nm : List Node) : Nat → Ref → List Bool → Vector Code 256 → Except Fault (Vector Code 256)
  | room, r, path, ct =>
    if isLeaf r then .ok (ct.set (sym r).toNat (codeOf path) (sym r).isLt)
    else
      match room with
      | 0 => .error .codeTooLong
      | room + 1 => do
        let n ← nodeAt nm r
        let ct' ← visit nm room n.left (path ++ [false]) ct
        visit nm room n.right (path ++ [true]) ct'

/-- The code table with every entry the empty sequence. -/
def emptyTable : Vector Code 256 := Vector.replicate 256 (codeOf [])

/-- DERIVE (R135, R136): the code table of the tree under `root`. -/
def derive (nm : List Node) (root : Ref) : Except Fault (Vector Code 256) :=
  if isLeaf root then
    .ok (emptyTable.set (sym root).toNat (codeOf singleCode) (sym root).isLt)
  else visit nm 255 root [] emptyTable

/-- What BUILD computes from FT. -/
structure Tree where
  heap  : List Entry
  nm    : List Node
  root  : Ref
  ct    : Vector Code 256
  draws : Nat
  deriving DecidableEq, Repr

/-- LEAVES, MERGE, ROOTSTEP (R134) and DERIVE on a fresh queue of PQ_SLOTS slots. MERGE never holds more entries than
LEAVES left, so the queue is large enough when the leaves fit (R9 c). -/
def buildTree (c : Config) (ft : Vector Weight 256) (draws : Nat) : Except Fault Tree := do
  let h ← leaves ft allSyms []
  if c.pqSlots < h.length then .error (.noSlot (c.pqSlots + 1))
  else do
    let f ← merge c.tiePolicy h.length { heap := h, nm := [], draws := draws }
    let (e, h') ← extractMin (tieChoice c.tiePolicy f.draws) f.heap
    let ct ← derive f.nm e.item
    .ok { heap := h', nm := f.nm, root := e.item, ct := ct, draws := f.draws + 1 }

/-- BUILD (R131): in phase COUNT only; EMPTY_INPUT when `TOTAL == 0`, before any change (R137). -/
def execBuild (s : State) : Answer :=
  if s.phase = .count then
    if s.total = 0 then .next (s.raise .emptyInput)
    else
      match buildTree s.cfg s.ft s.draws with
      | .ok t =>
        .next
          ({ s.setBank 0 t.heap with
             nm := t.nm
             root := t.root
             ct := t.ct
             wp := t.root
             phase := .ready
             draws := t.draws }.respond (t.root.setWidth 48))
      | .error f => .fault f
  else s.illegal

end Sys2Proof.Machine
end

