-- ==== Sys2Proof/Machine/Dispatch.lean ====
section
/-! DEFINITION. `exec`: one arm per command of spec/30_encoding.md R85, each one call of that command's meaning. -/

namespace Sys2Proof.Machine

def exec (i : Instr) (s : State) : Host.Outcome State Fault Refusal :=
  match i with
  | .clr => Sys2Proof.Machine.execClr s
  | .count b => Sys2Proof.Machine.execCount b s
  | .build => Sys2Proof.Machine.execBuild s
  | .rdcsr c => Sys2Proof.Machine.execRdcsr c s
  | .wrcsr c v => Sys2Proof.Machine.execWrcsr c v s
  | .qInsert q key item => Sys2Proof.Machine.execQInsert q key item s
  | .qPeek q => Sys2Proof.Machine.execQPeek q s
  | .qExtract q => Sys2Proof.Machine.execQExtract q s
  | .qSize q => Sys2Proof.Machine.execQSize q s
  | .qEmpty q => Sys2Proof.Machine.execQEmpty q s
  | .qDup q => Sys2Proof.Machine.execQDup q s
  | .qIterBegin q => Sys2Proof.Machine.execQIterBegin q s
  | .qIterNext => Sys2Proof.Machine.execQIterNext s
  | .qIterRemove => Sys2Proof.Machine.execQIterRemove s
  | .enc b => Sys2Proof.Machine.execEnc b s
  | .decStart => Sys2Proof.Machine.execDecStart s
  | .decb b => Sys2Proof.Machine.execDecb b s
  | .decEnd => Sys2Proof.Machine.execDecEnd s
  | .cmpStart => Sys2Proof.Machine.execCmpStart s
  | .cmps b => Sys2Proof.Machine.execCmps b s
  | .cmpEnd => Sys2Proof.Machine.execCmpEnd s
  | .dcmpStart => Sys2Proof.Machine.execDcmpStart s
  | .dcmpb b => Sys2Proof.Machine.execDcmpb b s
  | .dcmpEnd => Sys2Proof.Machine.execDcmpEnd s

end Sys2Proof.Machine
end

