-- ==== Sys2Proof/Machine/Port.lean ====
section
/-! DEFINITION. The command port (spec/00_scope.md R3, R14): the engine takes what the host does next and runs it to
completion before it looks at anything after it. -/

namespace Sys2Proof.Machine

/-- Run one command word: checks (1) and (2) of spec/30_encoding.md R93 are the decoder's, (3) to (5) the command's
own. -/
def runWord (w : Word64) (s : State) : Answer :=
  match decode w with
  | .ok i => exec i s
  | .error _ => s.illegal

/-- What the engine does with one thing the host does. -/
def runEvent (e : HostEvent) (s : State) : Answer :=
  match e with
  | .command w => runWord w s
  | .reset => .next s.hardReset

/-- Take the next thing off the port and run it. With nothing there the engine is idle and holds its state
(spec/60_exceptions.md R202, log entry 2). -/
def portStep (s : State) : Answer :=
  match s.port with
  | [] => .next s
  | e :: rest => runEvent e { s with port := rest }

/-- The word is what the host presents next. -/
def State.present (s : State) (w : Word64) : State := { s with port := .command w :: s.port }

end Sys2Proof.Machine
end

