-- ==== Sys2Proof/Machine/Step.lean ====
section
/-! DEFINITION. One step of the machine: one command, one hardware reset, or idling. -/

namespace Sys2Proof.Machine

def step (s : State) : Host.Outcome State Fault Refusal := portStep s

/-- `s` with the word put where the next step takes its command from: first at the port. -/
def State.withFetchWord (s : State) (nbits w : Nat) : State := s.present (tableWord nbits w)

end Sys2Proof.Machine
end

