-- ==== Sys2Proof/Safety.lean ====
section
/-! DEFINITION. The terms claims are stated in: the heap invariant (spec/10_state.md R31), the tree that ROOT and NM
hold, the invariant of every reachable state (R44), the legality table (spec/30_encoding.md R87), what a session that
raised nothing is (spec/60_exceptions.md R187), and the duties the host owes (spec/70_reset_and_hazards.md R213,
R216). -/

namespace Sys2Proof

open Sys2Proof.Machine

/-! ### The heap (R31) -/

/-- "For every index k in [1,N] with children 2k, 2k+1 ≤ N, node[k].weight ≤ node[child].weight" (R31). The
indices are natural numbers (log entry 19). -/
def HeapOk (h : List Entry) : Prop :=
  ∀ k c a b, (c = 2 * k ∨ c = 2 * k + 1) → slot h k = .ok a → slot h c = .ok b → a.key ≤ b.key

/-- The child that `sink` compares with slot `k` in a heap `h` (R112), said without the procedure: the smaller of the
two, and between equal keys slot `2k` under TIE_POLICY = left, slot `2k + 1` under right, either under any. -/
def SinkChild (p : TiePolicy) (h : List Entry) (k c : Nat) : Prop :=
  ∃ l, slot h (2 * k) = .ok l ∧
    ((c = 2 * k ∧ h.length < 2 * k + 1) ∨
      ∃ r, slot h (2 * k + 1) = .ok r ∧
        ((c = 2 * k ∧ (l.key < r.key ∨ (l.key = r.key ∧ p ≠ .right))) ∨
          (c = 2 * k + 1 ∧ (r.key < l.key ∨ (l.key = r.key ∧ p ≠ .left)))))

/-- `h'` is the heap `h` after an entry `e` put into the slot behind the last one has swum up (R111), said without the
procedure: `e` stands `j` halvings above that slot, each entry it passed has a greater key and stands one place down, the
entry it stopped under has no greater key, and no other slot changed. -/
def Swum (h : List Entry) (e : Entry) (h' : List Entry) : Prop :=
  ∃ j, 1 ≤ (h.length + 1) / 2 ^ j ∧ slot h' ((h.length + 1) / 2 ^ j) = .ok e ∧
    (∀ i < j, ∃ p, slot h ((h.length + 1) / 2 ^ (i + 1)) = .ok p ∧ e.key < p.key ∧
      slot h' ((h.length + 1) / 2 ^ i) = .ok p) ∧
    ((h.length + 1) / 2 ^ j = 1 ∨
      ∃ p, slot h ((h.length + 1) / 2 ^ (j + 1)) = .ok p ∧ ¬ e.key < p.key) ∧
    ∀ k, (∀ i ≤ j, k ≠ (h.length + 1) / 2 ^ i) → slot h' k = slot h k

/-- From slot `k` of `h`, the entry `x` sinks along the slots `ks` (R112), said without the procedure: each is the child
that `sink` compares, its key is smaller than `x`'s, and at the last there is no child or none with a smaller key. -/
def SinkPath (p : TiePolicy) (h : List Entry) (x : Entry) : Nat → List Nat → Prop
  | k, [] => h.length < 2 * k ∨ ∃ c e, SinkChild p h k c ∧ slot h c = .ok e ∧ ¬ e.key < x.key
  | k, c :: ks => 2 * k ≤ h.length ∧ SinkChild p h k c ∧ (∃ e, slot h c = .ok e ∧ e.key < x.key) ∧ SinkPath p h x c ks

/-- `h'` is the heap `h` with its slot 1 taken by `x`, which has sunk (R112): along a sink path from slot 1 each entry
stands one place up, `x` at the end, and no other slot changed. -/
def Sunk (p : TiePolicy) (h : List Entry) (x : Entry) (h' : List Entry) : Prop :=
  ∃ ks : List Nat, SinkPath p h x 1 ks ∧ h'.length = h.length ∧
    (∀ i c : Nat, ks[i]? = some c → slot h' ((1 :: ks)[i]?.getD 0) = slot h c) ∧
    slot h' (ks.getLast?.getD 1) = .ok x ∧ ∀ k, k ∉ 1 :: ks → slot h' k = slot h k

/-! ### The tree (R25 to R29) -/

/-- A code tree as the source describes it: "tagged union of {Leaf, Internal}". -/
inductive CodeTree where
  | leaf (b : Sym)
  | node (l r : CodeTree)
  deriving DecidableEq, Repr

/-- The symbols at the leaves, left to right. -/
def CodeTree.syms : CodeTree → List Sym
  | .leaf b => [b]
  | .node l r => l.syms ++ r.syms

/-- The symbols at the leaves with their paths: left edge 0, right edge 1 (spec/42_build.md R135). -/
def CodeTree.paths : CodeTree → List (Sym × List Bool)
  | .leaf b => [(b, [])]
  | .node l r => l.paths.map (fun x => (x.1, false :: x.2)) ++ r.paths.map (fun x => (x.1, true :: x.2))

/-- The node memory `nm` holds the tree `t` under reference `r` (R25, R26). -/
inductive Holds (nm : List Node) : Ref → CodeTree → Prop where
  | leaf (r : Ref) (h : isLeaf r = true) : Holds nm r (.leaf (sym r))
  | node (r : Ref) (n : Node) (tl tr : CodeTree) (h : nodeAt nm r = .ok n)
      (hl : Holds nm n.left tl) (hr : Holds nm n.right tr) : Holds nm r (.node tl tr)

/-- Reference `r` is `root` or is reached from it by child links. -/
inductive Under (nm : List Node) (root : Ref) : Ref → Prop where
  | root : Under nm root root
  | left (r : Ref) (n : Node) (h : nodeAt nm r = .ok n) (u : Under nm root r) : Under nm root n.left
  | right (r : Ref) (n : Node) (h : nodeAt nm r = .ok n) (u : Under nm root r) : Under nm root n.right

/-- The code word of the leaf with path `p`: the path, or SINGLE_CODE for the tree that is one leaf (R135, R136). -/
def wordOfPath (root : Ref) (p : List Bool) : List Bool := if isLeaf root then singleCode else p

/-- How many symbols have a non-zero count. -/
def distinct (ft : Vector Weight 256) : Nat := ft.toList.countP (· ≠ 0)

/-- The sum of the counts. -/
def counted (ft : Vector Weight 256) : Nat := (ft.toList.map BitVec.toNat).sum

/-- What is true of the tree and the code table while a tree exists (R26 to R29, R44 b, R138 c, d). -/
structure TreeOk (s : State) : Prop where
  /-- the tree under ROOT has one leaf for each counted symbol and no others, and CT holds the paths -/
  tree : ∃ t, Holds s.nm s.root t ∧ t.syms.Nodup ∧ (∀ b, b ∈ t.syms ↔ s.ftAt b ≠ 0) ∧
    ∀ b p, (b, p) ∈ t.paths → s.codeWord b = wordOfPath s.root p
  /-- an uncounted symbol has the empty code word -/
  unused : ∀ b, s.ftAt b = 0 → s.codeWord b = []
  /-- `weight(ROOT) == TOTAL` -/
  rootWeight : s.weightOf s.root = .ok s.total
  /-- an internal node's weight is the sum of its children's, without overflow, the lighter or equal one left -/
  nodeWeight : ∀ n ∈ s.nm, ∃ wl wr, s.weightOf n.left = .ok wl ∧ s.weightOf n.right = .ok wr ∧
    n.weight.toNat = wl.toNat + wr.toNat ∧ wl ≤ wr
  /-- `NM[0x100 + k]` refers only to leaves and to entries `0x100 + j` with `j < k` -/
  acyclic : ∀ k n, s.nm[k]? = some n → ∀ r, r = n.left ∨ r = n.right →
    isLeaf r = true ∨ ∃ j, j < k ∧ r = internalRef j
  /-- NINT is the number of distinct symbols less one -/
  nodeCount : s.nm.length + 1 = distinct s.ft
  /-- ROOT is the last node created, or the only symbol's leaf -/
  rootLast : if s.nm = [] then isLeaf s.root = true else s.root = internalRef (s.nm.length - 1)

/-! ### The invariant of every reachable state -/

/-- The errors the engine raises (R185, R189). -/
def raisable : List Err := [.emptyInput, .emptyQueue, .streamCorruption, .unsupportedOperation, .illegalCommand]

/-- What holds in every state reachable from reset: R44, with the bounds of the registers' own rules. -/
structure Inv (s : State) : Prop where
  /-- the parameters are ones that the rules' layouts have room for (log entry 4) -/
  legal : s.cfg.Legal
  /-- R31, R44 for bank 0 -/
  heap0 : HeapOk s.hq0
  /-- R31, R44 for bank 1 -/
  heap1 : HeapOk s.hq1
  /-- QN[0] is 0 to PQ_SLOTS (R30) -/
  size0 : s.hq0.length ≤ s.cfg.pqSlots
  /-- QN[1] is 0 to PQ_SLOTS (R30) -/
  size1 : s.hq1.length ≤ s.cfg.pqSlots
  /-- the keys of bank 0 have W bits (R30) -/
  keys0 : ∀ e ∈ s.hq0, keyFits s.cfg e.key = true
  /-- the keys of bank 1 have W bits (R30) -/
  keys1 : ∀ e ∈ s.hq1, keyFits s.cfg e.key = true
  /-- QITK is 1 to PQ_SLOTS + 1 (R32) -/
  cursor : 1 ≤ s.qitk.toNat ∧ s.qitk.toNat ≤ s.cfg.pqSlots + 1
  /-- TOTAL is the number of counted bytes (R23, R24), which keeps every count within it -/
  total : s.total.toNat = counted s.ft
  /-- TOTAL has W bits (R23) -/
  totalFits : keyFits s.cfg s.total = true
  /-- BITCOUNT and UREM have BITCOUNT_BITS bits (R36, R37) -/
  bits : s.bitcount.toNat < 2 ^ s.cfg.bitcountBits ∧ s.urem.toNat < 2 ^ s.cfg.bitcountBits
  /-- ERR holds no code that the engine never raises (R189) -/
  err : ∀ e, s.err = some e → e ∈ raisable
  /-- R44 (d) -/
  packer : s.pcnt.toNat < s.g ∧ s.pbuf.toNat < 2 ^ s.pcnt.toNat
  /-- the packer is empty while no compress stream is open (R169) -/
  packerIdle : s.phase ≠ .cmp → s.pcnt = 0
  /-- R44 (a) -/
  rootNil : s.phase = .count ↔ s.root = nilRef
  /-- no tree, no code words and no walk before BUILD (R29, R33, R45) -/
  noTree : s.phase = .count → s.wp = nilRef ∧ s.nm = [] ∧ ∀ b, s.codeWord b = []
  /-- R44 (b) -/
  tree : s.phase ≠ .count → TreeOk s
  /-- R44 (c): the walk stands at ROOT or at an internal node below it -/
  walk : s.phase ≠ .count → s.wp = s.root ∨ (Under s.nm s.root s.wp ∧ isLeaf s.wp = false)
  /-- the walk is at ROOT while no decode or decompress stream is open (R131, R155, R172) -/
  walkIdle : s.phase = .ready ∨ s.phase = .cmp → s.wp = s.root

/-! ### Legality and safe use -/

/-- The phases in which a command is legal: the table of R87. -/
def Instr.phases : Instr → List Phase
  | .clr => [.count, .ready, .dec, .cmp, .dcmp]
  | .count _ => [.count]
  | .build => [.count]
  | .rdcsr _ => [.count, .ready, .dec, .cmp, .dcmp]
  | .wrcsr _ _ => [.count, .ready]
  | .qInsert _ _ _ => [.count, .ready, .dec, .cmp, .dcmp]
  | .qPeek _ => [.count, .ready, .dec, .cmp, .dcmp]
  | .qExtract _ => [.count, .ready, .dec, .cmp, .dcmp]
  | .qSize _ => [.count, .ready, .dec, .cmp, .dcmp]
  | .qEmpty _ => [.count, .ready, .dec, .cmp, .dcmp]
  | .qDup _ => [.count, .ready, .dec, .cmp, .dcmp]
  | .qIterBegin _ => [.count, .ready, .dec, .cmp, .dcmp]
  | .qIterNext => [.count, .ready, .dec, .cmp, .dcmp]
  | .qIterRemove => [.count, .ready, .dec, .cmp, .dcmp]
  | .enc _ => [.ready]
  | .decStart => [.ready]
  | .decb _ => [.dec]
  | .decEnd => [.dec]
  | .cmpStart => [.ready]
  | .cmps _ => [.cmp]
  | .cmpEnd => [.cmp]
  | .dcmpStart => [.ready]
  | .dcmpb _ => [.dcmp]
  | .dcmpEnd => [.dcmp]

/-- "No error was raised in this session" (R187). -/
def NoError (s : State) : Prop := s.err = none

/-- What the host owes the engine at this command (R213 a, R216): an encoded symbol was counted, and an iteration
goes on only over an unchanged bank. -/
def HostKeepsDuty (i : Instr) (s : State) : Prop :=
  match i with
  | .enc b => s.ftAt b ≠ 0
  | .cmps b => s.ftAt b ≠ 0
  | .qIterNext => s.iter ≠ .invalid
  | _ => True

/-- The errors a command can raise when it is issued (spec/60_exceptions.md R188). A word that is no command raises
ILLEGAL_COMMAND before it is any of these. -/
def Instr.errors : Instr → List Err
  | .clr => []
  | .count _ => [.illegalCommand]
  | .build => [.illegalCommand, .emptyInput]
  | .rdcsr _ => [.illegalCommand]
  | .wrcsr _ _ => [.illegalCommand]
  | .qInsert _ _ _ => [.illegalCommand]
  | .qPeek _ => [.emptyQueue]
  | .qExtract _ => [.emptyQueue]
  | .qSize _ => []
  | .qEmpty _ => []
  | .qDup _ => [.emptyQueue]
  | .qIterBegin _ => []
  | .qIterNext => []
  | .qIterRemove => [.unsupportedOperation]
  | .enc _ => [.illegalCommand]
  | .decStart => [.illegalCommand]
  | .decb _ => [.illegalCommand, .streamCorruption]
  | .decEnd => [.illegalCommand, .streamCorruption]
  | .cmpStart => [.illegalCommand]
  | .cmps _ => [.illegalCommand]
  | .cmpEnd => [.illegalCommand]
  | .dcmpStart => [.illegalCommand]
  | .dcmpb _ => [.illegalCommand, .streamCorruption]
  | .dcmpEnd => [.illegalCommand, .streamCorruption]

/-- The rows of spec/opcode_table.json: `mask` covers OP and every must-be-zero bit of the row's format, and a word
belongs to the row when `word & mask == match` (R86). -/
def opcodeRows : List (Word64 × Word64) :=
  [(0xFFFFFFFFFFFFFFFF, 0x0100000000000000), (0xFFFFFFFFFFFFFF00, 0x0200000000000000),
   (0xFFFFFFFFFFFFFFFF, 0x0300000000000000), (0xFF00FFFFFFFFFFFF, 0x0800000000000000),
   (0xFF00000000000000, 0x0900000000000000), (0xFFFE00000000FE00, 0x2000000000000000),
   (0xFFFEFFFFFFFFFFFF, 0x2100000000000000), (0xFFFEFFFFFFFFFFFF, 0x2200000000000000),
   (0xFFFEFFFFFFFFFFFF, 0x2300000000000000), (0xFFFEFFFFFFFFFFFF, 0x2400000000000000),
   (0xFFFEFFFFFFFFFFFF, 0x2500000000000000), (0xFFFEFFFFFFFFFFFF, 0x2600000000000000)] ++
  [(0xFFFFFFFFFFFFFFFF, 0x2700000000000000), (0xFFFFFFFFFFFFFFFF, 0x2800000000000000),
   (0xFFFFFFFFFFFFFF00, 0x4000000000000000), (0xFFFFFFFFFFFFFFFF, 0x4100000000000000),
   (0xFFFFFFFFFFFFFF00, 0x4200000000000000), (0xFFFFFFFFFFFFFFFF, 0x4300000000000000),
   (0xFFFFFFFFFFFFFFFF, 0x4400000000000000), (0xFFFFFFFFFFFFFF00, 0x4500000000000000),
   (0xFFFFFFFFFFFFFFFF, 0x4600000000000000), (0xFFFFFFFFFFFFFFFF, 0x4700000000000000),
   (0xFFFFFFFFFFFFFF00, 0x4800000000000000), (0xFFFFFFFFFFFFFFFF, 0x4900000000000000)]

/-! ### Responses, digits walked in a row, commands in a row -/

/-- The response of a command that raised nothing and is no end of an iteration (R39). -/
def answered (v : Val) : Response := { err := none, done := false, val := v }

/-- The response of a Q_ITER_NEXT at the end (spec/41_queue.md R120). -/
def ended : Response := { err := none, done := true, val := 0 }

/-- The response of a command that raised `e` (R186). -/
def failed (e : Err) : Response := { err := some e, done := false, val := 0 }

/-- Digits walked one after another, as DECB does and as DCMPB does within its budget (spec/43_textual_codec.md
R150). -/
def walkDigits : List Bool → State → Run
  | [], s => .ok s
  | d :: ds, s =>
    match walk s d with
    | .ok t => walkDigits ds t
    | .raised e t => .raised e t
    | .stuck f => .stuck f

/-- Commands issued one after another, each after the response to the one before (spec/00_scope.md R14): the state
after the last, or the first stop. -/
def runCommands : List Instr → State → Answer
  | [], s => .next s
  | i :: rest, s =>
    match exec i s with
    | .next t => runCommands rest t
    | .fault f => .fault f
    | .refused r => .refused r

end Sys2Proof
end

