-- ==== Sys2Proof/Certificates/Slice0/Obligations.lean ====
section
/-! DEFINITION. The statements for the provers, from the numbered rules of spec/. A statement whose conclusion is
`exec i s = .next t` says both that the command completes and, since `t` is written as `s` with the named fields
changed, that every other field is unchanged. -/

open Sys2Proof Sys2Proof.Machine

/-! ### Encoding (spec/30_encoding.md) -/

/-- R81, R82, R83, R85: every command, with every operand, is read back from its word. -/
def Obligations.DecodeOfEncode : Prop :=
  ∀ i : Instr, decode (encode i) = .ok i

/-- R82, R85: a word that decodes is the word of the command it decodes to, so no bit is dropped and every
must-be-zero bit is 0. -/
def Obligations.EncodeOfDecode : Prop :=
  ∀ (w : Word64) (i : Instr), decode w = .ok i → encode i = w

/-- R86 (a), (b): the words that decode are exactly those that a row of the opcode table admits. -/
def Obligations.DecodesExactlyTableWords : Prop :=
  ∀ w : Word64, (∃ i, decode w = .ok i) ↔ ∃ row ∈ opcodeRows, w &&& row.1 = row.2

/-- R90 and the words of 95_test_vectors V1, V2: one word of each format reads as written, and illegal words do not. -/
def Obligations.SpecWordsDecode : Prop :=
  decode 0x0100000000000000 = .ok .clr ∧
  decode 0x0200000000000041 = .ok (.count 0x41) ∧
  decode 0x0300000000000000 = .ok .build ∧
  decode 0x0804000000000000 = .ok (.rdcsr 0x04) ∧
  decode 0x0902000000000009 = .ok (.wrcsr 0x02 9) ∧
  decode 0x2001000000050003 = .ok (.qInsert 1 5 0x003) ∧
  decode 0x2000FFFFFFFF01FF = .ok (.qInsert 0 0xFFFFFFFF 0x1FF) ∧
  decode 0x2101000000000000 = .ok (.qPeek 1) ∧
  decode 0x2700000000000000 = .ok .qIterNext ∧
  decode 0x4000000000000042 = .ok (.enc 0x42) ∧
  decode 0x4200000000000031 = .ok (.decb 0x31) ∧
  decode 0x480000000000000F = .ok (.dcmpb 0x0F) ∧
  decode 0x0000000000000000 = .error (.unknownOpcode 0x00) ∧
  decode 0x4A00000000000000 = .error (.unknownOpcode 0x4A) ∧
  decode 0x0200000000000141 = .error (.mustBeZero 0x02) ∧
  decode 0x2102000000000000 = .error (.mustBeZero 0x21)

/-- R84: the fields of the response word, with the errors by the numbers of R185's table; an entry returned by the queue
has its key in `val[47:16]`, zeros in `val[15:9]`, its item in `val[8:0]`. -/
def Obligations.ResponseWordLayout : Prop :=
  (∀ r : Response, r.word.extractLsb' 56 8 = errValue r.err ∧ r.word.extractLsb' 49 7 = 0 ∧
    r.word.getLsbD 48 = r.done ∧ r.word.extractLsb' 0 48 = r.val) ∧
  (errValue none = 0x00 ∧ errValue (some .invalidArgument) = 0x01 ∧ errValue (some .emptyInput) = 0x02 ∧
    errValue (some .emptyQueue) = 0x03 ∧ errValue (some .streamCorruption) = 0x04 ∧
    errValue (some .unsupportedOperation) = 0x05 ∧ errValue (some .unimplementedPath) = 0x06 ∧
    errValue (some .ioFailure) = 0x07 ∧ errValue (some .illegalCommand) = 0x08) ∧
  ∀ e : Entry, (entryVal e).extractLsb' 16 32 = e.key ∧ (entryVal e).extractLsb' 9 7 = 0 ∧
    (entryVal e).extractLsb' 0 9 = e.item

/-! ### Steps and reset -/

/-- When the word at the port decodes to a command, the step is `exec` of it, the word taken off the port. -/
def Obligations.StepRunsDecoded : Prop :=
  ∀ (s : State) (w : Word64) (rest : List HostEvent) (i : Instr),
    s.port = .command w :: rest → decode w = .ok i → step s = exec i { s with port := rest }

/-- R86: a word that passes no row's test `word & mask == match` (a, b), or whose CSR number is refused (c), or whose key
has a bit above W, which must be 0 (R83), raises ILLEGAL_COMMAND with no other effect; what is answered is written out:
the response, and ERR if it held nothing. -/
def Obligations.StepRejectsIllegalWord : Prop :=
  ∀ (s : State) (w : Word64) (rest : List HostEvent), s.port = .command w :: rest →
    ((∀ row ∈ opcodeRows, w &&& row.1 ≠ row.2) ∨ ∃ i, decode w = .ok i ∧ i.wellFormed s.cfg = false) →
      step s = .next { s with
        port := rest
        err := if s.err = none then some .illegalCommand else s.err
        resps := s.resps ++ [failed .illegalCommand] }

/-- R86 (c), R83: RDCSR or WRCSR of a CSR that does not exist, WRCSR of a read-only CSR, and Q_INSERT of a key with a bit
above W raise ILLEGAL_COMMAND with no other effect. -/
def Obligations.IllegalOperand : Prop :=
  ∀ (i : Instr) (s : State), i.wellFormed s.cfg = false →
    exec i s = .next { s with
      err := if s.err = none then some .illegalCommand else s.err
      resps := s.resps ++ [failed .illegalCommand] }

/-- R202: with nothing at the port the engine holds its state (the step that idles is the model's, log entry 2). -/
def Obligations.StepIdleHoldsState : Prop :=
  ∀ s : State, s.port = [] → step s = .next s

/-- R43: the reset values, one by one; after reset STATUS reads 0. -/
def Obligations.ResetValues : Prop :=
  State.reset.phase = .count ∧ State.reset.err = none ∧ State.reset.total = 0 ∧
  (∀ b, State.reset.ftAt b = 0) ∧ State.reset.root = 0x1FF ∧ State.reset.nint = 0 ∧ State.reset.nm = [] ∧
  (∀ b, (State.reset.ctAt b).len = 0 ∧ State.reset.codeWord b = []) ∧
  State.reset.qn 0 = 0 ∧ State.reset.qn 1 = 0 ∧ State.reset.hq0 = [] ∧ State.reset.hq1 = [] ∧
  State.reset.qitb = 0 ∧ State.reset.qitk = 1 ∧ State.reset.wp = 0x1FF ∧ State.reset.pbuf = 0 ∧
  State.reset.pcnt = 0 ∧ State.reset.bitcount = 0 ∧ State.reset.urem = 0 ∧ State.reset.out = [] ∧
  State.reset.status = 0

/-- R210: hardware reset puts every register and table at its reset value, OUT empty; the model keeps what the host
will still do, the parameters and the count of free choices (log entry 3). -/
def Obligations.StepHardwareReset : Prop :=
  ∀ (s : State) (rest : List HostEvent), s.port = .reset :: rest →
    step s = .next { State.reset with port := rest, cfg := s.cfg, draws := s.draws }

/-! ### Invariants and whole-machine rules -/

/-- R44, R31: the invariant holds after reset. -/
def Obligations.ResetKeepsInvariant : Prop := Inv State.reset

/-- R44, R31 and the ranges of the registers' rules: every step keeps the invariant (with PQ_SLOTS above 256, heap order
rests on the model's choice of log entry 19). -/
def Obligations.StepKeepsInvariant : Prop :=
  ∀ s t : State, Inv s → step s = .next t → Inv t

/-- R45, R221: from a state that keeps the invariant, whatever the host presents, the step completes: no unwritten
entry is read. The two exceptions are the model's own stops: Q_ITER_NEXT over a bank changed since the iteration began
(93_implementation_defined U5, log entry 8), and BUILD with more counted symbols than queue slots (log entry 18). With
PQ_SLOTS above 256 it rests on the model's choice of log entry 19. -/
def Obligations.StepCompletesFromInvariant : Prop :=
  ∀ s : State, Inv s →
    (∃ t, step s = .next t) ∨
    (s.iter = .invalid ∧ s.port.head? = some (.command 0x2700000000000000) ∧ step s = .refused .staleIteration) ∨
    (s.cfg.pqSlots < distinct s.ft ∧ s.port.head? = some (.command 0x0300000000000000) ∧
      step s = .fault (.noSlot (s.cfg.pqSlots + 1)))

/-- R87: "A command issued in a phase not marked `yes` raises ILLEGAL_COMMAND with no other effect." -/
def Obligations.WrongPhaseIsIllegal : Prop :=
  ∀ (i : Instr) (s : State), s.phase ∉ i.phases →
    exec i s = .next { s with
      err := if s.err = none then some .illegalCommand else s.err
      resps := s.resps ++ [failed .illegalCommand] }

/-- R39: every command that completes gives exactly one response; `val` is 0 in one that carries an error, and `done` is
set by Q_ITER_NEXT alone. -/
def Obligations.OneResponsePerCommand : Prop :=
  ∀ (i : Instr) (s t : State), exec i s = .next t →
    ∃ r, t.resps = s.resps ++ [r] ∧ (r.err ≠ none → r.val = 0) ∧ (r.done = true → i = .qIterNext)

/-- R186 (3), (4): a response that carries an error has `done = 0` and `val = 0`, and ERR takes the code if it held
none; a command other than CLR that raises nothing leaves ERR as it was. -/
def Obligations.RaiseReportsAndRecords : Prop :=
  ∀ (i : Instr) (s t : State) (r : Response), exec i s = .next t → t.resps = s.resps ++ [r] →
    (∀ e, r.err = some e → r = failed e ∧ t.err = if s.err = none then some e else s.err) ∧
    (r.err = none → i ≠ .clr → t.err = s.err)

/-- R187: ERR takes the first error code and keeps it until reset or CLR, which clear it; no other command clears or
overwrites it. -/
def Obligations.ErrIsSticky : Prop :=
  (∀ (i : Instr) (s t : State) (e : Err), exec i s = .next t → i ≠ .clr → s.err = some e → t.err = some e) ∧
  (∀ (i : Instr) (s t : State) (e : Err), exec i s = .next t → s.err = none →
    t.resps = s.resps ++ [failed e] → t.err = some e) ∧
  (∀ s t : State, exec .clr s = .next t → t.err = none) ∧ ∀ s : State, s.hardReset.err = none

/-- R188: which command can raise what. -/
def Obligations.OnlyListedErrors : Prop :=
  ∀ (i : Instr) (s t : State) (e : Err), exec i s = .next t → t.resps = s.resps ++ [failed e] → e ∈ i.errors

/-- R194: for every command but DCMPB, DEC_END and DCMP_END, and for these when they are illegal in the phase, a raise
leaves all state other than ERR (and the response) as it was. DEC_END and DCMP_END in their own phases close the stream
and return WP to ROOT before raising. DCMPB in its own phase has walked and counted the digits before the offending one,
and not that one nor those after it. -/
def Obligations.ErrorsArePrecise : Prop :=
  ∀ (i : Instr) (s t : State) (e : Err), exec i s = .next t → t.resps = s.resps ++ [failed e] →
    (((i ≠ .decEnd ∧ i ≠ .dcmpEnd ∧ ∀ b, i ≠ .dcmpb b) ∨ (e = .illegalCommand ∧ s.phase ∉ i.phases)) ∧
      t = { s with err := if s.err = none then some e else s.err, resps := s.resps ++ [failed e] }) ∨
    ((i = .decEnd ∧ s.phase = .dec ∨ i = .dcmpEnd ∧ s.phase = .dcmp) ∧ e = .streamCorruption ∧
      t = { s with
        phase := .ready
        wp := s.root
        err := if s.err = none then some e else s.err
        resps := s.resps ++ [failed e] }) ∨
    (∃ b ds d es m, i = .dcmpb b ∧ s.phase = .dcmp ∧ e = .streamCorruption ∧ packedDigits s.g b = ds ++ d :: es ∧
      walkDigits ds s = .ok m ∧ ds.length < s.urem.toNat ∧ walk m d = .raised e m ∧
      t = { s with
        out := m.out
        wp := m.wp
        urem := s.urem - BitVec.ofNat 48 ds.length
        err := if s.err = none then some e else s.err
        resps := s.resps ++ [failed e] })

/-- R38: no command clears, loses or reorders a byte of OUT. -/
def Obligations.OutOnlyGrows : Prop :=
  ∀ (i : Instr) (s t : State), exec i s = .next t → ∃ bytes, t.out = s.out ++ bytes

/-- R24, R46: once a tree exists, no command but CLR changes FT, TOTAL, NM, NINT, ROOT or CT. -/
def Obligations.TreeIsImmutable : Prop :=
  ∀ (i : Instr) (s t : State), exec i s = .next t → s.phase ≠ .count → i ≠ .clr →
    t.ft = s.ft ∧ t.total = s.total ∧ t.nm = s.nm ∧ t.root = s.root ∧ t.ct = s.ct

/-- R34, R20: no command changes what comes next at the port or the parameters. -/
def Obligations.PortAndParametersUntouched : Prop :=
  ∀ (i : Instr) (s t : State), exec i s = .next t → t.port = s.port ∧ t.cfg = s.cfg

/-- R122: the engine is deterministic: unless TIE_POLICY is `any`, no outcome depends on the free choices (the
model's `draws` selects them). -/
def Obligations.NoFreeChoiceWithoutAny : Prop :=
  ∀ (i : Instr) (s t : State) (d : Nat), s.cfg.tiePolicy ≠ .any → exec i s = .next t →
    ∃ d', exec i { s with draws := d } = .next { t with draws := d' }

/-- R20, R41, R115, R120: FRAME of the nine queue commands: whatever they answer, the session, the tree, the walk, the
packer, OUT and the parameters are unchanged. -/
def Obligations.QueueCommandsFrame : Prop :=
  ∀ (i : Instr) (s t : State), exec i s = .next t →
    (∃ q k x, i = .qInsert q k x) ∨ (∃ q, i = .qPeek q) ∨ (∃ q, i = .qExtract q) ∨ (∃ q, i = .qSize q) ∨
      (∃ q, i = .qEmpty q) ∨ (∃ q, i = .qDup q) ∨ (∃ q, i = .qIterBegin q) ∨ i = .qIterNext ∨
      i = .qIterRemove →
    t.phase = s.phase ∧ t.total = s.total ∧ t.ft = s.ft ∧ t.nm = s.nm ∧ t.root = s.root ∧ t.ct = s.ct ∧
    t.wp = s.wp ∧ t.pbuf = s.pbuf ∧ t.pcnt = s.pcnt ∧ t.bitcount = s.bitcount ∧ t.urem = s.urem ∧ t.out = s.out ∧
    t.cfg = s.cfg ∧ t.port = s.port

/-- R60: FRAME of the transforms: whatever ENC, DEC_START, DECB, DEC_END, CMP_START, CMPS, CMP_END, DCMP_START, DCMPB
and DCMP_END answer, the counts, the tree, both queue banks and the cursor are unchanged; only CMP_START, CMPS and
CMP_END touch the packer, CMP_START and CMPS alone BITCOUNT, DCMP_START and DCMPB alone UREM, and ENC and the compress
commands leave the walk alone (R152, R166 to R172). -/
def Obligations.TransformsFrame : Prop :=
  ∀ (i : Instr) (s t : State), exec i s = .next t →
    (∃ b, i = .enc b) ∨ i = .decStart ∨ (∃ b, i = .decb b) ∨ i = .decEnd ∨ i = .cmpStart ∨ (∃ b, i = .cmps b) ∨
      i = .cmpEnd ∨ i = .dcmpStart ∨ (∃ b, i = .dcmpb b) ∨ i = .dcmpEnd →
    t.total = s.total ∧ t.ft = s.ft ∧ t.nm = s.nm ∧ t.root = s.root ∧ t.ct = s.ct ∧ t.hq0 = s.hq0 ∧ t.hq1 = s.hq1 ∧
    t.qitb = s.qitb ∧ t.qitk = s.qitk ∧ t.draws = s.draws ∧ t.iter = s.iter ∧ t.cfg = s.cfg ∧
    t.port = s.port ∧
    ((∀ b, i ≠ .cmps b) → i ≠ .cmpStart → i ≠ .cmpEnd → t.pbuf = s.pbuf ∧ t.pcnt = s.pcnt) ∧
    ((∀ b, i ≠ .cmps b) → i ≠ .cmpStart → t.bitcount = s.bitcount) ∧
    ((∀ b, i ≠ .dcmpb b) → i ≠ .dcmpStart → t.urem = s.urem) ∧
    ((∃ b, i = .enc b) ∨ i = .cmpStart ∨ (∃ b, i = .cmps b) ∨ i = .cmpEnd → t.wp = s.wp)

/-! ### System commands (spec/40_system.md) -/

/-- R100: CLR, in every phase, leaves the reset values in everything but OUT, and answers 0 (the last four fields are the
model's own). -/
def Obligations.ClrResult : Prop :=
  ∀ s : State, ∃ t, exec .clr s = .next t ∧
    t = { State.reset with
      out := s.out
      resps := s.resps ++ [answered 0]
      port := t.port
      cfg := t.cfg
      draws := t.draws
      iter := t.iter }

/-- R101: RDCSR of each CSR completes in every phase, writes no state, and answers the CSR's fields at the bits of
R41's table, the bits above them zero (NINT within its range), PHASE by the numbers 0 to 4 of R21 and ERR by 0 and the
codes 1 to 8 of R185; of any other number it is ILLEGAL_COMMAND. -/
def Obligations.RdcsrResult : Prop :=
  (∀ (s : State) (c : BitVec 8), 9 < c.toNat → exec (.rdcsr c) s = .next (s.raise .illegalCommand)) ∧
  ∀ (s : State) (c : BitVec 8), c.toNat ≤ 9 → s.nm.length ≤ 255 →
    ∃ v : Val, exec (.rdcsr c) s = .next { s with resps := s.resps ++ [answered v] } ∧
      (c = 0x00 →
        (s.phase = .count → v.extractLsb' 0 3 = 0) ∧ (s.phase = .ready → v.extractLsb' 0 3 = 1) ∧
        (s.phase = .dec → v.extractLsb' 0 3 = 2) ∧ (s.phase = .cmp → v.extractLsb' 0 3 = 3) ∧
        (s.phase = .dcmp → v.extractLsb' 0 3 = 4) ∧ v.getLsbD 3 = decide (s.phase ≠ .count) ∧
        v.getLsbD 4 = (decide (s.phase ≠ .count) && isLeaf s.root) ∧
        v.getLsbD 5 = (decide (s.phase ≠ .count) && decide (s.wp = s.root)) ∧ v.extractLsb' 6 42 = 0) ∧
      (c = 0x01 →
        (s.err = none → v = 0) ∧ (s.err = some .invalidArgument → v = 1) ∧ (s.err = some .emptyInput → v = 2) ∧
        (s.err = some .emptyQueue → v = 3) ∧ (s.err = some .streamCorruption → v = 4) ∧
        (s.err = some .unsupportedOperation → v = 5) ∧ (s.err = some .unimplementedPath → v = 6) ∧
        (s.err = some .ioFailure → v = 7) ∧ (s.err = some .illegalCommand → v = 8)) ∧
      (c = 0x02 → v = s.bitcount) ∧
      (c = 0x03 → v.toNat = s.total.toNat) ∧
      (c = 0x04 → v.toNat = s.root.toNat) ∧
      (c = 0x05 → v.toNat = s.nm.length) ∧
      (c = 0x06 → v.toNat = s.wp.toNat) ∧
      (c = 0x07 → v.extractLsb' 0 8 = s.pbuf ∧ v.extractLsb' 8 3 = s.pcnt ∧ v.extractLsb' 11 37 = 0) ∧
      (c = 0x08 → v = s.urem) ∧
      (c = 0x09 → v.extractLsb' 0 9 = s.qitk ∧ v.extractLsb' 9 7 = 0 ∧ v.extractLsb' 16 1 = s.qitb ∧
        v.extractLsb' 17 31 = 0)

/-- R102: WRCSR BITCOUNT, v writes any value that BITCOUNT has the bits for (any 48-bit value, at R8's BITCOUNT_BITS) in
phases COUNT and READY and answers 0; a value of more bits is not refused either, and what BITCOUNT then holds is free
within its bits (log entry 17); every other WRCSR is ILLEGAL_COMMAND. -/
def Obligations.WrcsrResult : Prop :=
  ∀ (s : State) (c : BitVec 8) (v : Val),
    (c = 0x02 ∧ (s.phase = .count ∨ s.phase = .ready) →
      ∃ n : Val, exec (.wrcsr c v) s = .next { s with bitcount := n, resps := s.resps ++ [answered 0] } ∧
        (v.toNat < 2 ^ s.cfg.bitcountBits → n = v) ∧ n.toNat < 2 ^ s.cfg.bitcountBits) ∧
    (¬(c = 0x02 ∧ (s.phase = .count ∨ s.phase = .ready)) → exec (.wrcsr c v) s = .next (s.raise .illegalCommand))

/-! ### The priority queue (spec/41_queue.md) -/

/-- R113, R111, R124 (a), (b): Q_INSERT of a key of W bits into a bank that is not full puts the entry where the strict
swim takes it and moves the entries it passed one place down, so it adds exactly the entry, keeps heap order, and answers
0; into a full bank, or of a wider key (R83), it is ILLEGAL_COMMAND with no state change. -/
def Obligations.QInsertResult : Prop :=
  ∀ (s : State) (q : Bank) (key : Weight) (item : Ref),
    (key.toNat < 2 ^ s.cfg.weightBits → (s.bank q).length ≠ s.cfg.pqSlots →
      ∃ t, exec (.qInsert q key item) s = .next t ∧ Swum (s.bank q) { key := key, item := item } (t.bank q) ∧
        (t.bank q).Perm ({ key := key, item := item } :: s.bank q) ∧ (HeapOk (s.bank q) → HeapOk (t.bank q)) ∧
        t.bank (1 - q) = s.bank (1 - q) ∧
        t = { s with
          hq0 := t.hq0, hq1 := t.hq1, iter := t.iter, resps := s.resps ++ [answered 0] }) ∧
    (2 ^ s.cfg.weightBits ≤ key.toNat ∨ (s.bank q).length = s.cfg.pqSlots →
      exec (.qInsert q key item) s = .next (s.raise .illegalCommand))

/-- R114: Q_PEEK answers slot 1, in a heap the minimum-weight item, and writes no state, or raises EMPTY_QUEUE. -/
def Obligations.QPeekResult : Prop :=
  ∀ (s : State) (q : Bank),
    (∀ m rest, s.bank q = m :: rest →
      exec (.qPeek q) s = .next { s with resps := s.resps ++ [answered (entryVal m)] } ∧
        (HeapOk (s.bank q) → ∀ e ∈ s.bank q, m.key ≤ e.key)) ∧
    (s.bank q = [] → exec (.qPeek q) s = .next (s.raise .emptyQueue))

/-- R115, R112, R124 (a), (b), (c): Q_EXTRACT of a non-empty bank takes out exactly slot 1's entry, which has a minimum key
when the bank is a heap, keeps heap order, and answers the entry; the last entry takes slot 1 and sinks, between
children of equal keys as TIE_POLICY says (R112); of an empty bank it raises EMPTY_QUEUE with no state change. In a bank
of more than 256 slots this rests on the model's choice that sink's indices do not wrap (log entry 19). -/
def Obligations.QExtractResult : Prop :=
  ∀ (s : State) (q : Bank),
    (∀ m rest, s.bank q = m :: rest →
      ∃ t, exec (.qExtract q) s = .next t ∧ (s.bank q).Perm (m :: t.bank q) ∧
        (HeapOk (s.bank q) → HeapOk (t.bank q) ∧ ∀ e ∈ s.bank q, m.key ≤ e.key) ∧
        (∀ x, rest.getLast? = some x → Sunk s.cfg.tiePolicy (s.bank q).dropLast x (t.bank q)) ∧
        t.bank (1 - q) = s.bank (1 - q) ∧
        t = { s with
          hq0 := t.hq0, hq1 := t.hq1, iter := t.iter, draws := t.draws
          resps := s.resps ++ [answered (entryVal m)] }) ∧
    (s.bank q = [] → exec (.qExtract q) s = .next (s.raise .emptyQueue))

/-- R124 (d): QN consecutive Q_EXTRACTs of a heap empty it and answer all its entries with keys in non-decreasing
order (above 256 slots with the model's choice of log entry 19). -/
def Obligations.DrainIsSorted : Prop :=
  ∀ (s : State) (q : Bank), HeapOk (s.bank q) →
    ∃ (t : State) (es : List Entry), runCommands (List.replicate (s.bank q).length (.qExtract q)) s = .next t ∧
      t.resps = s.resps ++ es.map (fun e => answered (entryVal e)) ∧ es.Perm (s.bank q) ∧
      es.Pairwise (fun a b => a.key ≤ b.key) ∧ t.bank q = []

/-- R116, R117: Q_SIZE answers the number of live slots, Q_EMPTY answers 1 exactly for an empty bank; neither writes
state. -/
def Obligations.QSizeAndEmptyResult : Prop :=
  ∀ (s : State) (q : Bank), (s.bank q).length ≤ 510 →
    exec (.qSize q) s = .next { s with resps := s.resps ++ [answered (BitVec.ofNat 48 (s.bank q).length)] } ∧
    exec (.qEmpty q) s = .next { s with resps := s.resps ++ [answered (if s.bank q = [] then 1 else 0)] }

/-- R118: Q_DUP copies bank q slot for slot into the other bank; of an empty bank it raises EMPTY_QUEUE, or empties the
other bank when DUP_EMPTY_FAILS is false. -/
def Obligations.QDupResult : Prop :=
  ∀ (s : State) (q : Bank),
    (s.bank q ≠ [] ∨ s.cfg.dupEmptyFails = false →
      ∃ t, exec (.qDup q) s = .next t ∧ t.bank (1 - q) = s.bank q ∧ t.bank q = s.bank q ∧
        t.resps = s.resps ++ [answered 0] ∧
        t = { s with hq0 := t.hq0, hq1 := t.hq1, resps := t.resps, iter := t.iter }) ∧
    (s.bank q = [] ∧ s.cfg.dupEmptyFails = true → exec (.qDup q) s = .next (s.raise .emptyQueue))

/-- R119: Q_ITER_BEGIN, in every phase and of any bank, sets the one cursor to slot 1 of bank q and answers 0 (the mark
`iter`, which becomes `valid`, is the model's own, log entry 9: IterationMarkIsSound). -/
def Obligations.QIterBeginResult : Prop :=
  ∀ (s : State) (q : Bank), ∃ t, exec (.qIterBegin q) s = .next t ∧
    t = { s with qitb := q, qitk := 1, iter := t.iter, resps := s.resps ++ [answered 0] }

/-- R120: over a bank not changed since the iteration began, Q_ITER_NEXT answers slot QITK of bank QITB and moves the
cursor on, or answers the end and changes nothing (the mark `iter` is the model's own; where it is `invalid` see
IterationMarkIsSound). -/
def Obligations.QIterNextResult : Prop :=
  ∀ s : State, s.iter ≠ .invalid →
    (∀ e, slot (s.bank s.qitb) s.qitk.toNat = .ok e → ∃ m, exec .qIterNext s =
      .next { s with qitk := s.qitk + 1, iter := m, resps := s.resps ++ [answered (entryVal e)] }) ∧
    ((s.bank s.qitb).length < s.qitk.toNat →
      ∃ m, exec .qIterNext s = .next { s with iter := m, resps := s.resps ++ [ended] })

/-- R119, R120: an iteration answers the live slots in array order and then the end, and leaves both banks as they
were. -/
def Obligations.IterationInArrayOrder : Prop :=
  ∀ (s : State) (q : Bank), (s.bank q).length ≤ 510 →
    ∃ t, runCommands (.qIterBegin q :: List.replicate ((s.bank q).length + 1) .qIterNext) s = .next t ∧
      t.resps = s.resps ++ [answered 0] ++ (s.bank q).map (fun e => answered (entryVal e)) ++ [ended] ∧
      t.hq0 = s.hq0 ∧ t.hq1 = s.hq1

/-- R121: Q_ITER_REMOVE always raises UNSUPPORTED_OPERATION and writes no state other than ERR. -/
def Obligations.QIterRemoveResult : Prop :=
  ∀ s : State, exec .qIterRemove s = .next { s with
    err := if s.err = none then some .unsupportedOperation else s.err
    resps := s.resps ++ [failed .unsupportedOperation] }

/-- R216 with the mark of 93_implementation_defined U5 (the mark is the model's, log entries 8 and 9). Q_ITER_BEGIN makes
the iteration valid; while it is valid no other command leaves it so and changes the bank the cursor is on or moves the
cursor to the other bank; only a write of that bank, or CLR, makes it invalid; once invalid it stays so until
Q_ITER_BEGIN, and a Q_ITER_NEXT is given no meaning; Q_ITER_NEXT over a bank that may be read makes or keeps it valid. -/
def Obligations.IterationMarkIsSound : Prop :=
  (∀ (s t : State) (q : Bank), exec (.qIterBegin q) s = .next t → t.iter = .valid) ∧
  (∀ (i : Instr) (s t : State), exec i s = .next t → (∀ q, i ≠ .qIterBegin q) → s.iter = .valid →
    (t.iter = .valid ∧ t.qitb = s.qitb ∧ t.bank s.qitb = s.bank s.qitb) ∨
    (t.iter = .invalid ∧ (i = .clr ∨ (∃ k x, i = .qInsert s.qitb k x) ∨ i = .qExtract s.qitb ∨
      i = .qDup (1 - s.qitb) ∨ (i = .build ∧ s.qitb = 0)))) ∧
  (∀ (i : Instr) (s t : State), exec i s = .next t → (∀ q, i ≠ .qIterBegin q) → s.iter = .invalid →
    t.iter = .invalid) ∧
  (∀ s : State, s.iter = .invalid → exec .qIterNext s = .refused .staleIteration) ∧
  ∀ s t : State, exec .qIterNext s = .next t → t.iter = .valid

/-! ### Counting and building (spec/42_build.md) -/

/-- R130: COUNT b in phase COUNT adds one to FT[b] and to TOTAL and answers 0; at TOTAL = 2^W - 1 and in any other
phase it is ILLEGAL_COMMAND with no state change. -/
def Obligations.CountResult : Prop :=
  ∀ (s : State) (b : Sym),
    (s.phase = .count ∧ s.total.toNat ≠ 2 ^ s.cfg.weightBits - 1 →
      ∃ t, exec (.count b) s = .next t ∧ t.ftAt b = s.ftAt b + 1 ∧ (∀ c, c ≠ b → t.ftAt c = s.ftAt c) ∧
        t.total = s.total + 1 ∧ (s.total.toNat < 2 ^ min s.cfg.weightBits 32 - 1 → t.total.toNat = s.total.toNat + 1) ∧
        t.resps = s.resps ++ [answered 0] ∧
        t = { s with ft := t.ft, total := t.total, resps := t.resps }) ∧
    (s.phase ≠ .count ∨ s.total.toNat = 2 ^ s.cfg.weightBits - 1 → exec (.count b) s = .next (s.raise .illegalCommand))

/-- R131 to R135, R138 (c), (d): BUILD of a counted session completes in READY with the tree and the code table of the
counted symbols, WP at ROOT, bank 0 empty, and answers ROOT; everything BUILD does not write is unchanged. On an engine
with fewer queue slots than counted symbols, of which the spec says nothing, the model stops (log entry 18). -/
def Obligations.BuildResult : Prop :=
  ∀ s : State, Inv s → s.phase = .count → s.total ≠ 0 →
    (s.cfg.pqSlots < distinct s.ft → exec .build s = .fault (.noSlot (s.cfg.pqSlots + 1))) ∧
    (distinct s.ft ≤ s.cfg.pqSlots → ∃ t, exec .build s = .next t ∧ TreeOk t ∧ t.phase = .ready ∧ t.wp = t.root ∧
      t.hq0 = [] ∧ t.resps = s.resps ++ [answered (BitVec.setWidth 48 t.root)] ∧
      t = { s with
        phase := t.phase, nm := t.nm, root := t.root, ct := t.ct, wp := t.wp, hq0 := t.hq0, draws := t.draws
        iter := t.iter, resps := t.resps })

/-- R137: BUILD with TOTAL = 0 raises EMPTY_INPUT before any change but ERR. -/
def Obligations.BuildEmptyInput : Prop :=
  ∀ s : State, s.phase = .count → s.total = 0 →
    exec .build s = .next { s with
      err := if s.err = none then some .emptyInput else s.err
      resps := s.resps ++ [failed .emptyInput] }

/-- R136: when exactly one symbol was counted, BUILD leaves its leaf as ROOT, no internal node, and the code word "0";
the flag SINGLE is 1. -/
def Obligations.BuildSingleSymbol : Prop :=
  ∀ (s : State) (b : Sym), Inv s → s.phase = .count → s.ftAt b ≠ 0 → (∀ c, c ≠ b → s.ftAt c = 0) →
    ∃ t, exec .build s = .next t ∧ t.root = leafRef b ∧ t.nint = 0 ∧ t.codeWord b = [false] ∧
      (∀ c, c ≠ b → t.codeWord c = []) ∧ t.single = true

/-- R132, R217: BUILD starts from a fresh queue: what bank 0 held does not reach the tree or anything else. -/
def Obligations.BuildIgnoresBankZero : Prop :=
  ∀ (s : State) (h : List Entry), s.phase = .count → s.total ≠ 0 →
    exec .build { s with hq0 := h } = exec .build s

/-- R88, R138 (a): of two different counted symbols, neither code word is a prefix of the other. -/
def Obligations.CodeIsPrefixFree : Prop :=
  ∀ s : State, Inv s → s.phase ≠ .count → ∀ a b : Sym, a ≠ b → s.ftAt a ≠ 0 → s.ftAt b ≠ 0 →
    ¬ s.codeWord a <+: s.codeWord b

/-- R138 (b): the code table that BUILD derives has the least total encoded length among all prefix codes that give
each counted symbol at least one digit, under every tie policy. -/
def Obligations.CodeIsOptimal : Prop :=
  ∀ s t : State, Inv s → s.phase = .count → s.total ≠ 0 → exec .build s = .next t →
    ∀ c : Sym → List Bool, (∀ b, s.ftAt b ≠ 0 → c b ≠ []) →
      (∀ a b, a ≠ b → s.ftAt a ≠ 0 → s.ftAt b ≠ 0 → ¬ c a <+: c b) →
      (allSyms.map fun b => (s.ftAt b).toNat * (t.codeWord b).length).sum ≤
        (allSyms.map fun b => (s.ftAt b).toNat * (c b).length).sum

/-! ### Opening a stream -/

/-- R153, R166, R170: in READY, DEC_START puts the walk at ROOT; CMP_START empties the packer and zeroes BITCOUNT;
DCMP_START loads UREM from BITCOUNT and puts the walk at ROOT; each opens its stream and answers 0. -/
def Obligations.StreamStartsResult : Prop :=
  ∀ s : State, s.phase = .ready →
    exec .decStart s = .next { s with wp := s.root, phase := .dec, resps := s.resps ++ [answered 0] } ∧
    exec .cmpStart s = .next { s with
      pbuf := 0, pcnt := 0, bitcount := 0, phase := .cmp, resps := s.resps ++ [answered 0] } ∧
    exec .dcmpStart s = .next { s with
      urem := s.bitcount, wp := s.root, phase := .dcmp, resps := s.resps ++ [answered 0] }

/-! ### Textual transforms (spec/43_textual_codec.md) -/

/-- R152: ENC b in READY emits the ASCII digits of CT[b] in order, answers their number, and writes no register. -/
def Obligations.EncResult : Prop :=
  ∀ (s : State) (b : Sym), s.phase = .ready →
    exec (.enc b) s = .next { s with
      out := s.out ++ (s.codeWord b).map (fun d => if d then 0x31 else 0x30)
      resps := s.resps ++ [answered (BitVec.ofNat 48 (s.codeWord b).length)] }

/-- R154, R150: DECB in DEC. On a tree with internal nodes the digit '0' or '1' takes the left or the right link of
NM[WP]; a leaf emits its symbol and returns WP to ROOT. On a single-symbol tree '0' emits the symbol and '1' raises. Any
other byte raises. -/
def Obligations.DecbResult : Prop :=
  ∀ (s : State) (b : Byte), s.phase = .dec →
    (∀ (d : Bool) (n : Node), b = (if d then 0x31 else 0x30) → isLeaf s.root = false → s.node s.wp = .ok n →
      exec (.decb b) s = .next (
        if isLeaf (if d then n.right else n.left) then
          { s with
            out := s.out ++ [sym (if d then n.right else n.left)]
            wp := s.root
            resps := s.resps ++ [answered 1] }
        else { s with wp := if d then n.right else n.left, resps := s.resps ++ [answered 0] })) ∧
    (b = 0x30 → isLeaf s.root = true →
      exec (.decb b) s = .next { s with out := s.out ++ [sym s.root], resps := s.resps ++ [answered 1] }) ∧
    (b = 0x31 → isLeaf s.root = true → exec (.decb b) s = .next (s.raise .streamCorruption)) ∧
    (b ≠ 0x30 → b ≠ 0x31 → exec (.decb b) s = .next (s.raise .streamCorruption))

/-- R155: DEC_END in DEC closes the stream; off the root the partial path is discarded and STREAM_CORRUPTION raised. -/
def Obligations.DecEndResult : Prop :=
  ∀ s : State, s.phase = .dec →
    (s.wp = s.root → exec .decEnd s = .next { s with phase := .ready, resps := s.resps ++ [answered 0] }) ∧
    (s.wp ≠ s.root → exec .decEnd s = .next { s with
      phase := .ready
      wp := s.root
      err := if s.err = none then some .streamCorruption else s.err
      resps := s.resps ++ [failed .streamCorruption] })

/-- R156: the textual round trip. In READY, the digits that ENC emits for counted symbols, fed to a decode stream, make
it emit exactly those symbols, and no command of it raises. -/
def Obligations.TextualRoundTrip : Prop :=
  ∀ (s : State) (bs : List Sym), Inv s → s.phase = .ready → (∀ b ∈ bs, s.ftAt b ≠ 0) →
    ∃ (t u : State) (text : List Byte), runCommands (bs.map .enc) s = .next t ∧ t.out = s.out ++ text ∧
      runCommands (.decStart :: text.map .decb ++ [.decEnd]) t = .next u ∧ u.out = t.out ++ bs ∧
      u.err = s.err ∧ (∀ r ∈ u.resps.drop s.resps.length, r.err = none) ∧ u.phase = .ready

/-! ### Packed transforms (spec/44_packed_codec.md) -/

/-- R167, R168, R65: CMPS b in CMP emits whole packed bytes of G digits, most significant first: the digits emitted and
then the digits held are those held before and then those of CT[b]; BITCOUNT counts them as far as its bits go (past
them its value is free: log entry 17); the answer is `floor((PCNT_before + |c|) / G)`, the number of bytes. -/
def Obligations.CmpsResult : Prop :=
  ∀ (s : State) (b : Sym), s.phase = .cmp → s.pcnt.toNat < s.g →
    ∃ (bytes : List Byte) (buf : Byte) (cnt : BitVec 3) (bc : Val),
      exec (.cmps b) s = .next { s with
        out := s.out ++ bytes
        pbuf := buf
        pcnt := cnt
        bitcount := bc
        resps := s.resps ++ [answered (BitVec.ofNat 48 bytes.length)] } ∧
      bytes.flatMap (packedDigits s.g) ++ packedDigits cnt.toNat buf =
        packedDigits s.pcnt.toNat s.pbuf ++ s.codeWord b ∧
      (s.bitcount.toNat + (s.codeWord b).length < 2 ^ min s.cfg.bitcountBits 48 →
        bc.toNat = s.bitcount.toNat + (s.codeWord b).length) ∧
      (s.bitcount.toNat < 2 ^ s.cfg.bitcountBits → bc.toNat < 2 ^ s.cfg.bitcountBits) ∧
      cnt.toNat < s.g ∧ bytes.length = (s.pcnt.toNat + (s.codeWord b).length) / s.g ∧
      (s.pbuf.toNat < 2 ^ s.pcnt.toNat → buf.toNat < 2 ^ cnt.toNat ∧ ∀ x ∈ bytes, x.toNat < 2 ^ s.g)

/-- R169: CMP_END in CMP emits the held digits, filled with zero digits up to G, as one byte, or nothing when none are
held; BITCOUNT is not changed. -/
def Obligations.CmpEndResult : Prop :=
  ∀ s : State, s.phase = .cmp → s.pcnt.toNat < s.g →
    (s.pcnt = 0 → exec .cmpEnd s = .next { s with phase := .ready, resps := s.resps ++ [answered 0] }) ∧
    (s.pcnt ≠ 0 →
      exec .cmpEnd s = .next { s with
        out := s.out ++ [s.pbuf <<< (s.g - s.pcnt.toNat)]
        pbuf := 0
        pcnt := 0
        phase := .ready
        resps := s.resps ++ [answered 1] } ∧
      packedDigits s.g (s.pbuf <<< (s.g - s.pcnt.toNat)) =
        packedDigits s.pcnt.toNat s.pbuf ++ List.replicate (s.g - s.pcnt.toNat) false)

/-- R171: DCMPB b in DCMP walks the first min(G, UREM) digits of the byte, spends one unit of UREM for each, and answers
the number of symbols emitted (with UREM = 0 it does nothing). When one of these digits raises, the digits before it are
walked and counted, and it and the rest of the byte are not. Nothing but OUT, WP, UREM (and ERR, when it raises) changes:
PBUF, PCNT and BITCOUNT stay. -/
def Obligations.DcmpbResult : Prop :=
  (∀ (s : State) (b : Byte) (t : State), s.phase = .dcmp →
    walkDigits ((packedDigits s.g b).take (min s.g s.urem.toNat)) s = .ok t →
    exec (.dcmpb b) s = .next { s with
      out := t.out
      wp := t.wp
      urem := s.urem - BitVec.ofNat 48 (min s.g s.urem.toNat)
      resps := s.resps ++ [answered (BitVec.ofNat 48 (t.out.length - s.out.length))] }) ∧
  ∀ (s : State) (b : Byte) (ds es : List Bool) (d : Bool) (t : State), s.phase = .dcmp →
    (packedDigits s.g b).take (min s.g s.urem.toNat) = ds ++ d :: es → walkDigits ds s = .ok t →
    walk t d = .raised .streamCorruption t →
    exec (.dcmpb b) s = .next { s with
      out := t.out
      wp := t.wp
      urem := s.urem - BitVec.ofNat 48 ds.length
      err := if s.err = none then some .streamCorruption else s.err
      resps := s.resps ++ [failed .streamCorruption] }

/-- R171: DCMPB completes from every state that keeps the invariant, and on a tree with internal nodes it raises
nothing. -/
def Obligations.DcmpbCompletes : Prop :=
  ∀ (s : State) (b : Byte), Inv s → s.phase = .dcmp →
    ∃ t, exec (.dcmpb b) s = .next t ∧ t.phase = .dcmp ∧
      (isLeaf s.root = false → t.err = s.err ∧ ∃ v, t.resps = s.resps ++ [answered v])

/-- R171, decision D24: with G = 7, bit 7 of the byte is never looked at. -/
def Obligations.DcmpbIgnoresBitSeven : Prop :=
  ∀ (s : State) (b c : Byte), s.g = 7 → b.extractLsb' 0 7 = c.extractLsb' 0 7 →
    exec (.dcmpb b) s = exec (.dcmpb c) s

/-- R172: DCMP_END in DCMP closes the stream and returns the walk to ROOT; off the root, or with UREM not 0, it raises
STREAM_CORRUPTION. UREM keeps its value. -/
def Obligations.DcmpEndResult : Prop :=
  ∀ s : State, s.phase = .dcmp →
    (s.wp = s.root → s.urem = 0 →
      exec .dcmpEnd s = .next { s with phase := .ready, resps := s.resps ++ [answered 0] }) ∧
    (s.wp ≠ s.root ∨ s.urem ≠ 0 → exec .dcmpEnd s = .next { s with
      phase := .ready
      wp := s.root
      err := if s.err = none then some .streamCorruption else s.err
      resps := s.resps ++ [failed .streamCorruption] })

/-- R173: the packed round trip, for G = 7 and G = 8. In READY, the bytes that a compress stream emits for counted
symbols, fed to a decompress stream with BITCOUNT as compress left it, make it emit exactly those symbols, and no command
of it raises. The total length fits BITCOUNT. -/
def Obligations.PackedRoundTrip : Prop :=
  ∀ (s : State) (bs : List Sym), Inv s → s.phase = .ready → (∀ b ∈ bs, s.ftAt b ≠ 0) →
    (bs.map fun b => (s.codeWord b).length).sum < 2 ^ s.cfg.bitcountBits →
    ∃ (t u : State) (packed : List Byte),
      runCommands (.cmpStart :: bs.map .cmps ++ [.cmpEnd]) s = .next t ∧ t.out = s.out ++ packed ∧
      t.bitcount.toNat = (bs.map fun b => (s.codeWord b).length).sum ∧
      runCommands (.dcmpStart :: packed.map .dcmpb ++ [.dcmpEnd]) t = .next u ∧ u.out = t.out ++ bs ∧
      u.err = s.err ∧ (∀ r ∈ u.resps.drop s.resps.length, r.err = none) ∧ u.phase = .ready
end

