-- ==== Sys2Proof/Laws/State.lean ====
section
/-! SUPPORT. The small lemmas of the state: one per field and update, so that no later proof unfolds a record update. -/

namespace Sys2Proof.Machine

open Sys2Proof

/-! ### s.emit b -/

@[simp] theorem emit_phase (s : State) (b : Byte) : (s.emit b).phase = s.phase := rfl
@[simp] theorem emit_err (s : State) (b : Byte) : (s.emit b).err = s.err := rfl
@[simp] theorem emit_total (s : State) (b : Byte) : (s.emit b).total = s.total := rfl
@[simp] theorem emit_ft (s : State) (b : Byte) : (s.emit b).ft = s.ft := rfl
@[simp] theorem emit_nm (s : State) (b : Byte) : (s.emit b).nm = s.nm := rfl
@[simp] theorem emit_root (s : State) (b : Byte) : (s.emit b).root = s.root := rfl
@[simp] theorem emit_ct (s : State) (b : Byte) : (s.emit b).ct = s.ct := rfl
@[simp] theorem emit_hq0 (s : State) (b : Byte) : (s.emit b).hq0 = s.hq0 := rfl
@[simp] theorem emit_hq1 (s : State) (b : Byte) : (s.emit b).hq1 = s.hq1 := rfl
@[simp] theorem emit_qitb (s : State) (b : Byte) : (s.emit b).qitb = s.qitb := rfl
@[simp] theorem emit_qitk (s : State) (b : Byte) : (s.emit b).qitk = s.qitk := rfl
@[simp] theorem emit_wp (s : State) (b : Byte) : (s.emit b).wp = s.wp := rfl
@[simp] theorem emit_pbuf (s : State) (b : Byte) : (s.emit b).pbuf = s.pbuf := rfl
@[simp] theorem emit_pcnt (s : State) (b : Byte) : (s.emit b).pcnt = s.pcnt := rfl
@[simp] theorem emit_bitcount (s : State) (b : Byte) : (s.emit b).bitcount = s.bitcount := rfl
@[simp] theorem emit_urem (s : State) (b : Byte) : (s.emit b).urem = s.urem := rfl
@[simp] theorem emit_out (s : State) (b : Byte) : (s.emit b).out = s.out ++ [b] := rfl
@[simp] theorem emit_resps (s : State) (b : Byte) : (s.emit b).resps = s.resps := rfl
@[simp] theorem emit_port (s : State) (b : Byte) : (s.emit b).port = s.port := rfl
@[simp] theorem emit_cfg (s : State) (b : Byte) : (s.emit b).cfg = s.cfg := rfl
@[simp] theorem emit_draws (s : State) (b : Byte) : (s.emit b).draws = s.draws := rfl
@[simp] theorem emit_iter (s : State) (b : Byte) : (s.emit b).iter = s.iter := rfl

/-! ### s.respond v -/

@[simp] theorem respond_phase (s : State) (v : Val) : (s.respond v).phase = s.phase := rfl
@[simp] theorem respond_err (s : State) (v : Val) : (s.respond v).err = s.err := rfl
@[simp] theorem respond_total (s : State) (v : Val) : (s.respond v).total = s.total := rfl
@[simp] theorem respond_ft (s : State) (v : Val) : (s.respond v).ft = s.ft := rfl
@[simp] theorem respond_nm (s : State) (v : Val) : (s.respond v).nm = s.nm := rfl
@[simp] theorem respond_root (s : State) (v : Val) : (s.respond v).root = s.root := rfl
@[simp] theorem respond_ct (s : State) (v : Val) : (s.respond v).ct = s.ct := rfl
@[simp] theorem respond_hq0 (s : State) (v : Val) : (s.respond v).hq0 = s.hq0 := rfl
@[simp] theorem respond_hq1 (s : State) (v : Val) : (s.respond v).hq1 = s.hq1 := rfl
@[simp] theorem respond_qitb (s : State) (v : Val) : (s.respond v).qitb = s.qitb := rfl
@[simp] theorem respond_qitk (s : State) (v : Val) : (s.respond v).qitk = s.qitk := rfl
@[simp] theorem respond_wp (s : State) (v : Val) : (s.respond v).wp = s.wp := rfl
@[simp] theorem respond_pbuf (s : State) (v : Val) : (s.respond v).pbuf = s.pbuf := rfl
@[simp] theorem respond_pcnt (s : State) (v : Val) : (s.respond v).pcnt = s.pcnt := rfl
@[simp] theorem respond_bitcount (s : State) (v : Val) : (s.respond v).bitcount = s.bitcount := rfl
@[simp] theorem respond_urem (s : State) (v : Val) : (s.respond v).urem = s.urem := rfl
@[simp] theorem respond_out (s : State) (v : Val) : (s.respond v).out = s.out := rfl
@[simp] theorem respond_resps (s : State) (v : Val) : (s.respond v).resps = s.resps ++ [Response.mk none false v] := rfl
@[simp] theorem respond_port (s : State) (v : Val) : (s.respond v).port = s.port := rfl
@[simp] theorem respond_cfg (s : State) (v : Val) : (s.respond v).cfg = s.cfg := rfl
@[simp] theorem respond_draws (s : State) (v : Val) : (s.respond v).draws = s.draws := rfl
@[simp] theorem respond_iter (s : State) (v : Val) : (s.respond v).iter = s.iter := rfl

/-! ### s.respondDone -/

@[simp] theorem respondDone_phase (s : State) : (s.respondDone).phase = s.phase := rfl
@[simp] theorem respondDone_err (s : State) : (s.respondDone).err = s.err := rfl
@[simp] theorem respondDone_total (s : State) : (s.respondDone).total = s.total := rfl
@[simp] theorem respondDone_ft (s : State) : (s.respondDone).ft = s.ft := rfl
@[simp] theorem respondDone_nm (s : State) : (s.respondDone).nm = s.nm := rfl
@[simp] theorem respondDone_root (s : State) : (s.respondDone).root = s.root := rfl
@[simp] theorem respondDone_ct (s : State) : (s.respondDone).ct = s.ct := rfl
@[simp] theorem respondDone_hq0 (s : State) : (s.respondDone).hq0 = s.hq0 := rfl
@[simp] theorem respondDone_hq1 (s : State) : (s.respondDone).hq1 = s.hq1 := rfl
@[simp] theorem respondDone_qitb (s : State) : (s.respondDone).qitb = s.qitb := rfl
@[simp] theorem respondDone_qitk (s : State) : (s.respondDone).qitk = s.qitk := rfl
@[simp] theorem respondDone_wp (s : State) : (s.respondDone).wp = s.wp := rfl
@[simp] theorem respondDone_pbuf (s : State) : (s.respondDone).pbuf = s.pbuf := rfl
@[simp] theorem respondDone_pcnt (s : State) : (s.respondDone).pcnt = s.pcnt := rfl
@[simp] theorem respondDone_bitcount (s : State) : (s.respondDone).bitcount = s.bitcount := rfl
@[simp] theorem respondDone_urem (s : State) : (s.respondDone).urem = s.urem := rfl
@[simp] theorem respondDone_out (s : State) : (s.respondDone).out = s.out := rfl
@[simp] theorem respondDone_resps (s : State) : (s.respondDone).resps = s.resps ++ [Response.mk none true 0] := rfl
@[simp] theorem respondDone_port (s : State) : (s.respondDone).port = s.port := rfl
@[simp] theorem respondDone_cfg (s : State) : (s.respondDone).cfg = s.cfg := rfl
@[simp] theorem respondDone_draws (s : State) : (s.respondDone).draws = s.draws := rfl
@[simp] theorem respondDone_iter (s : State) : (s.respondDone).iter = s.iter := rfl

/-! ### s.raise e -/

@[simp] theorem raise_phase (s : State) (e : Err) : (s.raise e).phase = s.phase := rfl
@[simp] theorem raise_err (s : State) (e : Err) : (s.raise e).err = if s.err = none then some e else s.err := rfl
@[simp] theorem raise_total (s : State) (e : Err) : (s.raise e).total = s.total := rfl
@[simp] theorem raise_ft (s : State) (e : Err) : (s.raise e).ft = s.ft := rfl
@[simp] theorem raise_nm (s : State) (e : Err) : (s.raise e).nm = s.nm := rfl
@[simp] theorem raise_root (s : State) (e : Err) : (s.raise e).root = s.root := rfl
@[simp] theorem raise_ct (s : State) (e : Err) : (s.raise e).ct = s.ct := rfl
@[simp] theorem raise_hq0 (s : State) (e : Err) : (s.raise e).hq0 = s.hq0 := rfl
@[simp] theorem raise_hq1 (s : State) (e : Err) : (s.raise e).hq1 = s.hq1 := rfl
@[simp] theorem raise_qitb (s : State) (e : Err) : (s.raise e).qitb = s.qitb := rfl
@[simp] theorem raise_qitk (s : State) (e : Err) : (s.raise e).qitk = s.qitk := rfl
@[simp] theorem raise_wp (s : State) (e : Err) : (s.raise e).wp = s.wp := rfl
@[simp] theorem raise_pbuf (s : State) (e : Err) : (s.raise e).pbuf = s.pbuf := rfl
@[simp] theorem raise_pcnt (s : State) (e : Err) : (s.raise e).pcnt = s.pcnt := rfl
@[simp] theorem raise_bitcount (s : State) (e : Err) : (s.raise e).bitcount = s.bitcount := rfl
@[simp] theorem raise_urem (s : State) (e : Err) : (s.raise e).urem = s.urem := rfl
@[simp] theorem raise_out (s : State) (e : Err) : (s.raise e).out = s.out := rfl
@[simp] theorem raise_resps (s : State) (e : Err) : (s.raise e).resps = s.resps ++ [Response.mk (some e) false 0] := rfl
@[simp] theorem raise_port (s : State) (e : Err) : (s.raise e).port = s.port := rfl
@[simp] theorem raise_cfg (s : State) (e : Err) : (s.raise e).cfg = s.cfg := rfl
@[simp] theorem raise_draws (s : State) (e : Err) : (s.raise e).draws = s.draws := rfl
@[simp] theorem raise_iter (s : State) (e : Err) : (s.raise e).iter = s.iter := rfl

/-! ### s.setFt b v -/

@[simp] theorem setFt_phase (s : State) (b : Sym) (v : Weight) : (s.setFt b v).phase = s.phase := rfl
@[simp] theorem setFt_err (s : State) (b : Sym) (v : Weight) : (s.setFt b v).err = s.err := rfl
@[simp] theorem setFt_total (s : State) (b : Sym) (v : Weight) : (s.setFt b v).total = s.total := rfl
@[simp] theorem setFt_ft (s : State) (b : Sym) (v : Weight) : (s.setFt b v).ft = s.ft.set b.toNat v b.isLt := rfl
@[simp] theorem setFt_nm (s : State) (b : Sym) (v : Weight) : (s.setFt b v).nm = s.nm := rfl
@[simp] theorem setFt_root (s : State) (b : Sym) (v : Weight) : (s.setFt b v).root = s.root := rfl
@[simp] theorem setFt_ct (s : State) (b : Sym) (v : Weight) : (s.setFt b v).ct = s.ct := rfl
@[simp] theorem setFt_hq0 (s : State) (b : Sym) (v : Weight) : (s.setFt b v).hq0 = s.hq0 := rfl
@[simp] theorem setFt_hq1 (s : State) (b : Sym) (v : Weight) : (s.setFt b v).hq1 = s.hq1 := rfl
@[simp] theorem setFt_qitb (s : State) (b : Sym) (v : Weight) : (s.setFt b v).qitb = s.qitb := rfl
@[simp] theorem setFt_qitk (s : State) (b : Sym) (v : Weight) : (s.setFt b v).qitk = s.qitk := rfl
@[simp] theorem setFt_wp (s : State) (b : Sym) (v : Weight) : (s.setFt b v).wp = s.wp := rfl
@[simp] theorem setFt_pbuf (s : State) (b : Sym) (v : Weight) : (s.setFt b v).pbuf = s.pbuf := rfl
@[simp] theorem setFt_pcnt (s : State) (b : Sym) (v : Weight) : (s.setFt b v).pcnt = s.pcnt := rfl
@[simp] theorem setFt_bitcount (s : State) (b : Sym) (v : Weight) : (s.setFt b v).bitcount = s.bitcount := rfl
@[simp] theorem setFt_urem (s : State) (b : Sym) (v : Weight) : (s.setFt b v).urem = s.urem := rfl
@[simp] theorem setFt_out (s : State) (b : Sym) (v : Weight) : (s.setFt b v).out = s.out := rfl
@[simp] theorem setFt_resps (s : State) (b : Sym) (v : Weight) : (s.setFt b v).resps = s.resps := rfl
@[simp] theorem setFt_port (s : State) (b : Sym) (v : Weight) : (s.setFt b v).port = s.port := rfl
@[simp] theorem setFt_cfg (s : State) (b : Sym) (v : Weight) : (s.setFt b v).cfg = s.cfg := rfl
@[simp] theorem setFt_draws (s : State) (b : Sym) (v : Weight) : (s.setFt b v).draws = s.draws := rfl
@[simp] theorem setFt_iter (s : State) (b : Sym) (v : Weight) : (s.setFt b v).iter = s.iter := rfl

/-! ### s.setBitcount n -/

@[simp] theorem setBitcount_phase (s : State) (n : Nat) : (s.setBitcount n).phase = s.phase := rfl
@[simp] theorem setBitcount_err (s : State) (n : Nat) : (s.setBitcount n).err = s.err := rfl
@[simp] theorem setBitcount_total (s : State) (n : Nat) : (s.setBitcount n).total = s.total := rfl
@[simp] theorem setBitcount_ft (s : State) (n : Nat) : (s.setBitcount n).ft = s.ft := rfl
@[simp] theorem setBitcount_nm (s : State) (n : Nat) : (s.setBitcount n).nm = s.nm := rfl
@[simp] theorem setBitcount_root (s : State) (n : Nat) : (s.setBitcount n).root = s.root := rfl
@[simp] theorem setBitcount_ct (s : State) (n : Nat) : (s.setBitcount n).ct = s.ct := rfl
@[simp] theorem setBitcount_hq0 (s : State) (n : Nat) : (s.setBitcount n).hq0 = s.hq0 := rfl
@[simp] theorem setBitcount_hq1 (s : State) (n : Nat) : (s.setBitcount n).hq1 = s.hq1 := rfl
@[simp] theorem setBitcount_qitb (s : State) (n : Nat) : (s.setBitcount n).qitb = s.qitb := rfl
@[simp] theorem setBitcount_qitk (s : State) (n : Nat) : (s.setBitcount n).qitk = s.qitk := rfl
@[simp] theorem setBitcount_wp (s : State) (n : Nat) : (s.setBitcount n).wp = s.wp := rfl
@[simp] theorem setBitcount_pbuf (s : State) (n : Nat) : (s.setBitcount n).pbuf = s.pbuf := rfl
@[simp] theorem setBitcount_pcnt (s : State) (n : Nat) : (s.setBitcount n).pcnt = s.pcnt := rfl
@[simp] theorem setBitcount_bitcount (s : State) (n : Nat) : (s.setBitcount n).bitcount = inBitcount s.cfg.bitcountBits n :=
  rfl
@[simp] theorem setBitcount_urem (s : State) (n : Nat) : (s.setBitcount n).urem = s.urem := rfl
@[simp] theorem setBitcount_out (s : State) (n : Nat) : (s.setBitcount n).out = s.out := rfl
@[simp] theorem setBitcount_resps (s : State) (n : Nat) : (s.setBitcount n).resps = s.resps := rfl
@[simp] theorem setBitcount_port (s : State) (n : Nat) : (s.setBitcount n).port = s.port := rfl
@[simp] theorem setBitcount_cfg (s : State) (n : Nat) : (s.setBitcount n).cfg = s.cfg := rfl
@[simp] theorem setBitcount_draws (s : State) (n : Nat) : (s.setBitcount n).draws = s.draws := rfl
@[simp] theorem setBitcount_iter (s : State) (n : Nat) : (s.setBitcount n).iter = s.iter := rfl

/-- A number that fits BITCOUNT is kept (R36). -/
theorem inBitcount_fits {bits n : Nat} (h : n < 2 ^ min bits 48) : (inBitcount bits n).toNat = n := by
  have h1 : 2 ^ min bits 48 ≤ 2 ^ bits := Nat.pow_le_pow_right (by decide) (Nat.min_le_left _ _)
  have h2 : 2 ^ min bits 48 ≤ 2 ^ 48 := Nat.pow_le_pow_right (by decide) (Nat.min_le_right _ _)
  rw [inBitcount, if_pos (lt_of_lt_of_le h h1), BitVec.toNat_ofNat, Nat.mod_eq_of_lt (by omega)]

/-- Whatever is written, BITCOUNT holds a number of its width (R36). -/
theorem inBitcount_lt (bits n : Nat) : (inBitcount bits n).toNat < 2 ^ bits := by
  refine lt_of_le_of_lt (BitVec.toNat_ofNat _ _ ▸ Nat.mod_le _ _) ?_
  split
  · assumption
  · exact Nat.mod_lt _ (Nat.two_pow_pos bits)

/-- What an iteration mark is after a write of its bank, said once for every value. -/
theorem disturb_eq_valid (m : IterMark) : m.disturb ≠ .valid := by cases m <;> decide

/-! ### s.cleared -/

@[simp] theorem cleared_phase (s : State) : (s.cleared).phase = .count := rfl
@[simp] theorem cleared_err (s : State) : (s.cleared).err = none := rfl
@[simp] theorem cleared_total (s : State) : (s.cleared).total = 0 := rfl
@[simp] theorem cleared_ft (s : State) : (s.cleared).ft = Vector.replicate 256 0 := rfl
@[simp] theorem cleared_nm (s : State) : (s.cleared).nm = [] := rfl
@[simp] theorem cleared_root (s : State) : (s.cleared).root = nilRef := rfl
@[simp] theorem cleared_ct (s : State) : (s.cleared).ct = Vector.replicate 256 (Code.mk 0 0) := rfl
@[simp] theorem cleared_hq0 (s : State) : (s.cleared).hq0 = [] := rfl
@[simp] theorem cleared_hq1 (s : State) : (s.cleared).hq1 = [] := rfl
@[simp] theorem cleared_qitb (s : State) : (s.cleared).qitb = 0 := rfl
@[simp] theorem cleared_qitk (s : State) : (s.cleared).qitk = 1 := rfl
@[simp] theorem cleared_wp (s : State) : (s.cleared).wp = nilRef := rfl
@[simp] theorem cleared_pbuf (s : State) : (s.cleared).pbuf = 0 := rfl
@[simp] theorem cleared_pcnt (s : State) : (s.cleared).pcnt = 0 := rfl
@[simp] theorem cleared_bitcount (s : State) : (s.cleared).bitcount = 0 := rfl
@[simp] theorem cleared_urem (s : State) : (s.cleared).urem = 0 := rfl
@[simp] theorem cleared_out (s : State) : (s.cleared).out = s.out := rfl
@[simp] theorem cleared_resps (s : State) : (s.cleared).resps = s.resps := rfl
@[simp] theorem cleared_port (s : State) : (s.cleared).port = s.port := rfl
@[simp] theorem cleared_cfg (s : State) : (s.cleared).cfg = s.cfg := rfl
@[simp] theorem cleared_draws (s : State) : (s.cleared).draws = s.draws := rfl
@[simp] theorem cleared_iter (s : State) : (s.cleared).iter = s.iter.disturb := rfl

/-! ### s.hardReset -/

@[simp] theorem hardReset_phase (s : State) : (s.hardReset).phase = .count := rfl
@[simp] theorem hardReset_err (s : State) : (s.hardReset).err = none := rfl
@[simp] theorem hardReset_total (s : State) : (s.hardReset).total = 0 := rfl
@[simp] theorem hardReset_ft (s : State) : (s.hardReset).ft = Vector.replicate 256 0 := rfl
@[simp] theorem hardReset_nm (s : State) : (s.hardReset).nm = [] := rfl
@[simp] theorem hardReset_root (s : State) : (s.hardReset).root = nilRef := rfl
@[simp] theorem hardReset_ct (s : State) : (s.hardReset).ct = Vector.replicate 256 (Code.mk 0 0) := rfl
@[simp] theorem hardReset_hq0 (s : State) : (s.hardReset).hq0 = [] := rfl
@[simp] theorem hardReset_hq1 (s : State) : (s.hardReset).hq1 = [] := rfl
@[simp] theorem hardReset_qitb (s : State) : (s.hardReset).qitb = 0 := rfl
@[simp] theorem hardReset_qitk (s : State) : (s.hardReset).qitk = 1 := rfl
@[simp] theorem hardReset_wp (s : State) : (s.hardReset).wp = nilRef := rfl
@[simp] theorem hardReset_pbuf (s : State) : (s.hardReset).pbuf = 0 := rfl
@[simp] theorem hardReset_pcnt (s : State) : (s.hardReset).pcnt = 0 := rfl
@[simp] theorem hardReset_bitcount (s : State) : (s.hardReset).bitcount = 0 := rfl
@[simp] theorem hardReset_urem (s : State) : (s.hardReset).urem = 0 := rfl
@[simp] theorem hardReset_out (s : State) : (s.hardReset).out = [] := rfl
@[simp] theorem hardReset_resps (s : State) : (s.hardReset).resps = [] := rfl
@[simp] theorem hardReset_port (s : State) : (s.hardReset).port = s.port := rfl
@[simp] theorem hardReset_cfg (s : State) : (s.hardReset).cfg = s.cfg := rfl
@[simp] theorem hardReset_draws (s : State) : (s.hardReset).draws = s.draws := rfl
@[simp] theorem hardReset_iter (s : State) : (s.hardReset).iter = .fresh := rfl

/-! ### s.present w -/

@[simp] theorem present_phase (s : State) (w : Word64) : (s.present w).phase = s.phase := rfl
@[simp] theorem present_err (s : State) (w : Word64) : (s.present w).err = s.err := rfl
@[simp] theorem present_total (s : State) (w : Word64) : (s.present w).total = s.total := rfl
@[simp] theorem present_ft (s : State) (w : Word64) : (s.present w).ft = s.ft := rfl
@[simp] theorem present_nm (s : State) (w : Word64) : (s.present w).nm = s.nm := rfl
@[simp] theorem present_root (s : State) (w : Word64) : (s.present w).root = s.root := rfl
@[simp] theorem present_ct (s : State) (w : Word64) : (s.present w).ct = s.ct := rfl
@[simp] theorem present_hq0 (s : State) (w : Word64) : (s.present w).hq0 = s.hq0 := rfl
@[simp] theorem present_hq1 (s : State) (w : Word64) : (s.present w).hq1 = s.hq1 := rfl
@[simp] theorem present_qitb (s : State) (w : Word64) : (s.present w).qitb = s.qitb := rfl
@[simp] theorem present_qitk (s : State) (w : Word64) : (s.present w).qitk = s.qitk := rfl
@[simp] theorem present_wp (s : State) (w : Word64) : (s.present w).wp = s.wp := rfl
@[simp] theorem present_pbuf (s : State) (w : Word64) : (s.present w).pbuf = s.pbuf := rfl
@[simp] theorem present_pcnt (s : State) (w : Word64) : (s.present w).pcnt = s.pcnt := rfl
@[simp] theorem present_bitcount (s : State) (w : Word64) : (s.present w).bitcount = s.bitcount := rfl
@[simp] theorem present_urem (s : State) (w : Word64) : (s.present w).urem = s.urem := rfl
@[simp] theorem present_out (s : State) (w : Word64) : (s.present w).out = s.out := rfl
@[simp] theorem present_resps (s : State) (w : Word64) : (s.present w).resps = s.resps := rfl
@[simp] theorem present_port (s : State) (w : Word64) : (s.present w).port = HostEvent.command w :: s.port := rfl
@[simp] theorem present_cfg (s : State) (w : Word64) : (s.present w).cfg = s.cfg := rfl
@[simp] theorem present_draws (s : State) (w : Word64) : (s.present w).draws = s.draws := rfl
@[simp] theorem present_iter (s : State) (w : Word64) : (s.present w).iter = s.iter := rfl

/-! ### s.setBank q h -/

@[simp] theorem setBank_phase (s : State) (q : Bank) (h : List Entry) : (s.setBank q h).phase = s.phase := by
  unfold State.setBank; split <;> simp_all
@[simp] theorem setBank_err (s : State) (q : Bank) (h : List Entry) : (s.setBank q h).err = s.err := by
  unfold State.setBank; split <;> simp_all
@[simp] theorem setBank_total (s : State) (q : Bank) (h : List Entry) : (s.setBank q h).total = s.total := by
  unfold State.setBank; split <;> simp_all
@[simp] theorem setBank_ft (s : State) (q : Bank) (h : List Entry) : (s.setBank q h).ft = s.ft := by
  unfold State.setBank; split <;> simp_all
@[simp] theorem setBank_nm (s : State) (q : Bank) (h : List Entry) : (s.setBank q h).nm = s.nm := by
  unfold State.setBank; split <;> simp_all
@[simp] theorem setBank_root (s : State) (q : Bank) (h : List Entry) : (s.setBank q h).root = s.root := by
  unfold State.setBank; split <;> simp_all
@[simp] theorem setBank_ct (s : State) (q : Bank) (h : List Entry) : (s.setBank q h).ct = s.ct := by
  unfold State.setBank; split <;> simp_all
@[simp] theorem setBank_hq0 (s : State) (q : Bank) (h : List Entry) : (s.setBank q h).hq0 = if q = 0 then h else s.hq0 := by
  unfold State.setBank; split <;> simp_all
@[simp] theorem setBank_hq1 (s : State) (q : Bank) (h : List Entry) : (s.setBank q h).hq1 = if q = 0 then s.hq1 else h := by
  unfold State.setBank; split <;> simp_all
@[simp] theorem setBank_qitb (s : State) (q : Bank) (h : List Entry) : (s.setBank q h).qitb = s.qitb := by
  unfold State.setBank; split <;> simp_all
@[simp] theorem setBank_qitk (s : State) (q : Bank) (h : List Entry) : (s.setBank q h).qitk = s.qitk := by
  unfold State.setBank; split <;> simp_all
@[simp] theorem setBank_wp (s : State) (q : Bank) (h : List Entry) : (s.setBank q h).wp = s.wp := by
  unfold State.setBank; split <;> simp_all
@[simp] theorem setBank_pbuf (s : State) (q : Bank) (h : List Entry) : (s.setBank q h).pbuf = s.pbuf := by
  unfold State.setBank; split <;> simp_all
@[simp] theorem setBank_pcnt (s : State) (q : Bank) (h : List Entry) : (s.setBank q h).pcnt = s.pcnt := by
  unfold State.setBank; split <;> simp_all
@[simp] theorem setBank_bitcount (s : State) (q : Bank) (h : List Entry) : (s.setBank q h).bitcount = s.bitcount := by
  unfold State.setBank; split <;> simp_all
@[simp] theorem setBank_urem (s : State) (q : Bank) (h : List Entry) : (s.setBank q h).urem = s.urem := by
  unfold State.setBank; split <;> simp_all
@[simp] theorem setBank_out (s : State) (q : Bank) (h : List Entry) : (s.setBank q h).out = s.out := by
  unfold State.setBank; split <;> simp_all
@[simp] theorem setBank_resps (s : State) (q : Bank) (h : List Entry) : (s.setBank q h).resps = s.resps := by
  unfold State.setBank; split <;> simp_all
@[simp] theorem setBank_port (s : State) (q : Bank) (h : List Entry) : (s.setBank q h).port = s.port := by
  unfold State.setBank; split <;> simp_all
@[simp] theorem setBank_cfg (s : State) (q : Bank) (h : List Entry) : (s.setBank q h).cfg = s.cfg := by
  unfold State.setBank; split <;> simp_all
@[simp] theorem setBank_draws (s : State) (q : Bank) (h : List Entry) : (s.setBank q h).draws = s.draws := by
  unfold State.setBank; split <;> simp_all

/-- A bank number is 0 or 1. -/
theorem bank_cases (q : Bank) : q = 0 ∨ q = 1 := by
  revert q; decide

@[simp] theorem setBank_iter (s : State) (q : Bank) (h : List Entry) :
    (s.setBank q h).iter = if s.qitb = q then s.iter.disturb else s.iter := by
  rcases bank_cases q with rfl | rfl <;> rfl

@[simp] theorem setBank_bank_self (s : State) (q : Bank) (h : List Entry) : (s.setBank q h).bank q = h := by
  unfold State.bank; split <;> simp_all

theorem setBank_bank_other (s : State) (q p : Bank) (h : List Entry) (hp : p ≠ q) :
    (s.setBank q h).bank p = s.bank p := by
  unfold State.bank
  rcases bank_cases q with rfl | rfl <;> rcases bank_cases p with rfl | rfl <;> simp_all

/-- The other bank is another bank. -/
theorem other_bank_ne (q : Bank) : 1 - q ≠ q := by
  revert q; decide

/-! ### Reset values -/

@[simp] theorem reset_phase : State.reset.phase = .count := rfl
@[simp] theorem reset_err : State.reset.err = none := rfl
@[simp] theorem reset_total : State.reset.total = 0 := rfl
@[simp] theorem reset_ft : State.reset.ft = Vector.replicate 256 0 := rfl
@[simp] theorem reset_nm : State.reset.nm = [] := rfl
@[simp] theorem reset_root : State.reset.root = nilRef := rfl
@[simp] theorem reset_ct : State.reset.ct = Vector.replicate 256 (Code.mk 0 0) := rfl
@[simp] theorem reset_hq0 : State.reset.hq0 = [] := rfl
@[simp] theorem reset_hq1 : State.reset.hq1 = [] := rfl
@[simp] theorem reset_qitb : State.reset.qitb = 0 := rfl
@[simp] theorem reset_qitk : State.reset.qitk = 1 := rfl
@[simp] theorem reset_wp : State.reset.wp = nilRef := rfl
@[simp] theorem reset_pbuf : State.reset.pbuf = 0 := rfl
@[simp] theorem reset_pcnt : State.reset.pcnt = 0 := rfl
@[simp] theorem reset_bitcount : State.reset.bitcount = 0 := rfl
@[simp] theorem reset_urem : State.reset.urem = 0 := rfl
@[simp] theorem reset_out : State.reset.out = [] := rfl
@[simp] theorem reset_resps : State.reset.resps = [] := rfl
@[simp] theorem reset_port : State.reset.port = [] := rfl
@[simp] theorem reset_cfg : State.reset.cfg = Config.default := rfl
@[simp] theorem reset_draws : State.reset.draws = 0 := rfl
@[simp] theorem reset_iter : State.reset.iter = .fresh := rfl

end Sys2Proof.Machine
end

