-- ==== Sys2Proof/Laws/Codes.lean ====
section
/-! SUPPORT. Digit sequences in registers: what the CT layout of spec/10_state.md R29 reads back. -/

namespace Sys2Proof.Machine

open Sys2Proof

theorem codeOf_append (ds : List Bool) (d : Bool) :
    (codeOf (ds ++ [d])).code = (codeOf ds).code <<< 1 ||| digitBit d := by
  simp [codeOf, List.foldl_append]

theorem digitBit_getLsbD (d : Bool) (j : Nat) : (digitBit d).getLsbD j = (decide (j = 0) && d) := by
  cases d <;> cases j <;> simp [digitBit, BitVec.getLsbD_one]

/-- Digit `c[i]` is bit `len - 1 - i`, and bits `len` and above are 0 (R29). -/
theorem codeOf_getLsbD (ds : List Bool) (h : ds.length ≤ 255) (j : Nat) :
    (codeOf ds).code.getLsbD j = if j < ds.length then ds.reverse.getD j false else false := by
  induction ds using List.reverseRecOn generalizing j with
  | nil => simp [codeOf]
  | append_singleton ds d ih =>
    have h' : ds.length ≤ 255 := by simp at h; omega
    rw [codeOf_append, BitVec.getLsbD_or, digitBit_getLsbD, BitVec.getLsbD_shiftLeft]
    cases j with
    | zero => simp
    | succ j =>
      have hlt : ds.length < 255 := by simp at h; omega
      simp only [Nat.add_sub_cancel, ih h', List.length_append, List.length_singleton]
      by_cases hj : j < ds.length
      · have : j + 1 < 255 := by omega
        simp [hj, this, List.getD]
      · simp [hj]

theorem codeOf_len (ds : List Bool) (h : ds.length ≤ 255) : (codeOf ds).len.toNat = ds.length := by
  simp [codeOf]; omega

/-- A digit sequence of at most 255 digits reads back from the CT layout as it was written. -/
theorem digits_codeOf (ds : List Bool) (h : ds.length ≤ 255) : Code.digits (codeOf ds) = ds := by
  apply List.ext_getElem
  · simp [Code.digits, codeOf_len ds h]
  · intro i h1 h2
    have hl := codeOf_len ds h
    simp only [Code.digits, List.getElem_map, List.getElem_range, hl, codeOf_getLsbD ds h]
    have hi : i < ds.length := h2
    have : ds.length - 1 - i < ds.length := by omega
    simp only [this, if_true, List.getD_eq_getElem?_getD]
    rw [List.getElem?_reverse this]
    have e : ds.length - 1 - (ds.length - 1 - i) = i := by omega
    simp [e, hi]

@[simp] theorem digits_codeOf_nil : Code.digits (codeOf []) = [] := digits_codeOf [] (by simp)

theorem codeWord_def (s : State) (b : Sym) : s.codeWord b = Code.digits (s.ct[b.toNat]'b.isLt) := rfl

/-- A code word has at most 255 digits (R88). -/
theorem codeWord_length (s : State) (b : Sym) : (s.codeWord b).length ≤ 255 := by
  have := (s.ctAt b).len.isLt
  simp only [State.codeWord, Code.digits, List.length_map, List.length_range]
  omega

theorem packedDigits_length (g : Nat) (b : Byte) : (packedDigits g b).length = g := by
  simp [packedDigits]

end Sys2Proof.Machine
end

