-- ==== Sys2Proof/Laws/Queue.lean ====
section
/-! SUPPORT. What the queue's procedures do (spec/41_queue.md R111 to R115): one specification lemma each for slot,
swap, swim, sink, Insert and ExtractMin. They say that the procedure answers on every bank, what it keeps (the multiset
of entries), and that it restores heap order. -/

namespace Sys2Proof.Machine

open Sys2Proof

/-! ### Slots -/

theorem slot_eq {h : List Entry} {k : Nat} (h1 : 1 ≤ k) (h2 : k ≤ h.length) :
    slot h k = .ok (h[k - 1]'(by omega)) := by
  have : k - 1 < h.length := by omega
  simp [slot, show k ≠ 0 by omega, List.getElem?_eq_getElem this]

/-- A slot that reads is a live one: 1 to QN. -/
theorem slot_bounds {h : List Entry} {k : Nat} {e : Entry} (he : slot h k = .ok e) : 1 ≤ k ∧ k ≤ h.length := by
  unfold slot at he
  split at he
  · cases he
  · split at he
    · rename_i hk _ e' hg
      have := (List.getElem?_eq_some_iff.mp hg).1
      omega
    · cases he

/-- The key in slot `k` as a number, 0 where the slot is not live. -/
def keyAt (h : List Entry) (k : Nat) : Nat :=
  match slot h k with
  | .ok e => e.key.toNat
  | .error _ => 0

theorem keyAt_of_slot {h : List Entry} {k : Nat} {e : Entry} (he : slot h k = .ok e) : keyAt h k = e.key.toNat := by
  simp [keyAt, he]

theorem keyAt_eq {h : List Entry} {k : Nat} (h1 : 1 ≤ k) (h2 : k ≤ h.length) :
    keyAt h k = (h[k - 1]'(by omega)).key.toNat := keyAt_of_slot (slot_eq h1 h2)

/-- Heap order as an order of each slot with its parent. -/
theorem heapOk_iff (h : List Entry) :
    HeapOk h ↔ ∀ c, 2 ≤ c → c ≤ h.length → keyAt h (c / 2) ≤ keyAt h c := by
  constructor
  · intro hh c h1 h2
    have hp := slot_eq (h := h) (k := c / 2) (by omega) (by omega)
    have hc := slot_eq (h := h) (k := c) (by omega) h2
    have := hh (c / 2) c _ _ (by omega) hp hc
    rw [keyAt_of_slot hp, keyAt_of_slot hc]
    exact this
  · intro hh k c a b hkc ha hb
    have h1 := slot_bounds ha
    have h2 := slot_bounds hb
    have := hh c (by omega) h2.2
    rw [show c / 2 = k by omega, keyAt_of_slot ha, keyAt_of_slot hb] at this
    exact this

theorem heapOk_nil : HeapOk [] := by
  rw [heapOk_iff]; intro c h1 h2; simp at h2; omega

/-- `swap` on live slots: it answers, keeps the entries, and exchanges the two keys. -/
theorem swapSlots_spec {h : List Entry} {i j : Nat} (hi : 1 ≤ i) (hi' : i ≤ h.length) (hj : 1 ≤ j)
    (hj' : j ≤ h.length) :
    ∃ h', swapSlots h i j = .ok h' ∧ h'.Perm h ∧ h'.length = h.length ∧
      h' = (h.set (i - 1) (h[j - 1]'(by omega))).set (j - 1) (h[i - 1]'(by omega)) ∧
      ∀ k, keyAt h' k = if k = i then keyAt h j else if k = j then keyAt h i else keyAt h k := by
  have hia : i - 1 < h.length := by omega
  have hja : j - 1 < h.length := by omega
  refine ⟨_, by simp [swapSlots, slot_eq hi hi', slot_eq hj hj', bind, Except.bind], ?_, by simp, rfl, ?_⟩
  · exact List.set_set_perm hia hja
  · intro k
    by_cases hk : 1 ≤ k ∧ k ≤ h.length
    · rw [keyAt_eq hk.1 (by simpa using hk.2), keyAt_eq hi hi', keyAt_eq hj hj', keyAt_eq hk.1 hk.2]
      simp only [List.getElem_set]
      by_cases h1 : k = i
      · subst h1
        by_cases h2 : j - 1 = k - 1
        · simp [h2]
        · simp [h2]
      · by_cases h2 : k = j
        · subst h2; simp [h1]
        · simp [h1, h2, show j - 1 ≠ k - 1 by omega, show i - 1 ≠ k - 1 by omega]
    · have hz : ∀ l : List Entry, l.length = h.length → keyAt l k = 0 := by
        intro l hl
        unfold keyAt
        split
        · rename_i e he
          have := slot_bounds he
          omega
        · rfl
      rw [hz _ (by simp), hz h rfl]
      simp [show k ≠ i by omega, show k ≠ j by omega]

/-! ### swim (R111) -/

/-- Heap order everywhere but between slot `k` and its parent. -/
def SwimOk (h : List Entry) (k : Nat) : Prop :=
  (∀ c, 2 ≤ c → c ≤ h.length → c ≠ k → keyAt h (c / 2) ≤ keyAt h c) ∧
  (∀ c, 2 ≤ c → c ≤ h.length → c / 2 = k → 2 ≤ k → keyAt h (k / 2) ≤ keyAt h c)

theorem swim_spec (fuel : Nat) (h : List Entry) (k : Nat) (hk : 1 ≤ k) (hl : k ≤ h.length) (hf : k ≤ fuel) :
    ∃ h', swim fuel h k = .ok h' ∧ h'.Perm h ∧ (SwimOk h k → HeapOk h') := by
  induction fuel generalizing h k with
  | zero => omega
  | succ fuel ih =>
    unfold swim
    by_cases h1 : 1 < k
    · have he := slot_eq (h := h) (k := k) hk hl
      have hp := slot_eq (h := h) (k := k / 2) (by omega) (by omega)
      simp only [h1, if_true, he, hp, bind, Except.bind]
      by_cases hlt : (h[k - 1]'(by omega)).key < (h[k / 2 - 1]'(by omega)).key
      · obtain ⟨h', hs, hperm, hlen, -, hkey⟩ :=
          swapSlots_spec (h := h) (i := k) (j := k / 2) hk hl (by omega) (by omega)
        obtain ⟨h'', hw, hperm', hok⟩ := ih h' (k / 2) (by omega) (by omega) (by omega)
        simp only [hlt, if_true, hs]
        refine ⟨h'', hw, hperm'.trans hperm, fun hsw => hok ?_⟩
        have hlt' : keyAt h k < keyAt h (k / 2) := by
          rw [keyAt_of_slot he, keyAt_of_slot hp]; exact hlt
        obtain ⟨hA, hB⟩ := hsw
        constructor
        · intro c hc1 hc2 hc3
          rw [hlen] at hc2
          rw [hkey, hkey]
          have a1 := hA c hc1 hc2
          have b1 := hB c hc1 hc2
          by_cases e1 : c = k
          · subst e1
            simp [show c / 2 ≠ c by omega]; omega
          · by_cases e2 : c / 2 = k
            · simp only [e2, if_true]
              simp only [e1, if_false, hc3]
              exact b1 e2 (by omega)
            · by_cases e3 : c / 2 = k / 2
              · simp only [e1, e3, hc3, if_true, if_false, show k / 2 ≠ k by omega]
                have := a1 e1
                rw [e3] at this; omega
              · simp only [e1, e2, e3, hc3, if_false]
                exact a1 e1
        · intro c hc1 hc2 hc3 hc4
          rw [hlen] at hc2
          rw [hkey, hkey]
          have a1 := hA c hc1 hc2
          have a2 := hA (k / 2) hc4 (by omega) (by omega)
          simp only [show k / 2 / 2 ≠ k by omega, show k / 2 / 2 ≠ k / 2 by omega, if_false]
          by_cases e1 : c = k
          · simp only [e1, if_true]; omega
          · simp only [e1, if_false, show c ≠ k / 2 by omega]
            have := a1 e1
            rw [hc3] at this; omega
      · simp only [hlt, if_false]
        refine ⟨h, rfl, List.Perm.refl _, fun hsw => ?_⟩
        rw [heapOk_iff]
        intro c hc1 hc2
        by_cases e1 : c = k
        · subst e1
          rw [keyAt_of_slot he, keyAt_of_slot hp]
          exact BitVec.not_lt.mp hlt
        · exact hsw.1 c hc1 hc2 e1
    · simp only [h1, if_false]
      refine ⟨h, rfl, List.Perm.refl _, fun hsw => ?_⟩
      rw [heapOk_iff]
      intro c hc1 hc2
      exact hsw.1 c hc1 hc2 (by omega)

/-! ### sink (R112) -/

/-- Heap order everywhere but between slot `k` and its children. -/
def SinkOk (h : List Entry) (k : Nat) : Prop :=
  (∀ c, 2 ≤ c → c ≤ h.length → c / 2 ≠ k → keyAt h (c / 2) ≤ keyAt h c) ∧
  (∀ c, 2 ≤ c → c ≤ h.length → c / 2 = k → 2 ≤ k → keyAt h (k / 2) ≤ keyAt h c)

/-- The child that `sink` compares with is a live child of `k`, and no child has a smaller key, whatever the tie
policy. -/
theorem smallerChild_spec (right : Nat → Bool) (h : List Entry) (k : Nat) (hk : 1 ≤ k) (hl : 2 * k ≤ h.length) :
    ∃ j, smallerChild right h k = .ok j ∧ (j = 2 * k ∨ j = 2 * k + 1) ∧ j ≤ h.length ∧
      ∀ c, 2 ≤ c → c ≤ h.length → c / 2 = k → keyAt h j ≤ keyAt h c := by
  unfold smallerChild
  by_cases h1 : 2 * k < h.length
  · have hL := slot_eq (h := h) (k := 2 * k) (by omega) hl
    have hR := slot_eq (h := h) (k := 2 * k + 1) (by omega) (by omega)
    have kL := keyAt_of_slot hL
    have kR := keyAt_of_slot hR
    simp only [h1, if_true, hL, hR, bind, Except.bind]
    split
    · rename_i hc
      refine ⟨2 * k + 1, rfl, .inr rfl, by omega, fun c _ _ hc3 => ?_⟩
      have : keyAt h (2 * k + 1) ≤ keyAt h (2 * k) := by
        rw [kL, kR]
        rcases hc with hc | hc
        · exact Nat.le_of_lt hc
        · exact Nat.le_of_eq (by rw [hc.1])
      rcases (show c = 2 * k ∨ c = 2 * k + 1 by omega) with rfl | rfl
      · exact this
      · exact Nat.le_refl _
    · rename_i hc
      refine ⟨2 * k, rfl, .inl rfl, hl, fun c _ _ hc3 => ?_⟩
      have : keyAt h (2 * k) ≤ keyAt h (2 * k + 1) := by
        rw [kL, kR]
        exact BitVec.not_lt.mp (fun hlt => hc (.inl hlt))
      rcases (show c = 2 * k ∨ c = 2 * k + 1 by omega) with rfl | rfl
      · exact Nat.le_refl _
      · exact this
  · simp only [h1, if_false]
    refine ⟨2 * k, rfl, .inl rfl, hl, fun c _ _ hc3 => ?_⟩
    rw [show c = 2 * k by omega]

theorem sink_spec (right : Nat → Bool) (fuel : Nat) (h : List Entry) (k : Nat) (hk : 1 ≤ k)
    (hf : h.length < fuel + k) :
    ∃ h', sink right fuel h k = .ok h' ∧ h'.Perm h ∧ (SinkOk h k → HeapOk h') := by
  induction fuel generalizing h k with
  | zero =>
    refine ⟨h, rfl, List.Perm.refl _, fun hs => ?_⟩
    rw [heapOk_iff]
    intro c hc1 hc2
    exact hs.1 c hc1 hc2 (by omega)
  | succ fuel ih =>
    unfold sink
    by_cases h1 : 2 * k ≤ h.length
    · obtain ⟨j, hj, hj2, hjl, hmin⟩ := smallerChild_spec right h k hk h1
      have he := slot_eq (h := h) (k := k) hk (by omega)
      have hc := slot_eq (h := h) (k := j) (by omega) hjl
      have ke := keyAt_of_slot he
      have kc := keyAt_of_slot hc
      simp only [h1, if_true, hj, he, hc, bind, Except.bind]
      by_cases hlt : (h[j - 1]'(by omega)).key < (h[k - 1]'(by omega)).key
      · obtain ⟨h', hs, hperm, hlen, -, hkey⟩ :=
          swapSlots_spec (h := h) (i := k) (j := j) hk (by omega) (by omega) hjl
        obtain ⟨h'', hw, hperm', hok⟩ := ih h' j (by omega) (by omega)
        simp only [hlt, if_true, hs]
        refine ⟨h'', hw, hperm'.trans hperm, fun hsk => hok ?_⟩
        have hlt' : keyAt h j < keyAt h k := by rw [ke, kc]; exact hlt
        obtain ⟨hA, hB⟩ := hsk
        constructor
        · intro c hc1 hc2 hc3
          rw [hlen] at hc2
          rw [hkey, hkey]
          have a1 := hA c hc1 hc2
          have m1 := hmin c hc1 hc2
          by_cases e1 : c = j
          · subst e1
            simp [show c / 2 = k by omega, show c ≠ k by omega]; omega
          · by_cases e2 : c / 2 = k
            · simp only [e1, e2, if_true, if_false, show c ≠ k by omega]
              exact m1 e2
            · by_cases e3 : c = k
              · subst e3
                have b1 := hB j (by omega) hjl (by omega) hc1
                simp only [e2, hc3, if_true, if_false]; omega
              · simp only [e1, e2, e3, hc3, if_false]
                exact a1 e2
        · intro c hc1 hc2 hc3 hc4
          rw [hlen] at hc2
          rw [hkey, hkey]
          have a1 := hA c hc1 hc2 (by omega)
          simp only [show j / 2 = k by omega, if_true, show c ≠ k by omega, show c ≠ j by omega, if_false]
          rw [hc3] at a1; exact a1
      · simp only [hlt, if_false]
        refine ⟨h, rfl, List.Perm.refl _, fun hsk => ?_⟩
        rw [heapOk_iff]
        intro c hc1 hc2
        by_cases e1 : c / 2 = k
        · have m1 := hmin c hc1 hc2 e1
          have : keyAt h k ≤ keyAt h j := by rw [ke, kc]; exact BitVec.not_lt.mp hlt
          rw [e1]; omega
        · exact hsk.1 c hc1 hc2 e1
    · simp only [h1, if_false]
      refine ⟨h, rfl, List.Perm.refl _, fun hsk => ?_⟩
      rw [heapOk_iff]
      intro c hc1 hc2
      exact hsk.1 c hc1 hc2 (by omega)

/-! ### Insert and ExtractMin (R113, R115) -/

theorem keyAt_append_of_le {h l : List Entry} {k : Nat} (hk : k ≤ h.length) : keyAt (h ++ l) k = keyAt h k := by
  by_cases h1 : 1 ≤ k
  · rw [keyAt_eq h1 (by simp; omega), keyAt_eq h1 hk]
    rw [List.getElem_append_left]
  · have : k = 0 := by omega
    subst this; rfl

/-- Insert answers on every bank, adds exactly the entry, and keeps heap order. -/
theorem heapInsert_spec (h : List Entry) (e : Entry) :
    ∃ h', heapInsert h e = .ok h' ∧ h'.Perm (e :: h) ∧ (HeapOk h → HeapOk h') := by
  obtain ⟨h', hs, hp, hok⟩ := swim_spec (h.length + 1) (h ++ [e]) (h.length + 1) (by omega) (by simp) (Nat.le_refl _)
  refine ⟨h', hs, hp.trans (List.perm_append_comm.trans (List.Perm.refl _)), fun hh => hok ?_⟩
  rw [heapOk_iff] at hh
  constructor
  · intro c hc1 hc2 hc3
    have hcl : c ≤ h.length := by simp at hc2; omega
    rw [keyAt_append_of_le (by omega), keyAt_append_of_le hcl]
    exact hh c hc1 hcl
  · intro c _ hc2 hc3 _
    simp at hc2; omega

/-- ExtractMin answers on every non-empty bank, takes slot 1's entry and nothing else, and keeps heap order. -/
theorem extractMin_spec (right : Nat → Bool) (h : List Entry) (hne : h ≠ []) :
    ∃ m h', extractMin right h = .ok (m, h') ∧ slot h 1 = .ok m ∧ h.Perm (m :: h') ∧ (HeapOk h → HeapOk h') := by
  have hpos : 1 ≤ h.length := List.length_pos_iff.mpr hne
  have hm := slot_eq (h := h) (k := 1) (Nat.le_refl _) hpos
  obtain ⟨h', hs, hperm, hlen, hdef, hkey⟩ :=
    swapSlots_spec (h := h) (i := 1) (j := h.length) (Nat.le_refl _) hpos hpos (Nat.le_refl _)
  have hlast : h'[h.length - 1]'(by omega) = h[1 - 1]'(by omega) := by
    subst hdef; simp
  obtain ⟨h'', hw, hperm', hok⟩ := sink_spec right (h.length - 1) h'.dropLast 1 (Nat.le_refl _) (by simp [hlen])
  refine ⟨_, h'', by simp [extractMin, hm, hs, hw, bind, Except.bind], hm, ?_, fun hh => hok ?_⟩
  · have hne' : h' ≠ [] := by intro e; simp [e] at hlen; omega
    have e1 : h'.dropLast ++ [h'.getLast hne'] = h' := List.dropLast_append_getLast hne'
    have e2 : h'.getLast hne' = h[1 - 1]'(by omega) := by
      rw [List.getLast_eq_getElem, ← hlast]; congr 1; omega
    rw [e2] at e1
    calc h.Perm h' := hperm.symm
      _ = h'.dropLast ++ [h[1 - 1]'(by omega)] := e1.symm
      List.Perm _ (h[1 - 1]'(by omega) :: h'.dropLast) := List.perm_append_comm
      List.Perm _ _ := List.Perm.cons _ hperm'.symm
  · rw [heapOk_iff] at hh
    have hdrop : ∀ k, k ≤ h'.dropLast.length → keyAt h'.dropLast k = keyAt h' k := by
      intro k hk
      by_cases h1 : 1 ≤ k
      · rw [keyAt_eq h1 hk, keyAt_eq h1 (by simp at hk; omega), List.getElem_dropLast]
      · have : k = 0 := by omega
        subst this; rfl
    constructor
    · intro c hc1 hc2 hc3
      rw [hdrop _ (by omega), hdrop _ hc2]
      have hc2' : c ≤ h.length - 1 := by simp [hlen] at hc2; omega
      rw [hkey, hkey]
      simp only [show c / 2 ≠ 1 by omega, show c / 2 ≠ h.length by omega, show c ≠ 1 by omega,
        show c ≠ h.length by omega, if_false]
      exact hh c hc1 (by omega)
    · intro c _ _ _ h2; omega

/-- Slot 1 of a heap holds a smallest key. -/
theorem heap_root_le {h : List Entry} (hh : HeapOk h) {m : Entry} (hm : slot h 1 = .ok m) :
    ∀ e ∈ h, m.key ≤ e.key := by
  rw [heapOk_iff] at hh
  have key : ∀ k, 1 ≤ k → k ≤ h.length → keyAt h 1 ≤ keyAt h k := by
    intro k
    induction k using Nat.strongRecOn with
    | ind k ih =>
      intro h1 h2
      by_cases e1 : k = 1
      · rw [e1]
      · exact Nat.le_trans (ih (k / 2) (by omega) (by omega) (by omega)) (hh k (by omega) h2)
  intro e he
  obtain ⟨i, hi, rfl⟩ := List.getElem_of_mem he
  have := key (i + 1) (by omega) (by omega)
  rw [keyAt_of_slot hm, keyAt_eq (by omega) (by omega)] at this
  exact this

/-! ### Slot by slot (R111, R112) -/

/-- `swap` on live slots, slot by slot. -/
theorem slot_swap {h h' : List Entry} {i j : Nat} (hi : 1 ≤ i) (hi' : i ≤ h.length) (hj : 1 ≤ j)
    (hj' : j ≤ h.length) (hs : swapSlots h i j = .ok h') (k : Nat) :
    slot h' k = if k = i then slot h j else if k = j then slot h i else slot h k := by
  obtain ⟨h2, e, -, hlen, hdef, -⟩ := swapSlots_spec hi hi' hj hj'
  rw [hs] at e; cases e
  by_cases hk : 1 ≤ k ∧ k ≤ h.length
  · rw [slot_eq hk.1 (by omega), slot_eq hi hi', slot_eq hj hj', slot_eq hk.1 hk.2]
    subst hdef
    simp only [List.getElem_set]
    by_cases h1 : k = i
    · subst h1
      by_cases h2 : j - 1 = k - 1
      · simp [h2]
      · simp [h2]
    · by_cases h2 : k = j
      · subst h2; simp [h1]
      · simp [h1, h2, show j - 1 ≠ k - 1 by omega, show i - 1 ≠ k - 1 by omega]
  · rw [if_neg (by omega), if_neg (by omega)]
    unfold slot
    split
    · rfl
    · rw [List.getElem?_eq_none (by omega), List.getElem?_eq_none (by omega)]

/-- swim, slot by slot (R111): the entries the moving one passes go one place down each. -/
theorem swim_slots (fuel : Nat) (h : List Entry) (k : Nat) (e : Entry) (he : slot h k = .ok e) (hf : k ≤ fuel)
    {h' : List Entry} (hw : swim fuel h k = .ok h') :
    ∃ j, 1 ≤ k / 2 ^ j ∧ slot h' (k / 2 ^ j) = .ok e ∧
      (∀ i < j, ∃ p, slot h (k / 2 ^ (i + 1)) = .ok p ∧ e.key < p.key ∧ slot h' (k / 2 ^ i) = .ok p) ∧
      (k / 2 ^ j = 1 ∨ ∃ p, slot h (k / 2 ^ (j + 1)) = .ok p ∧ ¬ e.key < p.key) ∧
      ∀ m, (∀ i ≤ j, m ≠ k / 2 ^ i) → slot h' m = slot h m := by
  have hk := slot_bounds he
  induction fuel generalizing h k with
  | zero => omega
  | succ fuel ih =>
    unfold swim at hw
    by_cases h1 : 1 < k
    · have hp := slot_eq (h := h) (k := k / 2) (by omega) (by omega)
      simp only [h1, if_true, he, hp, bind, Except.bind] at hw
      by_cases hlt : e.key < (h[k / 2 - 1]'(by omega)).key
      · simp only [hlt, if_true] at hw
        obtain ⟨h1', hs, -, hlen, -, -⟩ :=
          swapSlots_spec (h := h) (i := k) (j := k / 2) (by omega) (by omega) (by omega) (by omega)
        simp only [hs] at hw
        have sw := slot_swap (by omega) (by omega) (by omega) (by omega) hs
        have he' : slot h1' (k / 2) = .ok e := by
          rw [sw, if_neg (by omega), if_pos rfl, he]
        obtain ⟨j, a, b, c, d, f⟩ := ih h1' (k / 2) he' (by omega) hw (slot_bounds he')
        have sh : ∀ i, k / 2 / 2 ^ i = k / 2 ^ (i + 1) := fun i => by
          rw [Nat.div_div_eq_div_mul, ← Nat.pow_succ']
        have up : ∀ i, slot h1' (k / 2 / 2 ^ (i + 1)) = slot h (k / 2 / 2 ^ (i + 1)) := by
          intro i
          have : k / 2 / 2 ^ (i + 1) < k / 2 := Nat.div_lt_self (by omega) (Nat.one_lt_two_pow (by omega))
          rw [sw, if_neg (by omega), if_neg (by omega)]
        refine ⟨j + 1, by rw [← sh]; exact a, by rw [← sh]; exact b, ?_, ?_, ?_⟩
        · intro i hi
          match i with
          | 0 =>
            refine ⟨_, by rw [Nat.zero_add, Nat.pow_one]; exact hp, hlt, ?_⟩
            rw [Nat.pow_zero, Nat.div_one, f, sw, if_pos rfl, hp]
            intro i _ e
            have : k / 2 / 2 ^ i ≤ k / 2 := Nat.div_le_self _ _
            omega
          | i + 1 =>
            obtain ⟨p, p1, p2, p3⟩ := c i (by omega)
            rw [up, sh] at p1
            rw [sh] at p3
            exact ⟨p, p1, p2, p3⟩
        · rcases d with d | ⟨p, p1, p2⟩
          · left; rw [← sh]; exact d
          · right; rw [up, sh] at p1; exact ⟨p, p1, p2⟩
        · intro m hm
          have m0 : m ≠ k := by simpa using hm 0 (by omega)
          have m1 : m ≠ k / 2 := by simpa using hm 1 (by omega)
          rw [f m (fun i hi => by rw [sh]; exact hm (i + 1) (by omega)), sw, if_neg m0, if_neg m1]
      · simp only [hlt, if_false, Except.ok.injEq] at hw
        subst hw
        exact ⟨0, by simpa using hk.1, by simpa using he, by simp, .inr ⟨_, by simpa using hp, hlt⟩, fun _ _ => rfl⟩
    · simp only [h1, if_false, Except.ok.injEq] at hw
      subst hw
      exact ⟨0, by simpa using hk.1, by simpa using he, by simp, .inl (by simp; omega), fun _ _ => rfl⟩

theorem slot_append_of_le {h l : List Entry} {k : Nat} (hk : k ≤ h.length) : slot (h ++ l) k = slot h k := by
  unfold slot
  split
  · rfl
  · rw [List.getElem?_append_left (by omega)]

/-- Insert, slot by slot. -/
theorem heapInsert_swum {h h' : List Entry} {e : Entry} (hi : heapInsert h e = .ok h') : Swum h e h' := by
  have he : slot (h ++ [e]) (h.length + 1) = .ok e := by
    rw [slot_eq (by omega) (by simp)]; simp
  obtain ⟨j, a, b, c, d, f⟩ := swim_slots _ _ _ e he (Nat.le_refl _) hi
  have up : ∀ i, slot (h ++ [e]) ((h.length + 1) / 2 ^ (i + 1)) = slot h ((h.length + 1) / 2 ^ (i + 1)) := by
    intro i
    have : (h.length + 1) / 2 ^ (i + 1) < h.length + 1 :=
      Nat.div_lt_self (by omega) (Nat.one_lt_two_pow (by omega))
    exact slot_append_of_le (by omega)
  refine ⟨j, a, b, fun i hi => by simpa only [up] using c i hi, by simpa only [up] using d, fun k hk => ?_⟩
  rw [f k hk]
  have : k ≠ h.length + 1 := by simpa using hk 0 (by omega)
  by_cases hl : k ≤ h.length
  · exact slot_append_of_le hl
  · unfold slot
    rw [List.getElem?_eq_none (by simp; omega), List.getElem?_eq_none (by omega)]

/-- The child that `sink` compares, without the procedure (R112). -/
theorem smallerChild_child (p : TiePolicy) (draw : Nat) (h : List Entry) {k c : Nat} (hk : 1 ≤ k) (hl : 2 * k ≤ h.length)
    (hc : smallerChild (tieChoice p draw) h k = .ok c) : SinkChild p h k c := by
  have hL := slot_eq (h := h) (k := 2 * k) (by omega) hl
  refine ⟨_, hL, ?_⟩
  unfold smallerChild at hc
  by_cases h1 : 2 * k < h.length
  · have hR := slot_eq (h := h) (k := 2 * k + 1) (by omega) (by omega)
    right
    refine ⟨_, hR, ?_⟩
    simp only [h1, if_true, hL, hR, bind, Except.bind] at hc
    split at hc
    · rename_i hh
      cases hc
      right
      refine ⟨rfl, ?_⟩
      rcases hh with hh | ⟨hh, ht⟩
      · exact .inl hh
      · exact .inr ⟨hh.symm, by rintro rfl; simp [tieChoice] at ht⟩
    · rename_i hh
      cases hc
      left
      refine ⟨rfl, ?_⟩
      rcases Nat.lt_trichotomy (h[2 * k - 1]'(by omega)).key.toNat (h[2 * k + 1 - 1]'(by omega)).key.toNat with hx | hx | hx
      · exact .inl hx
      · have hx' := BitVec.eq_of_toNat_eq hx
        exact .inr ⟨hx', by rintro rfl; exact hh (.inr ⟨hx'.symm, rfl⟩)⟩
      · exact absurd (.inl hx) hh
  · simp only [h1, if_false, Except.ok.injEq] at hc
    exact .inl ⟨hc.symm, by omega⟩

/-- A sink path looks only at slots below where it starts, at most. -/
theorem sinkPath_congr {p : TiePolicy} {h g : List Entry} {x : Entry} {k : Nat} {ks : List Nat} (hl : g.length = h.length)
    (hs : ∀ m, k < m → slot g m = slot h m) (hk : 1 ≤ k) (hp : SinkPath p h x k ks) : SinkPath p g x k ks := by
  have child : ∀ k' c, k ≤ k' → SinkChild p h k' c → SinkChild p g k' c := by
    rintro k' c hle ⟨l, h1, h2⟩
    refine ⟨l, by rw [hs _ (by omega)]; exact h1, ?_⟩
    rw [hl, hs _ (by omega)]; exact h2
  have bound : ∀ k' c, SinkChild p h k' c → c = 2 * k' ∨ c = 2 * k' + 1 := by
    rintro k' c ⟨l, _, h2 | ⟨r, _, h2 | h2⟩⟩
    · exact .inl h2.1
    · exact .inl h2.1
    · exact .inr h2.1
  suffices ∀ k', k ≤ k' → SinkPath p h x k' ks → SinkPath p g x k' ks from this k (Nat.le_refl _) hp
  clear hp
  induction ks with
  | nil =>
    intro k' hle hp
    rcases hp with hp | ⟨c, e, h1, h2, h3⟩
    · left; omega
    · have := bound _ _ h1
      exact .inr ⟨c, e, child _ _ hle h1, by rw [hs _ (by omega)]; exact h2, h3⟩
  | cons c ks ih =>
    rintro k' hle ⟨h0, h1, ⟨e, h2, h3⟩, h4⟩
    have := bound _ _ h1
    exact ⟨by omega, child _ _ hle h1, ⟨e, by rw [hs _ (by omega)]; exact h2, h3⟩, ih c (by omega) h4⟩

/-- Every slot on a sink path lies below where it starts. -/
theorem sinkPath_gt {p : TiePolicy} {h : List Entry} {x : Entry} {k : Nat} {ks : List Nat} (hk : 1 ≤ k)
    (hp : SinkPath p h x k ks) : ∀ c ∈ ks, k < c := by
  induction ks generalizing k with
  | nil => simp
  | cons c ks ih =>
    obtain ⟨_, ⟨l, _, hc⟩, _, h4⟩ := hp
    have : k < c := by
      rcases hc with hc | ⟨r, _, hc | hc⟩ <;> have := hc.1 <;> omega
    intro d hd
    rcases List.mem_cons.mp hd with rfl | hd
    · exact this
    · exact Nat.lt_trans this (ih (by omega) h4 d hd)

/-- sink, slot by slot (R112): the entries the moving one passes go one place up each. -/
theorem sink_slots (p : TiePolicy) (draw fuel : Nat) (h : List Entry) (k : Nat) (x : Entry) (hx : slot h k = .ok x)
    (hf : h.length < fuel + k) {h' : List Entry} (hw : sink (tieChoice p draw) fuel h k = .ok h') :
    ∃ ks : List Nat, SinkPath p h x k ks ∧ h'.length = h.length ∧
      (∀ i c : Nat, ks[i]? = some c → slot h' ((k :: ks)[i]?.getD 0) = slot h c) ∧
      slot h' (ks.getLast?.getD k) = .ok x ∧ ∀ m, m ∉ k :: ks → slot h' m = slot h m := by
  have hk := slot_bounds hx
  induction fuel generalizing h k with
  | zero => omega
  | succ fuel ih =>
    unfold sink at hw
    by_cases h1 : 2 * k ≤ h.length
    · obtain ⟨j, hj, hj2, hjl, -⟩ := smallerChild_spec (tieChoice p draw) h k hk.1 h1
      have hch := smallerChild_child p draw h hk.1 h1 hj
      have hc := slot_eq (h := h) (k := j) (by omega) hjl
      simp only [h1, if_true, hj, hx, hc, bind, Except.bind] at hw
      by_cases hlt : (h[j - 1]'(by omega)).key < x.key
      · simp only [hlt, if_true] at hw
        obtain ⟨h1', hs, -, hlen, -, -⟩ :=
          swapSlots_spec (h := h) (i := k) (j := j) (by omega) (by omega) (by omega) (by omega)
        simp only [hs] at hw
        have sw := slot_swap (by omega) (by omega) (by omega) (by omega) hs
        have hx' : slot h1' j = .ok x := by
          rw [sw, if_neg (by omega), if_pos rfl, hx]
        obtain ⟨ks, a, b, c, d, f⟩ := ih h1' j hx' (by omega) hw (slot_bounds hx')
        have hgt := sinkPath_gt (by omega) a
        have below : ∀ m, j < m → slot h1' m = slot h m := fun m hm => by
          rw [sw, if_neg (by omega), if_neg (by omega)]
        refine ⟨j :: ks, ⟨h1, hch, ⟨_, hc, hlt⟩, sinkPath_congr hlen.symm (fun m hm => (below m hm).symm) (by omega) a⟩,
          by rw [b, hlen], ?_, ?_, ?_⟩
        · intro i c' hi
          match i with
          | 0 =>
            simp only [List.getElem?_cons_zero, Option.some.injEq] at hi
            subst hi
            simp only [List.getElem?_cons_zero, Option.getD_some]
            rw [f k, sw, if_pos rfl]
            simp only [List.mem_cons, not_or]
            exact ⟨by omega, fun hm => by have := hgt k hm; omega⟩
          | i + 1 =>
            simp only [List.getElem?_cons_succ] at hi ⊢
            rw [c i c' hi]
            exact below c' (hgt c' (List.mem_of_getElem? hi))
        · rw [← d]; congr 1
          simp [List.getLast?_cons]
        · intro m hm
          simp only [List.mem_cons, not_or] at hm
          rw [f m (by simpa using hm.2), sw, if_neg hm.1, if_neg hm.2.1]
      · simp only [hlt, if_false, Except.ok.injEq] at hw
        subst hw
        exact ⟨[], .inr ⟨j, _, hch, hc, hlt⟩, rfl, by simp, by simpa using hx, fun _ _ => rfl⟩
    · simp only [h1, if_false, Except.ok.injEq] at hw
      subst hw
      exact ⟨[], .inl (by omega), rfl, by simp, by simpa using hx, fun _ _ => rfl⟩

/-- ExtractMin, slot by slot: of a bank of two entries or more, the last takes slot 1 and sinks. -/
theorem extractMin_sunk (p : TiePolicy) (draw : Nat) {h h' : List Entry} {m x : Entry} (hlast : h.getLast? = some x)
    (h2 : 2 ≤ h.length) (he : extractMin (tieChoice p draw) h = .ok (m, h')) : Sunk p h.dropLast x h' := by
  have hm := slot_eq (h := h) (k := 1) (Nat.le_refl _) (by omega)
  obtain ⟨g, hs, -, hlen, -, -⟩ :=
    swapSlots_spec (h := h) (i := 1) (j := h.length) (Nat.le_refl _) (by omega) (by omega) (Nat.le_refl _)
  have sw := slot_swap (Nat.le_refl _) (by omega) (by omega) (Nat.le_refl _) hs
  have hx : slot h h.length = .ok x := by
    rw [slot_eq (by omega) (Nat.le_refl _)]
    rw [List.getLast?_eq_getElem?, List.getElem?_eq_getElem (by omega)] at hlast
    exact congrArg Except.ok (Option.some.inj hlast)
  have drop : ∀ (l : List Entry) k, k < l.length → slot l.dropLast k = slot l k := by
    intro l k hk
    unfold slot
    split
    · rfl
    · rw [List.getElem?_dropLast, if_pos (by omega)]
  have tail : ∀ k, 1 < k → slot g.dropLast k = slot h.dropLast k := by
    intro k hk
    by_cases hl : k < h.length
    · rw [drop _ _ (by omega), drop _ _ hl, sw, if_neg (by omega), if_neg (by omega)]
    · unfold slot
      rw [List.getElem?_eq_none (by simp; omega), List.getElem?_eq_none (by simp; omega)]
  have hx1 : slot g.dropLast 1 = .ok x := by rw [drop _ _ (by omega), sw, if_pos rfl, hx]
  simp only [extractMin, hm, hs, bind, Except.bind] at he
  split at he
  · cases he
  · rename_i h'' hw
    simp only [Except.ok.injEq, Prod.mk.injEq] at he
    obtain ⟨-, rfl⟩ := he
    obtain ⟨ks, a, b, c, d, f⟩ := sink_slots p draw _ _ 1 x hx1 (by simp; omega) hw
    have hgt := sinkPath_gt (Nat.le_refl _) a
    refine ⟨ks, sinkPath_congr (by simp [hlen]) (fun k hk => (tail k hk).symm) (Nat.le_refl _) a, by rw [b]; simp [hlen], ?_, d,
      ?_⟩
    · intro i c' hi
      rw [c i c' hi, tail c' (hgt c' (List.mem_of_getElem? hi))]
    · intro k hk
      rw [f k hk]
      by_cases h0 : k = 0
      · subst h0; rfl
      · refine tail k ?_
        have : k ≠ 1 := by simp at hk; exact hk.1
        omega

end Sys2Proof.Machine
end

