-- ==== Sys2Proof/Laws/Tree.lean ====
section
/-! SUPPORT. Node references, the node memory, and the trees it holds (spec/10_state.md R25, R26): reading is
unchanged by new entries, a reference holds at most one tree, and `visit` records exactly the paths of the tree. -/

namespace Sys2Proof.Machine

open Sys2Proof

/-! ### References -/

@[simp] theorem isLeaf_leafRef (b : Sym) : isLeaf (leafRef b) = true := by
  revert b; decide

@[simp] theorem sym_leafRef (b : Sym) : sym (leafRef b) = b := by
  revert b; decide

theorem leafRef_sym {r : Ref} (h : isLeaf r = true) : leafRef (sym r) = r := by
  revert r; decide

@[simp] theorem isLeaf_nilRef : isLeaf nilRef = false := by decide

theorem internalRef_toNat {k : Nat} (h : k < 256) : (internalRef k).toNat = 256 + k := by
  simp [internalRef]; omega

@[simp] theorem isLeaf_internalRef {k : Nat} (h : k < 256) : isLeaf (internalRef k) = false := by
  have := internalRef_toNat h
  simp only [isLeaf, BitVec.getLsbD, this, Nat.testBit_eq_decide_div_mod_eq, Bool.not_eq_false', decide_eq_true_eq]
  omega

theorem internalRef_ne_nilRef {k : Nat} (h : k < 255) : internalRef k ≠ nilRef := by
  intro e
  have := congrArg BitVec.toNat e
  rw [internalRef_toNat (by omega)] at this
  simp [nilRef] at this; omega

theorem leaf_ne_nilRef {r : Ref} (h : isLeaf r = true) : r ≠ nilRef := by
  intro e; subst e; simp at h

/-! ### The node memory -/

theorem nodeAt_internalRef {nm : List Node} {k : Nat} (hk : k < nm.length) (h : k < 255) :
    nodeAt nm (internalRef k) = .ok nm[k] := by
  have h1 : isLeaf (internalRef k) = false := isLeaf_internalRef (by omega)
  have h2 := internalRef_ne_nilRef h
  have h3 := internalRef_toNat (k := k) (by omega)
  simp [nodeAt, h1, h2, h3, hk]

/-- What a successful read of the node memory says. -/
theorem nodeAt_ok {nm : List Node} {r : Ref} {n : Node} (h : nodeAt nm r = .ok n) :
    isLeaf r = false ∧ r ≠ nilRef ∧ nm[r.toNat - 256]? = some n := by
  unfold nodeAt at h
  split at h
  · cases h
  · rename_i hc
    rw [not_or] at hc
    split at h
    · rename_i n' hn; cases h
      exact ⟨by simpa using hc.1, hc.2, hn⟩
    · cases h

theorem nodeAt_append {nm l : List Node} {r : Ref} {n : Node} (h : nodeAt nm r = .ok n) :
    nodeAt (nm ++ l) r = .ok n := by
  obtain ⟨h1, h2, h3⟩ := nodeAt_ok h
  have : (nm ++ l)[r.toNat - 256]? = some n := by
    rw [List.getElem?_append_left (List.getElem?_eq_some_iff.mp h3).1]; exact h3
  simp [nodeAt, h1, h2, this]

theorem nodeAt_mem {nm : List Node} {r : Ref} {n : Node} (h : nodeAt nm r = .ok n) : n ∈ nm :=
  List.mem_of_getElem? (nodeAt_ok h).2.2

/-! ### Weights -/

/-- `weight(r)` over a frequency table and a node memory. -/
def weightIn (ft : Vector Weight 256) (nm : List Node) (r : Ref) : Except Fault Weight :=
  if isLeaf r then .ok (ftGet ft (r.extractLsb' 0 8))
  else
    match nodeAt nm r with
    | .ok n => .ok n.weight
    | .error f => .error f

theorem weightOf_eq (s : State) (r : Ref) : s.weightOf r = weightIn s.ft s.nm r := rfl

theorem weightIn_leafRef (ft : Vector Weight 256) (nm : List Node) (b : Sym) :
    weightIn ft nm (leafRef b) = .ok (ftGet ft b) := by
  have : (leafRef b).extractLsb' 0 8 = b := by revert b; decide
  simp [weightIn, this]

theorem weightIn_append {ft : Vector Weight 256} {nm l : List Node} {r : Ref} {w : Weight}
    (h : weightIn ft nm r = .ok w) : weightIn ft (nm ++ l) r = .ok w := by
  unfold weightIn at *
  split
  · simp_all
  · rename_i hl
    simp only [hl] at h
    cases hn : nodeAt nm r with
    | ok n => rw [nodeAt_append hn]; simpa [hn] using h
    | error f => simp [hn] at h

/-! ### The trees -/

/-- Levels of edges below the root. -/
def depth : CodeTree → Nat
  | .leaf _ => 0
  | .node l r => max (depth l) (depth r) + 1

/-- The number of internal nodes. -/
def inner : CodeTree → Nat
  | .leaf _ => 0
  | .node l r => inner l + inner r + 1

theorem syms_length (t : CodeTree) : t.syms.length = inner t + 1 := by
  induction t with
  | leaf b => rfl
  | node l r ihl ihr => simp [CodeTree.syms, inner, ihl, ihr]; omega

theorem depth_le_inner (t : CodeTree) : depth t ≤ inner t := by
  induction t with
  | leaf b => exact Nat.le_refl _
  | node l r ihl ihr => simp only [depth, inner]; omega

theorem depth_lt_syms (t : CodeTree) : depth t < t.syms.length := by
  rw [syms_length]; exact Nat.lt_succ_of_le (depth_le_inner t)

theorem paths_fst (t : CodeTree) : t.paths.map (·.1) = t.syms := by
  induction t with
  | leaf b => rfl
  | node l r ihl ihr =>
    simp only [CodeTree.paths, CodeTree.syms, List.map_append, List.map_map, ← ihl, ← ihr]
    rfl

theorem mem_syms_iff {t : CodeTree} {b : Sym} : b ∈ t.syms ↔ ∃ p, (b, p) ∈ t.paths := by
  rw [← paths_fst]; simp

theorem paths_length_le_depth {t : CodeTree} {b : Sym} {p : List Bool} (h : (b, p) ∈ t.paths) :
    p.length ≤ depth t := by
  induction t generalizing p with
  | leaf c => simp [CodeTree.paths] at h; simp [h.2]
  | node l r ihl ihr =>
    simp only [CodeTree.paths, List.mem_append, List.mem_map, Prod.mk.injEq] at h
    simp only [depth]
    rcases h with ⟨x, hx, rfl, rfl⟩ | ⟨x, hx, rfl, rfl⟩
    · have := ihl hx; simp; omega
    · have := ihr hx; simp; omega

theorem holds_append {nm l : List Node} {r : Ref} {t : CodeTree} (h : Holds nm r t) : Holds (nm ++ l) r t := by
  induction h with
  | leaf r h => exact .leaf r h
  | node r n tl tr h _ _ ihl ihr => exact .node r n tl tr (nodeAt_append h) ihl ihr

/-- A reference holds at most one tree. -/
theorem holds_unique {nm : List Node} {r : Ref} {t u : CodeTree} (h : Holds nm r t) (h' : Holds nm r u) : t = u := by
  induction h generalizing u with
  | leaf r h =>
    cases h' with
    | leaf => rfl
    | node _ n _ _ hn => have := (nodeAt_ok hn).1; simp_all
  | node r n tl tr hn _ _ ihl ihr =>
    cases h' with
    | leaf _ h => have := (nodeAt_ok hn).1; simp_all
    | node _ n' _ _ hn' hl hr =>
      rw [hn] at hn'; cases hn'
      rw [ihl hl, ihr hr]

theorem holds_leaf_iff {nm : List Node} {r : Ref} {b : Sym} (h : Holds nm r (.leaf b)) :
    isLeaf r = true ∧ sym r = b := by
  cases h with
  | leaf _ h => exact ⟨h, rfl⟩

/-- A leaf reference holds the leaf of its symbol. -/
theorem holds_of_leaf {nm : List Node} {r : Ref} {t : CodeTree} (h : Holds nm r t) (hl : isLeaf r = true) :
    t = .leaf (sym r) := holds_unique h (.leaf r hl)

/-- An internal reference that holds a tree is a written entry, and its links hold the subtrees. -/
theorem holds_of_internal {nm : List Node} {r : Ref} {t : CodeTree} (h : Holds nm r t) (hl : isLeaf r = false) :
    ∃ n tl tr, nodeAt nm r = .ok n ∧ Holds nm n.left tl ∧ Holds nm n.right tr ∧ t = .node tl tr := by
  cases h with
  | leaf _ h => simp_all
  | node _ n tl tr hn hl hr => exact ⟨n, tl, tr, hn, hl, hr, rfl⟩

/-- Whatever is reached from a reference that holds a tree holds a tree. -/
theorem holds_under {nm : List Node} {root r : Ref} {t : CodeTree} (h : Holds nm root t) (u : Under nm root r) :
    ∃ t', Holds nm r t' := by
  induction u with
  | root => exact ⟨t, h⟩
  | left r n hn _ ih =>
    obtain ⟨t', ht⟩ := ih
    obtain ⟨n', tl, tr, hn', hl, _, _⟩ := holds_of_internal ht (nodeAt_ok hn).1
    rw [hn] at hn'; cases hn'
    exact ⟨tl, hl⟩
  | right r n hn _ ih =>
    obtain ⟨t', ht⟩ := ih
    obtain ⟨n', tl, tr, hn', _, hr, _⟩ := holds_of_internal ht (nodeAt_ok hn).1
    rw [hn] at hn'; cases hn'
    exact ⟨tr, hr⟩

/-! ### DERIVE (spec/42_build.md R135) -/

theorem getElem_set_sym (ct : Vector Code 256) (a b : Sym) (c : Code) :
    (ct.set a.toNat c a.isLt)[b.toNat]'b.isLt = if a = b then c else ct[b.toNat]'b.isLt := by
  rw [Vector.getElem_set]
  simp only [BitVec.toNat_inj]

/-- `visit` answers on every reference that holds a tree whose depth fits, records at each leaf the accumulated path,
and touches no other entry. -/
theorem visit_spec {nm : List Node} {r : Ref} {t : CodeTree} (h : Holds nm r t) (room : Nat) (path : List Bool)
    (ct : Vector Code 256) (hd : depth t ≤ room) (hn : t.syms.Nodup) :
    ∃ ct', visit nm room r path ct = .ok ct' ∧
      (∀ b p, (b, p) ∈ t.paths → ct'[b.toNat]'b.isLt = codeOf (path ++ p)) ∧
      (∀ b, b ∉ t.syms → ct'[b.toNat]'b.isLt = ct[b.toNat]'b.isLt) := by
  induction h generalizing room path ct with
  | leaf r h =>
    refine ⟨ct.set (sym r).toNat (codeOf path) (sym r).isLt, ?_, ?_, ?_⟩
    · cases room <;> simp [visit, h]
    · intro b p hp
      simp [CodeTree.paths] at hp
      rw [getElem_set_sym]; simp [hp.1, hp.2]
    · intro b hb
      simp [CodeTree.syms] at hb
      rw [getElem_set_sym, if_neg (fun e => hb e.symm)]
  | node r n tl tr hnode hl hr ihl ihr =>
    have hleaf := (nodeAt_ok hnode).1
    simp only [CodeTree.syms] at hn
    obtain ⟨hnl, hnr, hdis⟩ := List.nodup_append.mp hn
    cases room with
    | zero => simp [depth] at hd
    | succ room =>
      simp only [depth] at hd
      obtain ⟨c1, e1, p1, o1⟩ := ihl room (path ++ [false]) ct (by omega) hnl
      obtain ⟨c2, e2, p2, o2⟩ := ihr room (path ++ [true]) c1 (by omega) hnr
      refine ⟨c2, ?_, ?_, ?_⟩
      · simp [visit, hleaf, hnode, e1, e2, bind, Except.bind]
      · intro b p hp
        simp only [CodeTree.paths, List.mem_append, List.mem_map, Prod.mk.injEq] at hp
        rcases hp with ⟨x, hx, rfl, rfl⟩ | ⟨x, hx, rfl, rfl⟩
        · have hin : x.1 ∈ tl.syms := mem_syms_iff.mpr ⟨x.2, hx⟩
          rw [o2 _ (fun hin' => hdis _ hin _ hin' rfl), p1 _ _ hx]; simp
        · rw [p2 _ _ hx]; simp
      · intro b hb
        simp only [CodeTree.syms, List.mem_append, not_or] at hb
        rw [o2 b hb.2, o1 b hb.1]

theorem emptyTable_get (b : Sym) : emptyTable[b.toNat]'b.isLt = codeOf [] := by
  simp [emptyTable]

/-- DERIVE gives each leaf its path, or the digit 0 to the only leaf, and every other symbol the empty code word. -/
theorem derive_spec {nm : List Node} {root : Ref} {t : CodeTree} (h : Holds nm root t) (hn : t.syms.Nodup)
    (hsize : t.syms.length ≤ 256) :
    ∃ ct, derive nm root = .ok ct ∧
      (∀ b p, (b, p) ∈ t.paths → Code.digits (ct[b.toNat]'b.isLt) = wordOfPath root p) ∧
      (∀ b, b ∉ t.syms → Code.digits (ct[b.toNat]'b.isLt) = []) := by
  have hdep := depth_lt_syms t
  by_cases hl : isLeaf root = true
  · have ht := holds_of_leaf h hl
    subst ht
    refine ⟨emptyTable.set (sym root).toNat (codeOf singleCode) (sym root).isLt, by simp [derive, hl], ?_, ?_⟩
    · intro b p hp
      simp [CodeTree.paths] at hp
      rw [getElem_set_sym]
      simp only [hp.1, if_true, wordOfPath, hl]
      exact digits_codeOf _ (by simp [singleCode])
    · intro b hb
      simp [CodeTree.syms] at hb
      rw [getElem_set_sym, if_neg (fun e => hb e.symm), emptyTable_get, digits_codeOf_nil]
  · obtain ⟨ct, hv, hp, ho⟩ := visit_spec h 255 [] emptyTable (by omega) hn
    refine ⟨ct, by simp [derive, hl, hv], ?_, ?_⟩
    · intro b p hbp
      rw [hp b p hbp]
      have := paths_length_le_depth hbp
      simp only [List.nil_append, wordOfPath, hl]
      exact digits_codeOf p (by omega)
    · intro b hb
      rw [ho b hb, emptyTable_get, digits_codeOf_nil]

end Sys2Proof.Machine
end

