-- ==== Sys2Proof/Laws/Build.lean ====
section
/-! SUPPORT. What BUILD's parts do (spec/42_build.md R132 to R136): LEAVES, one turn of MERGE and the loop keep the
`Growing` relation between bank 0, the node memory and the trees under the queue's items; from it follows all that is
true of the finished tree. -/

namespace Sys2Proof.Machine

open Sys2Proof

/-! ### Counting over the symbols -/

theorem allSyms_getElem (i : Nat) (h : i < allSyms.length) : allSyms[i] = BitVec.ofNat 8 i := by
  simp [allSyms]

theorem allSyms_length : allSyms.length = 256 := by simp [allSyms]

theorem mem_allSyms (b : Sym) : b ∈ allSyms := by
  have := b.isLt
  simp only [allSyms, List.mem_map, List.mem_range]
  exact ⟨b.toNat, by omega, by simp⟩

theorem allSyms_nodup : allSyms.Nodup := by
  rw [List.nodup_iff_injective_get]
  intro i j h
  have hi := i.isLt
  have hj := j.isLt
  simp only [allSyms_length] at hi hj
  simp only [List.get_eq_getElem, allSyms_getElem] at h
  have := congrArg BitVec.toNat h
  simp at this
  exact Fin.ext (by omega)

theorem ftAt_eq (s : State) (b : Sym) : s.ftAt b = ftGet s.ft b := rfl

theorem ft_toList (ft : Vector Weight 256) : ft.toList = allSyms.map (ftGet ft) := by
  apply List.ext_getElem
  · simp [allSyms_length]
  · intro i h1 h2
    have : i < 256 := by simpa using h1
    simp [allSyms_getElem, ftGet]
    congr 1
    omega

theorem counted_eq (ft : Vector Weight 256) : counted ft = (allSyms.map fun b => (ftGet ft b).toNat).sum := by
  simp [counted, ft_toList, Function.comp_def]

/-- The symbols with non-zero count, in ascending order. -/
def countedSyms (ft : Vector Weight 256) : List Sym := allSyms.filter fun b => ftGet ft b ≠ 0

theorem mem_countedSyms {ft : Vector Weight 256} {b : Sym} : b ∈ countedSyms ft ↔ ftGet ft b ≠ 0 := by
  simp [countedSyms, mem_allSyms]

theorem countedSyms_nodup (ft : Vector Weight 256) : (countedSyms ft).Nodup := allSyms_nodup.filter _

theorem distinct_eq (ft : Vector Weight 256) : distinct ft = (countedSyms ft).length := by
  rw [distinct, ft_toList, List.countP_map, countedSyms, List.countP_eq_length_filter]
  rfl

theorem distinct_le (ft : Vector Weight 256) : distinct ft ≤ 256 := by
  rw [distinct_eq, ← allSyms_length]; exact List.length_filter_le _ _

theorem sum_filter (l : List Sym) (ft : Vector Weight 256) :
    ((l.filter fun b => ftGet ft b ≠ 0).map fun b => (ftGet ft b).toNat).sum =
      (l.map fun b => (ftGet ft b).toNat).sum := by
  induction l with
  | nil => rfl
  | cons b l ih =>
    by_cases h : ftGet ft b = 0
    · rw [List.filter_cons_of_neg (by simp [h]), ih]; simp [h]
    · rw [List.filter_cons_of_pos (by simpa using h), List.map_cons, List.sum_cons, ih]; simp

theorem counted_countedSyms (ft : Vector Weight 256) :
    ((countedSyms ft).map fun b => (ftGet ft b).toNat).sum = counted ft := by
  rw [counted_eq, countedSyms, sum_filter]

theorem distinct_pos_of_counted {ft : Vector Weight 256} (h : counted ft ≠ 0) : 1 ≤ distinct ft := by
  rw [distinct_eq]
  by_contra hc
  have : countedSyms ft = [] := by
    apply List.eq_nil_of_length_eq_zero; omega
  rw [← counted_countedSyms, this] at h
  simp at h

/-! ### LEAVES (R132) -/

/-- The queue entry of a symbol's leaf. -/
def leafEntry (ft : Vector Weight 256) (b : Sym) : Entry := { key := ftGet ft b, item := leafRef b }

theorem leaves_spec (ft : Vector Weight 256) (bs : List Sym) (h : List Entry) :
    ∃ h', leaves ft bs h = .ok h' ∧
      h'.Perm (h ++ (bs.filter fun b => ftGet ft b ≠ 0).map (leafEntry ft)) ∧ (HeapOk h → HeapOk h') := by
  induction bs generalizing h with
  | nil => exact ⟨h, rfl, by simp, id⟩
  | cons b bs ih =>
    by_cases hb : ftGet ft b = 0
    · obtain ⟨h', e, p, o⟩ := ih h
      refine ⟨h', ?_, by simpa [hb] using p, o⟩
      unfold leaves; rw [if_pos hb]; exact e
    · obtain ⟨h1, e1, p1, o1⟩ := heapInsert_spec h (leafEntry ft b)
      obtain ⟨h', e, p, o⟩ := ih h1
      refine ⟨h', ?_, ?_, fun hh => o (o1 hh)⟩
      · unfold leaves; rw [if_neg hb]
        show (heapInsert h (leafEntry ft b)).bind _ = _
        rw [e1]; exact e
      · refine p.trans ?_
        simp only [hb, ne_eq, not_false_eq_true, decide_true, List.filter_cons_of_pos, List.map_cons]
        refine (List.Perm.append_right _ p1).trans ?_
        exact List.perm_middle.symm

/-! ### MERGE (R133) -/

/-- How bank 0 and the node memory stand to the trees under the queue's items while BUILD runs: `ps` pairs each live
entry with the tree under its item. -/
structure Growing (ft : Vector Weight 256) (f : Forest) (ps : List (Entry × CodeTree)) : Prop where
  perm : f.heap.Perm (ps.map (·.1))
  heapOk : HeapOk f.heap
  holds : ∀ p ∈ ps, Holds f.nm p.1.item p.2
  weight : ∀ p ∈ ps, weightIn ft f.nm p.1.item = .ok p.1.key
  syms : (ps.flatMap (·.2.syms)).Perm (countedSyms ft)
  sum : (ps.map fun p => p.1.key.toNat).sum = counted ft
  count : f.nm.length + ps.length = distinct ft
  nodes : ∀ n ∈ f.nm, ∃ wl wr, weightIn ft f.nm n.left = .ok wl ∧ weightIn ft f.nm n.right = .ok wr ∧
    n.weight.toNat = wl.toNat + wr.toNat ∧ wl ≤ wr
  acyclic : ∀ k n, f.nm[k]? = some n → ∀ r, r = n.left ∨ r = n.right →
    isLeaf r = true ∨ ∃ j, j < k ∧ r = internalRef j
  items : ∀ p ∈ ps, isLeaf p.1.item = true ∨ ∃ j, j < f.nm.length ∧ p.1.item = internalRef j
  last : f.nm ≠ [] → ∃ p ∈ ps, p.1.item = internalRef (f.nm.length - 1)

theorem Growing.reorder {ft : Vector Weight 256} {f : Forest} {ps qs : List (Entry × CodeTree)}
    (g : Growing ft f ps) (h : ps.Perm qs) : Growing ft f qs where
  perm := g.perm.trans (h.map _)
  heapOk := g.heapOk
  holds := fun p hp => g.holds p (h.mem_iff.mpr hp)
  weight := fun p hp => g.weight p (h.mem_iff.mpr hp)
  syms := ((h.flatMap_right _).symm).trans g.syms
  sum := by rw [← g.sum]; exact ((h.map _).sum_eq).symm
  count := by rw [← h.length_eq]; exact g.count
  nodes := g.nodes
  acyclic := g.acyclic
  items := fun p hp => g.items p (h.mem_iff.mpr hp)
  last := fun hn => by
    obtain ⟨p, hp, e⟩ := g.last hn
    exact ⟨p, h.mem_iff.mp hp, e⟩

/-- An entry at the head of a permutation of `ps`'s entries comes with a tree. -/
theorem pick {ps : List (Entry × CodeTree)} {m : Entry} {h : List Entry} (hp : (m :: h).Perm (ps.map (·.1))) :
    ∃ t qs, ps.Perm ((m, t) :: qs) ∧ h.Perm (qs.map (·.1)) := by
  have hm : m ∈ ps.map (·.1) := hp.mem_iff.mp (by simp)
  obtain ⟨p, hps, rfl⟩ := List.mem_map.mp hm
  obtain ⟨l1, l2, rfl⟩ := List.append_of_mem hps
  refine ⟨p.2, l1 ++ l2, List.perm_middle, ?_⟩
  have : (l1 ++ p :: l2).map (·.1) |>.Perm (p.1 :: (l1 ++ l2).map (·.1)) := (List.perm_middle.map _)
  exact (hp.trans this).cons_inv

/-- Which entries MERGE takes first and second. -/
structure Picked (ft : Vector Weight 256) (f f' : Forest) (pa pb : Entry × CodeTree)
    (qs : List (Entry × CodeTree)) : Prop where
  before : Growing ft f (pa :: pb :: qs)
  le1 : pa.1.key ≤ pb.1.key
  le2 : ∀ p ∈ qs, pb.1.key ≤ p.1.key
  after : Growing ft f' (({ key := pa.1.key + pb.1.key, item := internalRef f.nm.length },
    .node pa.2 pb.2) :: qs)
  noOverflow : (pa.1.key + pb.1.key).toNat = pa.1.key.toNat + pb.1.key.toNat
  nm : f'.nm = f.nm ++ [{ weight := pa.1.key + pb.1.key, left := pa.1.item, right := pb.1.item }]
  draws : f'.draws = f.draws + 2
  heapPerm : f'.heap.length + 1 = f.heap.length

/-- One turn of MERGE answers: it takes the two lightest trees and puts their parent back. -/
theorem mergeOnce_spec (p : TiePolicy) {ft : Vector Weight 256} {f : Forest} {ps : List (Entry × CodeTree)}
    (g : Growing ft f ps) (hlen : 1 < f.heap.length) (hw : counted ft < 2 ^ 32) :
    ∃ f' pa pb qs, mergeOnce p f = .ok f' ∧ ps.Perm (pa :: pb :: qs) ∧ Picked ft f f' pa pb qs := by
  have hne : f.heap ≠ [] := by intro e; simp [e] at hlen
  obtain ⟨a, h1, e1, s1, p1, o1⟩ := extractMin_spec (tieChoice p f.draws) f.heap hne
  have hl1 : f.heap.length = h1.length + 1 := by rw [p1.length_eq]; simp
  have hne1 : h1 ≠ [] := by intro e; simp [e] at hl1; omega
  obtain ⟨b, h2, e2, s2, p2, o2⟩ := extractMin_spec (tieChoice p (f.draws + 1)) h1 hne1
  obtain ⟨h3, e3, p3, o3⟩ := heapInsert_spec h2 { key := a.key + b.key, item := internalRef f.nm.length }
  obtain ⟨ta, ps1, q1, r1⟩ := pick (p1.symm.trans g.perm)
  obtain ⟨tb, qs, q2, r2⟩ := pick (p2.symm.trans r1)
  have hperm : ps.Perm ((a, ta) :: (b, tb) :: qs) := q1.trans (q2.cons _)
  have g' := g.reorder hperm
  have hmina := heap_root_le g.heapOk s1
  have hminb := heap_root_le (o1 g.heapOk) s2
  have hbmem : b ∈ h1 := p2.mem_iff.mpr (by simp)
  have hab : a.key ≤ b.key := hmina b (p1.mem_iff.mpr (by simp [hbmem]))
  have hbq : ∀ x ∈ qs, b.key ≤ x.1.key := by
    intro x hx
    have : x.1 ∈ h2 := r2.mem_iff.mpr (List.mem_map_of_mem hx)
    exact hminb _ (p2.mem_iff.mpr (by simp [this]))
  have hsum := g'.sum
  simp only [List.map_cons, List.sum_cons] at hsum
  have hno : (a.key + b.key).toNat = a.key.toNat + b.key.toNat := by
    rw [BitVec.toNat_add]; apply Nat.mod_eq_of_lt; omega
  have hcount := g'.count
  have hd := distinct_le ft
  simp only [List.length_cons] at hcount
  have hnm : f.nm.length < 255 := by omega
  have hwa := g'.weight (a, ta) (by simp)
  have hwb := g'.weight (b, tb) (by simp)
  have hnew : nodeAt (f.nm ++ [{ weight := a.key + b.key, left := a.item, right := b.item }])
      (internalRef f.nm.length) = .ok { weight := a.key + b.key, left := a.item, right := b.item } := by
    rw [nodeAt_internalRef (by simp) hnm]; simp
  refine ⟨{ heap := h3, nm := f.nm ++ [{ weight := a.key + b.key, left := a.item, right := b.item }],
            draws := f.draws + 2 }, (a, ta), (b, tb), qs, ?_, hperm, ?_⟩
  · simp only [mergeOnce, e1, e2, e3, bind, Except.bind]
  · refine ⟨g', hab, hbq, ?_, hno, rfl, rfl, ?_⟩
    · constructor
      · simpa using p3.trans (r2.cons _)
      · exact o3 (o2 (o1 g.heapOk))
      · intro x hx
        rcases List.mem_cons.mp hx with rfl | hx
        · exact .node _ _ _ _ hnew (holds_append (g'.holds (a, ta) (by simp)))
            (holds_append (g'.holds (b, tb) (by simp)))
        · exact holds_append (g'.holds x (by simp [hx]))
      · intro x hx
        rcases List.mem_cons.mp hx with rfl | hx
        · simp [weightIn, isLeaf_internalRef (show f.nm.length < 256 by omega), hnew]
        · exact weightIn_append (g'.weight x (by simp [hx]))
      · have := g'.syms
        simp only [List.flatMap_cons, CodeTree.syms, List.append_assoc] at this ⊢
        exact this
      · simp only [List.map_cons, List.sum_cons, hno]
        omega
      · simp only [List.length_append, List.length_cons, List.length_nil]
        omega
      · intro n hn
        rcases List.mem_append.mp hn with hn | hn
        · obtain ⟨wl, wr, x1, x2, x3, x4⟩ := g.nodes n hn
          exact ⟨wl, wr, weightIn_append x1, weightIn_append x2, x3, x4⟩
        · simp only [List.mem_singleton] at hn
          subst hn
          exact ⟨a.key, b.key, weightIn_append hwa, weightIn_append hwb, hno, hab⟩
      · intro k n hk r hr
        by_cases hkl : k < f.nm.length
        · rw [List.getElem?_append_left hkl] at hk
          exact g.acyclic k n hk r hr
        · rw [List.getElem?_append_right (by omega)] at hk
          have hk0 : k = f.nm.length := by
            by_contra hc
            rw [List.getElem?_eq_none (by simp; omega)] at hk
            cases hk
          subst hk0
          simp at hk
          subst hk
          rcases hr with rfl | rfl
          · exact g'.items (a, ta) (by simp)
          · exact g'.items (b, tb) (by simp)
      · intro x hx
        rcases List.mem_cons.mp hx with rfl | hx
        · exact .inr ⟨f.nm.length, by simp, rfl⟩
        · rcases g'.items x (by simp [hx]) with hl | ⟨j, hj, e⟩
          · exact .inl hl
          · exact .inr ⟨j, by simp; omega, e⟩
      · intro _
        refine ⟨_, List.mem_cons_self, ?_⟩; simp
    · have l1 := p3.length_eq
      have l2 := p2.length_eq
      simp only [List.length_cons] at l1 l2
      show h3.length + 1 = f.heap.length
      omega

/-- MERGE answers, and leaves exactly one tree. -/
theorem merge_spec (p : TiePolicy) {ft : Vector Weight 256} (fuel : Nat) {f : Forest}
    {ps : List (Entry × CodeTree)} (g : Growing ft f ps) (h1 : 1 ≤ f.heap.length)
    (hf : f.heap.length ≤ fuel + 1) (hw : counted ft < 2 ^ 32) :
    ∃ f' pt, merge p fuel f = .ok f' ∧ Growing ft f' [pt] ∧ f'.heap.length = 1 := by
  have single : ∀ (f : Forest) (ps : List (Entry × CodeTree)), Growing ft f ps → f.heap.length = 1 →
      ∃ pt, Growing ft f [pt] := by
    intro f ps g hl
    have := g.perm.length_eq
    rw [hl, List.length_map] at this
    obtain ⟨pt, rfl⟩ := List.length_eq_one_iff.mp this.symm
    exact ⟨pt, g⟩
  induction fuel generalizing f ps with
  | zero =>
    obtain ⟨pt, g'⟩ := single f ps g (by omega)
    exact ⟨f, pt, rfl, g', by omega⟩
  | succ fuel ih =>
    by_cases hlt : 1 < f.heap.length
    · obtain ⟨f', pa, pb, qs, e, _, hp⟩ := mergeOnce_spec p g hlt hw
      have hlen := hp.heapPerm
      obtain ⟨f'', pt, e', g', hl⟩ := ih hp.after (by omega) (by omega)
      refine ⟨f'', pt, ?_, g', hl⟩
      simp [merge, hlt, e, e', bind, Except.bind]
    · obtain ⟨pt, g'⟩ := single f ps g (by omega)
      exact ⟨f, pt, by simp [merge, hlt], g', by omega⟩

/-- The forest that LEAVES hands to MERGE. -/
theorem leaves_growing (ft : Vector Weight 256) (draws : Nat) :
    ∃ h, leaves ft allSyms [] = .ok h ∧
      Growing ft { heap := h, nm := [], draws := draws }
        ((countedSyms ft).map fun b => (leafEntry ft b, .leaf b)) := by
  obtain ⟨h, e, p, o⟩ := leaves_spec ft allSyms []
  refine ⟨h, e, ?_⟩
  constructor
  · simpa [countedSyms, Function.comp_def] using p
  · exact o heapOk_nil
  · intro x hx
    obtain ⟨b, _, rfl⟩ := List.mem_map.mp hx
    have := Holds.leaf (nm := []) (leafRef b) (isLeaf_leafRef b)
    rwa [sym_leafRef] at this
  · intro x hx
    obtain ⟨b, _, rfl⟩ := List.mem_map.mp hx
    exact weightIn_leafRef ft [] b
  · simp [List.flatMap_map, CodeTree.syms]
  · rw [← counted_countedSyms]; simp [Function.comp_def, leafEntry]
  · simp [distinct_eq]
  · intro n hn; simp at hn
  · intro k n hk; simp at hk
  · intro x hx
    obtain ⟨b, _, rfl⟩ := List.mem_map.mp hx
    exact .inl (isLeaf_leafRef b)
  · intro hn; simp at hn

/-- What BUILD leaves when it has run over `ft`. -/
structure Built (ft : Vector Weight 256) (t : Tree) : Prop where
  heap : t.heap = []
  tree : ∃ ct, Holds t.nm t.root ct ∧ ct.syms.Nodup ∧ (∀ b, b ∈ ct.syms ↔ ftGet ft b ≠ 0) ∧
    (∀ b p, (b, p) ∈ ct.paths → Code.digits (t.ct[b.toNat]'b.isLt) = wordOfPath t.root p)
  unused : ∀ b, ftGet ft b = 0 → Code.digits (t.ct[b.toNat]'b.isLt) = []
  rootWeight : ∃ w, weightIn ft t.nm t.root = .ok w ∧ w.toNat = counted ft
  nodes : ∀ n ∈ t.nm, ∃ wl wr, weightIn ft t.nm n.left = .ok wl ∧ weightIn ft t.nm n.right = .ok wr ∧
    n.weight.toNat = wl.toNat + wr.toNat ∧ wl ≤ wr
  acyclic : ∀ k n, t.nm[k]? = some n → ∀ r, r = n.left ∨ r = n.right →
    isLeaf r = true ∨ ∃ j, j < k ∧ r = internalRef j
  nodeCount : t.nm.length + 1 = distinct ft
  rootLast : if t.nm = [] then isLeaf t.root = true else t.root = internalRef (t.nm.length - 1)

/-- LEAVES leaves one entry per counted symbol. -/
theorem leaves_length {ft : Vector Weight 256} {h : List Entry} (e : leaves ft allSyms [] = .ok h) :
    h.length = distinct ft := by
  obtain ⟨h', e1, g⟩ := leaves_growing ft 0
  rw [e] at e1; cases e1
  have := g.perm.length_eq
  simp only [List.length_map] at this
  rw [distinct_eq]; exact this

/-- With more counted symbols than slots BUILD's computation stops at the first slot that is not there (log entry 18). -/
theorem buildTree_noSlot (c : Config) (ft : Vector Weight 256) (draws : Nat) (h : c.pqSlots < distinct ft) :
    buildTree c ft draws = .error (.noSlot (c.pqSlots + 1)) := by
  obtain ⟨l, e, -⟩ := leaves_growing ft draws
  simp [buildTree, e, leaves_length e, h, bind, Except.bind]

/-- BUILD's computation answers whenever something was counted, the counts fit 32 bits and the leaves fit the queue,
whatever the tie policy. -/
theorem buildTree_spec (c : Config) (ft : Vector Weight 256) (draws : Nat) (h0 : counted ft ≠ 0)
    (hw : counted ft < 2 ^ 32) (hs : distinct ft ≤ c.pqSlots) :
    ∃ t, buildTree c ft draws = .ok t ∧ Built ft t := by
  obtain ⟨h, e1, g1⟩ := leaves_growing ft draws
  have hlen : h.length = distinct ft := leaves_length e1
  have hpos := distinct_pos_of_counted h0
  obtain ⟨f, ⟨en, ct⟩, e2, g2, hl⟩ := merge_spec c.tiePolicy h.length g1 (by simp; omega) (by simp) hw
  have hne : f.heap ≠ [] := by intro e; simp [e] at hl
  obtain ⟨m, h', e3, s3, p3, _⟩ := extractMin_spec (tieChoice c.tiePolicy f.draws) f.heap hne
  have hh' : h' = [] := by
    have := p3.length_eq
    simp only [List.length_cons] at this
    exact List.eq_nil_of_length_eq_zero (by omega)
  subst hh'
  have hm : m = en := by
    have := (p3.symm.trans g2.perm)
    simpa using this
  subst hm
  have hholds := g2.holds (m, ct) (by simp)
  have hsyms : ct.syms.Perm (countedSyms ft) := by simpa using g2.syms
  have hnodup : ct.syms.Nodup := hsyms.nodup_iff.mpr (countedSyms_nodup ft)
  have hmem : ∀ b, b ∈ ct.syms ↔ ftGet ft b ≠ 0 := fun b => by rw [hsyms.mem_iff, mem_countedSyms]
  have hsz : ct.syms.length ≤ 256 := by
    rw [hsyms.length_eq, ← distinct_eq]; exact distinct_le ft
  obtain ⟨tab, e4, hpaths, hempty⟩ := derive_spec hholds hnodup hsz
  refine ⟨{ heap := [], nm := f.nm, root := m.item, ct := tab, draws := f.draws + 1 }, ?_, ?_⟩
  · simp [buildTree, e1, e2, e3, e4, bind, Except.bind, show ¬ c.pqSlots < h.length by omega]
  · constructor
    · rfl
    · exact ⟨ct, hholds, hnodup, hmem, hpaths⟩
    · intro b hb
      exact hempty b (fun hin => (hmem b).mp hin hb)
    · refine ⟨m.key, g2.weight (m, ct) (by simp), ?_⟩
      have := g2.sum
      simpa using this
    · exact g2.nodes
    · exact g2.acyclic
    · have := g2.count
      simpa using this
    · show if f.nm = [] then isLeaf m.item = true else m.item = internalRef (f.nm.length - 1)
      split
      · rename_i hnil
        rcases g2.items (m, ct) (by simp) with hl | ⟨j, hj, _⟩
        · exact hl
        · simp [hnil] at hj
      · rename_i hnil
        obtain ⟨x, hx, ex⟩ := g2.last hnil
        simp only [List.mem_singleton] at hx
        subst hx; exact ex

end Sys2Proof.Machine
end

