-- ==== Sys2Proof/Laws/Encode.lean ====
section
/-! SUPPORT. The bits and the fields of the six word formats (spec/30_encoding.md R81, R82): what the encoder writes into
each place of a word, and what the decoder reads back from it. -/

namespace Sys2Proof
theorem wordB_bit (op : BitVec 8) (b : Byte) (i : Nat) :
    (wordB op b).getLsbD i = if i < 8 then b.getLsbD i else if i < 56 then false else op.getLsbD (i - 56) := by
  show BitVec.getLsbD (w := 8 + 48 + 8) (op ++ (0 : BitVec 48) ++ b) i = _
  rw [BitVec.getLsbD_append, BitVec.getLsbD_append]
  simp only [show i - 8 < 48 ↔ i < 56 by omega, show i - 8 - 48 = i - 56 by omega]
  simp
theorem wordN_bit (op : BitVec 8) (i : Nat) :
    (wordN op).getLsbD i = if i < 56 then false else op.getLsbD (i - 56) := by
  show BitVec.getLsbD (w := 8 + 56) (op ++ (0 : BitVec 56)) i = _
  rw [BitVec.getLsbD_append]; simp
theorem wordC_bit (op c : BitVec 8) (i : Nat) :
    (wordC op c).getLsbD i = if i < 48 then false else if i < 56 then c.getLsbD (i - 48) else op.getLsbD (i - 56) := by
  show BitVec.getLsbD (w := 8 + 8 + 48) (op ++ c ++ (0 : BitVec 48)) i = _
  rw [BitVec.getLsbD_append, BitVec.getLsbD_append]
  simp only [show i - 48 < 8 ↔ i < 56 by omega, show i - 48 - 8 = i - 56 by omega]
  simp
theorem wordCW_bit (op c : BitVec 8) (v : Val) (i : Nat) :
    (wordCW op c v).getLsbD i =
      if i < 48 then v.getLsbD i else if i < 56 then c.getLsbD (i - 48) else op.getLsbD (i - 56) := by
  show BitVec.getLsbD (w := 8 + 8 + 48) (op ++ c ++ v) i = _
  rw [BitVec.getLsbD_append, BitVec.getLsbD_append]
  simp only [show i - 48 < 8 ↔ i < 56 by omega, show i - 48 - 8 = i - 56 by omega]
theorem wordQ_bit (op : BitVec 8) (q : Bank) (i : Nat) :
    (wordQ op q).getLsbD i =
      if i < 48 then false else if i < 49 then q.getLsbD (i - 48) else if i < 56 then false else op.getLsbD (i - 56) := by
  show BitVec.getLsbD (w := 8 + 7 + 1 + 48) (op ++ (0 : BitVec 7) ++ q ++ (0 : BitVec 48)) i = _
  rw [BitVec.getLsbD_append, BitVec.getLsbD_append, BitVec.getLsbD_append]
  simp only [show i - 48 < 1 ↔ i < 49 by omega, show i - 48 - 1 < 7 ↔ i < 56 by omega, show i - 48 - 1 - 7 = i - 56 by omega]
  simp
theorem wordQE_bit (op : BitVec 8) (q : Bank) (key : Weight) (item : Ref) (i : Nat) :
    (wordQE op q key item).getLsbD i =
      if i < 9 then item.getLsbD i else if i < 16 then false else if i < 48 then key.getLsbD (i - 16)
      else if i < 49 then q.getLsbD (i - 48) else if i < 56 then false else op.getLsbD (i - 56) := by
  show BitVec.getLsbD (w := 8 + 7 + 1 + 32 + 7 + 9) (op ++ (0 : BitVec 7) ++ q ++ key ++ (0 : BitVec 7) ++ item) i = _
  rw [BitVec.getLsbD_append, BitVec.getLsbD_append, BitVec.getLsbD_append, BitVec.getLsbD_append, BitVec.getLsbD_append]
  simp only [show i - 9 < 7 ↔ i < 16 by omega, show i - 9 - 7 = i - 16 by omega, show i - 16 < 32 ↔ i < 48 by omega,
    show i - 16 - 32 = i - 48 by omega,
    show i - 48 < 1 ↔ i < 49 by omega, show i - 48 - 1 < 7 ↔ i < 56 by omega, show i - 48 - 1 - 7 = i - 56 by omega]
  simp

/-- A field is known by its bits. -/
theorem field_eq {w : Word64} {a n : Nat} {x : BitVec n} (h : ∀ i < n, w.getLsbD (a + i) = x.getLsbD i) :
    w.extractLsb' a n = x := by
  apply BitVec.eq_of_getLsbD_eq; intro i hi
  simp [hi, h i hi]

theorem wordB_fields (op : BitVec 8) (b : Byte) :
    opField (wordB op b) = op ∧ aField (wordB op b) = 0 ∧ (wordB op b).extractLsb' 8 40 = 0 ∧
      (wordB op b).extractLsb' 0 8 = b := by
  refine ⟨?_, ?_, ?_, ?_⟩ <;> apply field_eq <;> intro i hi <;> rw [wordB_bit] <;>
    repeat (first | rw [if_pos (by omega)] | rw [if_neg (by omega)])
  all_goals simp
theorem wordN_fields (op : BitVec 8) : opField (wordN op) = op ∧ aField (wordN op) = 0 ∧ vField (wordN op) = 0 := by
  refine ⟨?_, ?_, ?_⟩ <;> apply field_eq <;> intro i hi <;> rw [wordN_bit] <;>
    repeat (first | rw [if_pos (by omega)] | rw [if_neg (by omega)])
  all_goals simp
theorem wordC_fields (op c : BitVec 8) : opField (wordC op c) = op ∧ aField (wordC op c) = c ∧ vField (wordC op c) = 0 := by
  refine ⟨?_, ?_, ?_⟩ <;> apply field_eq <;> intro i hi <;> rw [wordC_bit] <;>
    repeat (first | rw [if_pos (by omega)] | rw [if_neg (by omega)])
  all_goals simp
theorem wordCW_fields (op c : BitVec 8) (v : Val) :
    opField (wordCW op c v) = op ∧ aField (wordCW op c v) = c ∧ vField (wordCW op c v) = v := by
  refine ⟨?_, ?_, ?_⟩ <;> apply field_eq <;> intro i hi <;> rw [wordCW_bit] <;>
    repeat (first | rw [if_pos (by omega)] | rw [if_neg (by omega)])
  all_goals simp
theorem wordQ_fields (op : BitVec 8) (q : Bank) :
    opField (wordQ op q) = op ∧ (wordQ op q).extractLsb' 49 7 = 0 ∧ vField (wordQ op q) = 0 ∧
      (wordQ op q).extractLsb' 48 1 = q := by
  refine ⟨?_, ?_, ?_, ?_⟩ <;> apply field_eq <;> intro i hi <;> rw [wordQ_bit] <;>
    repeat (first | rw [if_pos (by omega)] | rw [if_neg (by omega)])
  all_goals simp
theorem wordQE_fields (op : BitVec 8) (q : Bank) (key : Weight) (item : Ref) :
    opField (wordQE op q key item) = op ∧ (wordQE op q key item).extractLsb' 49 7 = 0 ∧
      (wordQE op q key item).extractLsb' 9 7 = 0 ∧ (wordQE op q key item).extractLsb' 48 1 = q ∧
      (wordQE op q key item).extractLsb' 16 32 = key ∧ (wordQE op q key item).extractLsb' 0 9 = item := by
  refine ⟨?_, ?_, ?_, ?_, ?_, ?_⟩ <;> apply field_eq <;> intro i hi <;> rw [wordQE_bit] <;>
    repeat (first | rw [if_pos (by omega)] | rw [if_neg (by omega)])
  all_goals simp

/-- A bit of a word is a bit of the field it lies in. -/
theorem bit_of_field {w : Word64} {a n : Nat} {x : BitVec n} (h : w.extractLsb' a n = x) (i : Nat) (h1 : a ≤ i) (h2 : i < a + n) :
    w.getLsbD i = x.getLsbD (i - a) := by
  rw [← h, BitVec.getLsbD_extractLsb']
  have : i - a < n := by omega
  simp [this, show a + (i - a) = i by omega]


/-- A word that format N reads is the word of its command. -/
theorem formatN_ok {w : Word64} {i j} (h : formatN w i = .ok j) : i = j ∧ wordN (opField w) = w := by
  unfold formatN at h; split at h
  · rename_i hc; cases h; refine ⟨rfl, ?_⟩
    apply BitVec.eq_of_getLsbD_eq; intro k hk; rw [wordN_bit]
    split
    · by_cases h48 : k < 48
      · rw [bit_of_field (a := 0) (n := 48) hc.2 k (by omega) (by omega)]; simp
      · rw [bit_of_field (a := 48) (n := 8) hc.1 k (by omega) (by omega)]; simp
    · rw [bit_of_field (a := 56) (n := 8) (x := opField w) rfl k (by omega) (by omega)]
  · cases h

/-- A word that format B reads is the word of its command and operand. -/
theorem formatB_ok {w : Word64} {i j} (h : formatB w i = .ok j) : ∃ b, i b = j ∧ wordB (opField w) b = w := by
  unfold formatB at h; split at h
  · rename_i hc; cases h; refine ⟨_, rfl, ?_⟩
    apply BitVec.eq_of_getLsbD_eq; intro k hk; rw [wordB_bit]
    split
    · rw [bit_of_field (a := 0) (n := 8) rfl k (by omega) (by omega)]; simp
    · split
      · by_cases h48 : k < 48
        · rw [bit_of_field (a := 8) (n := 40) hc.2 k (by omega) (by omega)]; simp
        · rw [bit_of_field (a := 48) (n := 8) hc.1 k (by omega) (by omega)]; simp
      · rw [bit_of_field (a := 56) (n := 8) (x := opField w) rfl k (by omega) (by omega)]
  · cases h

/-- The same of format Q. -/
theorem formatQ_ok {w : Word64} {i j} (h : formatQ w i = .ok j) : ∃ b, i b = j ∧ wordQ (opField w) b = w := by
  unfold formatQ at h; split at h
  · rename_i hc; cases h; refine ⟨_, rfl, ?_⟩
    apply BitVec.eq_of_getLsbD_eq; intro k hk; rw [wordQ_bit]
    split
    · rw [bit_of_field (a := 0) (n := 48) hc.2 k (by omega) (by omega)]; simp
    · split
      · rw [bit_of_field (a := 48) (n := 1) rfl k (by omega) (by omega)]
      · split
        · rw [bit_of_field (a := 49) (n := 7) hc.1 k (by omega) (by omega)]; simp
        · rw [bit_of_field (a := 56) (n := 8) (x := opField w) rfl k (by omega) (by omega)]
  · cases h

/-- The same of format QE. -/
theorem formatQE_ok {w : Word64} {i j} (h : formatQE w i = .ok j) : ∃ b x y, i b x y = j ∧ wordQE (opField w) b x y = w := by
  unfold formatQE at h; split at h
  · rename_i hc; cases h; refine ⟨_, _, _, rfl, ?_⟩
    apply BitVec.eq_of_getLsbD_eq; intro k hk; rw [wordQE_bit]
    split
    · rw [bit_of_field (a := 0) (n := 9) rfl k (by omega) (by omega)]; simp
    · split
      · rw [bit_of_field (a := 9) (n := 7) hc.2 k (by omega) (by omega)]; simp
      · split
        · rw [bit_of_field (a := 16) (n := 32) rfl k (by omega) (by omega)]
        · split
          · rw [bit_of_field (a := 48) (n := 1) rfl k (by omega) (by omega)]
          · split
            · rw [bit_of_field (a := 49) (n := 7) hc.1 k (by omega) (by omega)]; simp
            · rw [bit_of_field (a := 56) (n := 8) (x := opField w) rfl k (by omega) (by omega)]
  · cases h

/-- The same of format C. -/
theorem formatC_ok {w : Word64} {i j} (h : formatC w i = .ok j) : ∃ b, i b = j ∧ wordC (opField w) b = w := by
  unfold formatC at h; split at h
  · rename_i hc; cases h; refine ⟨_, rfl, ?_⟩
    apply BitVec.eq_of_getLsbD_eq; intro k hk; rw [wordC_bit]
    split
    · rw [bit_of_field (a := 0) (n := 48) hc k (by omega) (by omega)]; simp
    · split
      · rw [bit_of_field (a := 48) (n := 8) (x := aField w) rfl k (by omega) (by omega)]
      · rw [bit_of_field (a := 56) (n := 8) (x := opField w) rfl k (by omega) (by omega)]
  · cases h

/-- The same of format CW. -/
theorem formatCW_ok {w : Word64} {i j} (h : formatCW w i = .ok j) : ∃ b v, i b v = j ∧ wordCW (opField w) b v = w := by
  unfold formatCW at h; cases h; refine ⟨_, _, rfl, ?_⟩
  apply BitVec.eq_of_getLsbD_eq; intro k hk; rw [wordCW_bit]
  split
  · rw [bit_of_field (a := 0) (n := 48) (x := vField w) rfl k (by omega) (by omega)]; simp
  · split
    · rw [bit_of_field (a := 48) (n := 8) (x := aField w) rfl k (by omega) (by omega)]
    · rw [bit_of_field (a := 56) (n := 8) (x := opField w) rfl k (by omega) (by omega)]

end Sys2Proof
end

