-- ==== Sys2Proof/Laws/Walk.lean ====
section
/-! SUPPORT. What the walk does with a code word (spec/43_textual_codec.md R150): the digits of a path, walked from the
reference that holds the tree, emit exactly the path's symbol and bring the walk back to ROOT. -/

namespace Sys2Proof.Machine

open Sys2Proof

/-- WALK changes nothing but WP and OUT, and goes on or raises STREAM_CORRUPTION with no state change, or reads an
entry that is not there. -/
theorem walk_cases (s : State) (d : Bool) :
    (∃ t, walk s d = .ok t ∧ (t = s.emit (sym s.root) ∨
      ∃ n, isLeaf s.root = false ∧ s.node s.wp = .ok n ∧
        ((isLeaf (if d then n.right else n.left) = true ∧
          t = { s.emit (sym (if d then n.right else n.left)) with wp := s.root }) ∨
         (isLeaf (if d then n.right else n.left) = false ∧
          t = { s with wp := if d then n.right else n.left })))) ∨
    (walk s d = .raised .streamCorruption s ∧ isLeaf s.root = true ∧ d = true) ∨
    (∃ f, walk s d = .stuck f ∧ isLeaf s.root = false ∧ s.node s.wp = .error f) := by
  unfold walk
  by_cases hl : isLeaf s.root = true
  · cases d
    · exact .inl ⟨_, by simp [hl], .inl rfl⟩
    · exact .inr (.inl ⟨by simp [hl], hl, rfl⟩)
  · have hl' : isLeaf s.root = false := by simpa using hl
    cases hn : s.node s.wp with
    | error f => exact .inr (.inr ⟨f, by simp [hl'], hl', rfl⟩)
    | ok n =>
      by_cases hc : isLeaf (if d then n.right else n.left) = true
      · exact .inl ⟨_, by simp [hl', hc], .inr ⟨n, hl', rfl, .inl ⟨hc, rfl⟩⟩⟩
      · have hc' : isLeaf (if d then n.right else n.left) = false := by simpa using hc
        exact .inl ⟨_, by simp [hl', hc'], .inr ⟨n, hl', rfl, .inr ⟨hc', rfl⟩⟩⟩

/-- One digit at an internal reference. -/
theorem walk_internal {s : State} {n : Node} (d : Bool) (hr : isLeaf s.root = false)
    (hn : nodeAt s.nm s.wp = .ok n) :
    walk s d = .ok (if isLeaf (if d then n.right else n.left) then
      { s.emit (sym (if d then n.right else n.left)) with wp := s.root }
      else { s with wp := if d then n.right else n.left }) := by
  have hn' : s.node s.wp = .ok n := hn
  by_cases hc : isLeaf (if d then n.right else n.left) = true <;> simp [walk, hr, hn', hc]

/-- A path walked from the reference that holds its tree emits the path's symbol and returns to ROOT. -/
theorem walkDigits_path {nm : List Node} {r : Ref} {t : CodeTree} (h : Holds nm r t) {b : Sym} {p : List Bool}
    (hp : (b, p) ∈ t.paths) (s : State) (hnm : s.nm = nm) (hroot : isLeaf s.root = false) (hr : isLeaf r = false)
    (hwp : s.wp = r) (rest : List Bool) :
    walkDigits (p ++ rest) s = walkDigits rest { s.emit b with wp := s.root } := by
  induction h generalizing p s with
  | leaf r h => simp_all
  | node r n tl tr hn hl hr' ihl ihr =>
    have hn' : nodeAt s.nm s.wp = .ok n := by rw [hnm, hwp]; exact hn
    simp only [CodeTree.paths, List.mem_append, List.mem_map, Prod.mk.injEq] at hp
    rcases hp with ⟨x, hx, rfl, rfl⟩ | ⟨x, hx, rfl, rfl⟩
    · simp only [List.cons_append, walkDigits, walk_internal false hroot hn', Bool.false_eq_true, if_false]
      by_cases hc : isLeaf n.left = true
      · have ht := holds_of_leaf hl hc
        subst ht
        simp [CodeTree.paths] at hx
        simp [hc, hx]
      · have hc' : isLeaf n.left = false := by simpa using hc
        simp only [hc', Bool.false_eq_true, if_false]
        exact ihl hx { s with wp := n.left } hnm hroot hc' rfl
    · simp only [List.cons_append, walkDigits, walk_internal true hroot hn', if_true]
      by_cases hc : isLeaf n.right = true
      · have ht := holds_of_leaf hr' hc
        subst ht
        simp [CodeTree.paths] at hx
        simp [hc, hx]
      · have hc' : isLeaf n.right = false := by simpa using hc
        simp only [hc', Bool.false_eq_true, if_false]
        exact ihr hx { s with wp := n.right } hnm hroot hc' rfl

/-- The code word of a counted symbol, walked from ROOT, emits exactly that symbol and ends at ROOT: the step of the
round trips R156 and R173. -/
theorem walkDigits_codeWord {s : State} (ht : TreeOk s) (hwp : s.wp = s.root) {b : Sym} (hb : s.ftAt b ≠ 0)
    (rest : List Bool) : walkDigits (s.codeWord b ++ rest) s = walkDigits rest (s.emit b) := by
  obtain ⟨t, hh, _, hmem, hw⟩ := ht.tree
  obtain ⟨p, hp⟩ := mem_syms_iff.mp ((hmem b).mpr hb)
  rw [hw b p hp]
  have hs : { s.emit b with wp := s.root } = s.emit b := by rw [← hwp]; rfl
  by_cases hl : isLeaf s.root = true
  · have := holds_of_leaf hh hl
    subst this
    simp [CodeTree.paths] at hp
    simp [wordOfPath, hl, singleCode, walkDigits, walk, hp]
  · have hl' : isLeaf s.root = false := by simpa using hl
    simp only [wordOfPath, hl', Bool.false_eq_true, if_false]
    rw [walkDigits_path hh hp s rfl hl' hl' hwp rest, hs]

/-- A counted symbol's code word has at least one digit (R88). -/
theorem codeWord_ne_nil {s : State} (ht : TreeOk s) {b : Sym} (hb : s.ftAt b ≠ 0) : s.codeWord b ≠ [] := by
  obtain ⟨t, hh, _, hmem, hw⟩ := ht.tree
  obtain ⟨p, hp⟩ := mem_syms_iff.mp ((hmem b).mpr hb)
  rw [hw b p hp]
  by_cases hl : isLeaf s.root = true
  · simp [wordOfPath, hl, singleCode]
  · have hl' : isLeaf s.root = false := by simpa using hl
    obtain ⟨n, tl, tr, _, _, _, rfl⟩ := holds_of_internal hh hl'
    simp only [wordOfPath, hl', Bool.false_eq_true, if_false]
    intro e
    subst e
    simp [CodeTree.paths] at hp

end Sys2Proof.Machine
end

