-- ==== Sys2Proof/Laws/Pack.lean ====
section
/-! SUPPORT. What the packer and the unpacker do with digit sequences (spec/44_packed_codec.md R165 to R171). -/

namespace Sys2Proof.Machine

open Sys2Proof

theorem count_bounds (p : PackBits) : 7 ≤ p.count ∧ p.count ≤ 8 := by cases p <;> decide

theorem g_bounds (s : State) : 7 ≤ s.g ∧ s.g ≤ 8 := count_bounds s.cfg.packBits

/-! ### Digits of a byte -/

theorem packedDigits_zero (b : Byte) : packedDigits 0 b = [] := rfl

/-- Shifting a digit in adds it after the digits that are there (R167, R65). -/
theorem packedDigits_shiftIn (k : Nat) (hk : k < 8) (b : Byte) (d : Bool) :
    packedDigits (k + 1) (b <<< 1 ||| BitVec.setWidth 8 (BitVec.ofBool d)) = packedDigits k b ++ [d] := by
  apply List.ext_getElem
  · simp [packedDigits]
  · intro i h1 h2
    simp only [packedDigits, List.length_map, List.length_range] at h1
    by_cases hi : i < k
    · rw [List.getElem_append_left (by simpa [packedDigits] using hi)]
      have e : k + 1 - 1 - i = (k - 1 - i) + 1 := by omega
      have e2 : k - 1 - i + 1 < 8 := by omega
      simp only [packedDigits, List.getElem_map, List.getElem_range, e, BitVec.getLsbD_or, BitVec.getLsbD_shiftLeft,
        BitVec.getLsbD_setWidth]
      simp [e2]
    · have hik : i = k := by omega
      subst hik
      rw [List.getElem_append_right (by simp [packedDigits])]
      cases d <;> simp [packedDigits]

/-- Filling up with zero digits leaves the digits that are there first (R169). -/
theorem packedDigits_fill (g k : Nat) (hk : k ≤ g) (hg : g ≤ 8) (b : Byte) :
    packedDigits g (b <<< (g - k)) = packedDigits k b ++ List.replicate (g - k) false := by
  apply List.ext_getElem
  · simp [packedDigits]; omega
  · intro i h1 h2
    simp only [packedDigits, List.length_map, List.length_range] at h1
    by_cases hi : i < k
    · rw [List.getElem_append_left (by simpa [packedDigits] using hi)]
      have e1 : g - 1 - i < 8 := by omega
      have e2 : ¬ g - 1 - i < g - k := by omega
      have e3 : g - 1 - i - (g - k) = k - 1 - i := by omega
      simp only [packedDigits, List.getElem_map, List.getElem_range, BitVec.getLsbD_shiftLeft, e1, e2, e3]
      simp
    · rw [List.getElem_append_right (by simp [packedDigits]; omega)]
      have e2 : g - 1 - i < g - k := by omega
      simp [packedDigits, BitVec.getLsbD_shiftLeft, e2]

theorem shiftIn_toNat (b : Byte) (d : Bool) :
    (b <<< 1 ||| BitVec.setWidth 8 (BitVec.ofBool d)).toNat ≤ 2 * b.toNat + 1 := by
  revert b d; decide

theorem ofNat_cons_length (d : Bool) (ds : List Bool) :
    BitVec.ofNat 48 (d :: ds).length = 1 + BitVec.ofNat 48 ds.length := by
  rw [List.length_cons, BitVec.ofNat_add]
  exact BitVec.add_comm _ _

/-! ### PUSH (R167) -/

/-- PUSH that fills the group emits it; `BITCOUNT + 1` in either case. -/
theorem push_full {s : State} {d : Bool} (h : s.pcnt.toNat + 1 = s.g) :
    push s d = { s with
      out := s.out ++ [s.pbuf <<< 1 ||| BitVec.setWidth 8 (BitVec.ofBool d)], pbuf := 0, pcnt := 0
      bitcount := inBitcount s.cfg.bitcountBits (s.bitcount.toNat + 1) } := by
  simp [push, h, State.emit, State.setBitcount]

/-- PUSH that does not fill the group holds the digit. -/
theorem push_part {s : State} {d : Bool} (h : s.pcnt.toNat + 1 ≠ s.g) :
    push s d = { s with
      pbuf := s.pbuf <<< 1 ||| BitVec.setWidth 8 (BitVec.ofBool d), pcnt := s.pcnt + 1
      bitcount := inBitcount s.cfg.bitcountBits (s.bitcount.toNat + 1) } := by
  simp [push, h, State.setBitcount]

/-- Pushing a code word appends bytes to OUT and touches only the packer and BITCOUNT; the bytes' digits and then the
digits still held are the digits held before and then the code word's; BITCOUNT counts them as far as its bits go. -/
theorem pushDigits_spec (ds : List Bool) (s : State) (hc : s.pcnt.toNat < s.g) :
    ∃ (bytes : List Byte) (buf : Byte) (cnt : BitVec 3) (bc : Val),
      pushDigits ds s = { s with out := s.out ++ bytes, pbuf := buf, pcnt := cnt, bitcount := bc } ∧
      bytes.flatMap (packedDigits s.g) ++ packedDigits cnt.toNat buf = packedDigits s.pcnt.toNat s.pbuf ++ ds ∧
      cnt.toNat < s.g ∧
      (s.pbuf.toNat < 2 ^ s.pcnt.toNat → buf.toNat < 2 ^ cnt.toNat ∧ ∀ b ∈ bytes, b.toNat < 2 ^ s.g) ∧
      (s.bitcount.toNat + ds.length < 2 ^ min s.cfg.bitcountBits 48 →
        bc.toNat = s.bitcount.toNat + ds.length) ∧
      (s.bitcount.toNat < 2 ^ s.cfg.bitcountBits → bc.toNat < 2 ^ s.cfg.bitcountBits) := by
  induction ds generalizing s with
  | nil =>
    exact ⟨[], s.pbuf, s.pcnt, s.bitcount, by simp [pushDigits], by simp, hc, fun h => ⟨h, by simp⟩, by simp, id⟩
  | cons d ds ih =>
    have hg := g_bounds s
    have hk : s.pcnt.toNat < 8 := by omega
    have hdig := packedDigits_shiftIn s.pcnt.toNat hk s.pbuf d
    have hsh := shiftIn_toNat s.pbuf d
    have bits : ∀ bc : Val, ((inBitcount s.cfg.bitcountBits (s.bitcount.toNat + 1)).toNat + ds.length <
        2 ^ min s.cfg.bitcountBits 48 →
          bc.toNat = (inBitcount s.cfg.bitcountBits (s.bitcount.toNat + 1)).toNat + ds.length) →
        s.bitcount.toNat + (d :: ds).length < 2 ^ min s.cfg.bitcountBits 48 →
        bc.toNat = s.bitcount.toNat + (d :: ds).length := by
      intro bc h hlt
      simp only [List.length_cons] at hlt ⊢
      rw [inBitcount_fits (by omega)] at h
      have := h (by omega)
      omega
    by_cases hfull : s.pcnt.toNat + 1 = s.g
    · have hp := push_full (d := d) hfull
      obtain ⟨bytes, buf, cnt, bc, e, ed, ec, eb, ek, el⟩ := ih (push s d)
        (by rw [hp]; show (0 : BitVec 3).toNat < s.g; simp; omega)
      rw [hp] at e ed ec eb ek el
      refine ⟨(s.pbuf <<< 1 ||| BitVec.setWidth 8 (BitVec.ofBool d)) :: bytes, buf, cnt, bc, ?_, ?_, ec, ?_,
        bits bc ek, fun _ => el (inBitcount_lt _ _)⟩
      · rw [pushDigits, hp, e]; simp
      · have : (0 : BitVec 3).toNat = 0 := rfl
        simp only [State.g, this, packedDigits_zero, List.nil_append] at ed
        rw [List.flatMap_cons, List.append_assoc]
        show packedDigits s.g _ ++ (bytes.flatMap (packedDigits s.cfg.packBits.count) ++ _) = _
        rw [ed, ← hfull, hdig]
        simp
      · intro hb
        obtain ⟨e1, e2⟩ := eb (by show (0 : Byte).toNat < 2 ^ (0 : BitVec 3).toNat; decide)
        refine ⟨e1, fun b hbm => ?_⟩
        rcases List.mem_cons.mp hbm with rfl | hbm
        · have : 2 ^ s.g = 2 * 2 ^ s.pcnt.toNat := by rw [← hfull, Nat.pow_succ]; omega
          omega
        · exact e2 b hbm
    · have hp := push_part (d := d) hfull
      have hcnt : (s.pcnt + 1).toNat = s.pcnt.toNat + 1 := by
        have : (1 : BitVec 3).toNat = 1 := rfl
        rw [BitVec.toNat_add, this]; omega
      obtain ⟨bytes, buf, cnt, bc, e, ed, ec, eb, ek, el⟩ := ih (push s d)
        (by rw [hp]; show (s.pcnt + 1).toNat < s.g; omega)
      rw [hp] at e ed ec eb ek el
      refine ⟨bytes, buf, cnt, bc, ?_, ?_, ec, ?_, bits bc ek, fun _ => el (inBitcount_lt _ _)⟩
      · rw [pushDigits, hp, e]
      · simp only [State.g] at ed ⊢
        rw [ed, hcnt, hdig]
        simp
      · intro hb
        refine eb ?_
        show (s.pbuf <<< 1 ||| BitVec.setWidth 8 (BitVec.ofBool d)).toNat < 2 ^ (s.pcnt + 1).toNat
        rw [hcnt, Nat.pow_succ]; omega

/-- The bytes a CMPS emits number `floor((PCNT_before + |c|) / G)` (R168). -/
theorem packed_count {g : Nat} (bytes : List Byte) (ds es : List Bool) {cnt : Nat} {buf : Byte}
    (h : bytes.flatMap (packedDigits g) ++ packedDigits cnt buf = es ++ ds) (hc : cnt < g) :
    bytes.length = (es.length + ds.length) / g := by
  have hl := congrArg List.length h
  have : (bytes.flatMap (packedDigits g)).length = bytes.length * g := by
    simp [List.length_flatMap, packedDigits_length, List.map_const', List.sum_replicate]
  simp only [List.length_append, this, packedDigits_length] at hl
  rw [← hl, Nat.mul_comm, Nat.mul_add_div (by omega), Nat.div_eq_of_lt hc]
  omega

/-! ### DCMPB's loop (R171) -/

/-- The loop over a byte's digits and then another's is the loop over the first and then over the second. -/
theorem unpack_append (ds es : List Bool) (s : State) :
    unpack (ds ++ es) s =
      match unpack ds s with
      | .ok t => unpack es t
      | .raised e t => .raised e t
      | .stuck f => .stuck f := by
  induction ds generalizing s with
  | nil => rfl
  | cons d ds ih =>
    simp only [List.cons_append, unpack]
    by_cases hu : s.urem = 0
    · simp only [hu, if_true]
      cases es with
      | nil => simp [unpack]
      | cons e es => simp [unpack, hu]
    · simp only [hu, if_false]
      cases walk s d with
      | ok t => exact ih _
      | raised e t => rfl
      | stuck f => rfl

/-- A budget of 0 ignores every digit (R171, decision D33). -/
theorem unpack_spent (ds : List Bool) (s : State) (h : s.urem = 0) : unpack ds s = .ok s := by
  cases ds <;> simp [unpack, h]

/-- A walk that went on changed only OUT and WP, by an amount that ROOT, NM and WP alone decide. -/
theorem walk_frame {s t : State} {d : Bool} (h : walk s d = .ok t) :
    ∃ (bytes : List Byte) (wp : Ref), t = { s with out := s.out ++ bytes, wp := wp } ∧
      ∀ u : State, u.root = s.root → u.nm = s.nm → u.wp = s.wp →
        walk u d = .ok { u with out := u.out ++ bytes, wp := wp } := by
  by_cases hl : isLeaf s.root = true
  · cases d with
    | true => simp [walk, hl] at h
    | false =>
      refine ⟨[sym s.root], s.wp, ?_, fun u h1 _ h3 => ?_⟩
      · simpa [walk, hl, State.emit] using h.symm
      · simp [walk, h1, hl, State.emit, ← h3]
  · have hl' : isLeaf s.root = false := by simpa using hl
    cases hn : nodeAt s.nm s.wp with
    | error f =>
      have hn' : s.node s.wp = .error f := hn
      simp [walk, hl', hn'] at h
    | ok n =>
      rw [walk_internal d hl' hn] at h
      by_cases hc : isLeaf (if d then n.right else n.left) = true
      · refine ⟨[sym (if d then n.right else n.left)], s.root, ?_, fun u h1 h2 h3 => ?_⟩
        · simpa [hc, State.emit] using h.symm
        · rw [walk_internal d (h1 ▸ hl') (by rw [h2, h3]; exact hn)]
          simp [hc, State.emit, h1]
      · refine ⟨[], if d then n.right else n.left, ?_, fun u h1 h2 h3 => ?_⟩
        · simpa [hc] using h.symm
        · rw [walk_internal d (h1 ▸ hl') (by rw [h2, h3]; exact hn)]
          simp [hc]

theorem walkDigits_frame {ds : List Bool} {s t : State} (h : walkDigits ds s = .ok t) :
    ∃ (bytes : List Byte) (wp : Ref), t = { s with out := s.out ++ bytes, wp := wp } ∧
      ∀ u : State, u.root = s.root → u.nm = s.nm → u.wp = s.wp →
        walkDigits ds u = .ok { u with out := u.out ++ bytes, wp := wp } := by
  induction ds generalizing s t with
  | nil =>
    simp only [walkDigits, Run.ok.injEq] at h
    subst h
    refine ⟨[], s.wp, by simp, fun u _ _ h3 => ?_⟩
    simp [walkDigits, ← h3]
  | cons d ds ih =>
    simp only [walkDigits] at h
    cases hw : walk s d with
    | raised e u => simp [hw] at h
    | stuck f => simp [hw] at h
    | ok v =>
      simp only [hw] at h
      obtain ⟨b1, w1, e1, f1⟩ := walk_frame hw
      obtain ⟨b2, w2, e2, f2⟩ := ih h
      subst e1
      refine ⟨b1 ++ b2, w2, by simpa using e2, fun u h1 h2 h3 => ?_⟩
      simp only [walkDigits, f1 u h1 h2 h3]
      rw [f2 { u with out := u.out ++ b1, wp := w1 } h1 h2 rfl]
      simp

/-- One unit spent of a budget that is not 0. -/
theorem spend_toNat {n : Val} (h : n ≠ 0) : (n - 1).toNat = n.toNat - 1 := by
  have h0 : n.toNat ≠ 0 := fun e => h (BitVec.eq_of_toNat_eq (by simpa using e))
  have h1 : (1 : Val) ≤ n := by
    show (1 : Val).toNat ≤ n.toNat
    have : (1 : Val).toNat = 1 := rfl
    omega
  rw [BitVec.toNat_sub_of_le h1]; rfl

/-- Within the budget, the loop walks the digits and spends one unit for each. -/
theorem unpack_walkDigits {ds : List Bool} {s t : State} (h : walkDigits ds s = .ok t)
    (hu : ds.length ≤ s.urem.toNat) (rest : List Bool) :
    unpack (ds ++ rest) s = unpack rest { t with urem := s.urem - BitVec.ofNat 48 ds.length } := by
  induction ds generalizing s t with
  | nil =>
    simp only [walkDigits, Run.ok.injEq] at h
    subst h
    simp
  | cons d ds ih =>
    simp only [List.length_cons] at hu
    have hne : s.urem ≠ 0 := by
      intro e
      rw [e] at hu
      simp at hu
    simp only [walkDigits] at h
    simp only [List.cons_append, unpack, hne, if_false]
    cases hw : walk s d with
    | raised e u => simp [hw] at h
    | stuck f => simp [hw] at h
    | ok u =>
      simp only [hw] at h
      have hsub := spend_toNat hne
      obtain ⟨b1, w1, e1, _⟩ := walk_frame hw
      obtain ⟨b2, w2, e2, f2⟩ := walkDigits_frame h
      have hur : u.urem = s.urem := by rw [e1]
      have hwalk := f2 { u with urem := u.urem - 1 } rfl rfl rfl
      show unpack (ds ++ rest) { u with urem := u.urem - 1 } = _
      rw [ih hwalk (by show ds.length ≤ (u.urem - 1).toNat; rw [hur, hsub]; omega), ofNat_cons_length, e2]
      congr 1
      simp [hur, BitVec.sub_sub]

/-- DCMPB's loop that used up its digits with budget left has walked them all, one unit of UREM for each (R171). -/
theorem unpack_ok_walk {ds : List Bool} {s t : State} (h : unpack ds s = .ok t) (hm : t.urem ≠ 0) :
    ∃ m, walkDigits ds s = .ok m ∧ ds.length < s.urem.toNat ∧
      t = { m with urem := s.urem - BitVec.ofNat 48 ds.length } := by
  induction ds generalizing s with
  | nil =>
    simp only [unpack, Run.ok.injEq] at h
    subst h
    have : s.urem.toNat ≠ 0 := fun e => hm (BitVec.eq_of_toNat_eq (by simpa using e))
    exact ⟨s, rfl, by simp; omega, by simp⟩
  | cons d ds ih =>
    simp only [unpack] at h
    split at h
    · rename_i h0
      simp only [Run.ok.injEq] at h
      exact absurd (h ▸ h0) hm
    · rename_i h0
      split at h
      · rename_i u hw
        obtain ⟨m, h1, h2, h3⟩ := ih h
        obtain ⟨b1, w1, e1, -⟩ := walk_frame hw
        subst e1
        obtain ⟨b2, w2, e2, f2⟩ := walkDigits_frame h1
        refine ⟨{ s with out := s.out ++ b1 ++ b2, wp := w2 }, ?_, ?_, ?_⟩
        · simp only [walkDigits, hw]
          exact f2 { s with out := s.out ++ b1, wp := w1 } rfl rfl rfl
        · have h4 := spend_toNat h0
          have h5 : ds.length < (s.urem - 1).toNat := h2
          simp only [List.length_cons]
          omega
        · rw [h3, e2, ofNat_cons_length]
          simp [BitVec.sub_sub]
      · cases h
      · cases h

end Sys2Proof.Machine
end

