-- ==== Sys2Proof/Laws/Exec.lean ====
section
/-! SUPPORT. How a completed command ends (spec/60_exceptions.md R186, R188, R194): `exec_ends` says once what every
command can do to the responses, ERR, OUT, the port and the tree. -/

namespace Sys2Proof.Machine

open Sys2Proof

/-- What a command that raises nothing leaves as it was, whichever it is. -/
structure Quiet (i : Instr) (s u : State) : Prop where
  resps : u.resps = s.resps
  port : u.port = s.port
  cfg : u.cfg = s.cfg
  out : ∃ bytes, u.out = s.out ++ bytes
  err : i ≠ .clr → u.err = s.err
  tree : s.phase ≠ .count → i ≠ .clr →
    u.ft = s.ft ∧ u.total = s.total ∧ u.nm = s.nm ∧ u.root = s.root ∧ u.ct = s.ct

theorem Quiet.refl (i : Instr) (s : State) : Quiet i s s :=
  ⟨rfl, rfl, rfl, ⟨[], by simp⟩, fun _ => rfl, fun _ _ => ⟨rfl, rfl, rfl, rfl, rfl⟩⟩

/-- Everything a completed command can be: one that answers, the end of an iteration, or one that raised. -/
inductive Ends (i : Instr) (s : State) : State → Prop where
  | answers (u : State) (v : Val) (h : Quiet i s u) : Ends i s (u.respond v)
  | iterEnd (h : i = .qIterNext) : Ends i s ({ s with iter := .valid } : State).respondDone
  | raises (e : Err) (h : e ∈ i.errors)
      (hg : (i ≠ .decEnd ∧ i ≠ .dcmpEnd ∧ ∀ b, i ≠ .dcmpb b) ∨ (e = .illegalCommand ∧ s.phase ∉ i.phases)) :
      Ends i s (s.raise e)
  | closes (h : i = .decEnd ∧ s.phase = .dec ∨ i = .dcmpEnd ∧ s.phase = .dcmp) :
      Ends i s ({ s with phase := .ready, wp := s.root }.raise .streamCorruption)
  | unpacks (b : Byte) (ds es : List Bool) (d : Bool) (m : State) (hi : i = .dcmpb b) (hp : s.phase = .dcmp)
      (hb : packedDigits s.g b = ds ++ d :: es) (hu : unpack ds s = .ok m) (hm : m.urem ≠ 0)
      (hw : walk m d = .raised .streamCorruption m) (hq : Quiet i s m) : Ends i s (m.raise .streamCorruption)

/-- A digit that is walked is quiet. -/
theorem walk_quiet {i : Instr} {s t : State} {d : Bool} (h : walk s d = .ok t) : Quiet i s t := by
  obtain ⟨bytes, wp, rfl, -⟩ := walk_frame h
  exact ⟨rfl, rfl, rfl, ⟨bytes, rfl⟩, fun _ => rfl, fun _ _ => ⟨rfl, rfl, rfl, rfl, rfl⟩⟩

/-- DCMPB's loop changes only OUT, WP and UREM. -/
theorem unpack_ok_frame {ds : List Bool} {s t : State} (h : unpack ds s = .ok t) :
    ∃ (bytes : List Byte) (wp : Ref) (n : Val), t = { s with out := s.out ++ bytes, wp := wp, urem := n } := by
  induction ds generalizing s with
  | nil => simp only [unpack, Run.ok.injEq] at h; subst h; exact ⟨[], s.wp, s.urem, by simp⟩
  | cons d ds ih =>
    simp only [unpack] at h
    split at h
    · simp only [Run.ok.injEq] at h; subst h; exact ⟨[], s.wp, s.urem, by simp⟩
    · split at h
      · rename_i u hw
        obtain ⟨b1, w1, rfl, -⟩ := walk_frame hw
        obtain ⟨b2, w2, n2, rfl⟩ := ih h
        exact ⟨b1 ++ b2, w2, n2, by simp⟩
      · cases h
      · cases h

/-- DCMPB's loop raises at one digit, which it neither walks nor counts (R171). -/
theorem unpack_raised {ds : List Bool} {s t : State} {e : Err} (h : unpack ds s = .raised e t) :
    ∃ (as bs : List Bool) (d : Bool), ds = as ++ d :: bs ∧ unpack as s = .ok t ∧ t.urem ≠ 0 ∧
      walk t d = .raised .streamCorruption t ∧ e = .streamCorruption := by
  induction ds generalizing s with
  | nil => simp [unpack] at h
  | cons d ds ih =>
    simp only [unpack] at h
    split at h
    · cases h
    · rename_i hu
      split at h
      · rename_i u hw
        obtain ⟨as, bs, d', rfl, h1, h2, h3, h4⟩ := ih h
        exact ⟨d :: as, bs, d', rfl, by simp only [unpack, if_neg hu, hw, h1], h2, h3, h4⟩
      · rename_i e' u hw
        cases h
        rcases walk_cases s d with ⟨_, hh, _⟩ | ⟨hh, _⟩ | ⟨_, hh, _⟩
        · rw [hw] at hh; cases hh
        · rw [hw] at hh; cases hh
          exact ⟨[], ds, d, rfl, rfl, hu, hw, rfl⟩
        · rw [hw] at hh; cases hh
      · cases h

/-- ENC appends the digits' characters (R152). -/
theorem emitDigits_eq (ds : List Bool) (s : State) :
    emitDigits ds s = { s with out := s.out ++ ds.map asciiDigit } := by
  induction ds generalizing s with
  | nil => simp [emitDigits]
  | cons d ds ih => rw [emitDigits, ih]; simp [State.emit]

/-- PUSH changes only OUT, PBUF, PCNT and BITCOUNT. -/
theorem pushDigits_frame (ds : List Bool) (s : State) :
    ∃ (bytes : List Byte) (buf : Byte) (cnt : BitVec 3) (n : Val),
      pushDigits ds s = { s with out := s.out ++ bytes, pbuf := buf, pcnt := cnt, bitcount := n } := by
  induction ds generalizing s with
  | nil => exact ⟨[], s.pbuf, s.pcnt, s.bitcount, by simp [pushDigits]⟩
  | cons d ds ih =>
    obtain ⟨b, f, c, n, e⟩ := ih (push s d)
    rw [pushDigits, e]
    by_cases h : s.pcnt.toNat + 1 = s.g
    · exact ⟨_ :: b, f, c, n, by rw [push_full h]; simp; rfl⟩
    · exact ⟨b, f, c, n, by rw [push_part h]⟩

theorem illegal_ends {i : Instr} {s t : State} (h : s.illegal = .next t)
    (hi : Err.illegalCommand ∈ i.errors)
    (hg : (i ≠ .decEnd ∧ i ≠ .dcmpEnd ∧ ∀ b, i ≠ .dcmpb b) ∨ s.phase ∉ i.phases) : Ends i s t := by
  cases h; exact .raises _ hi (hg.imp_right fun hp => ⟨rfl, hp⟩)

theorem setBank_quiet {i : Instr} (s : State) (q : Bank) (h : List Entry) : Quiet i s (s.setBank q h) := by
  refine ⟨by simp, by simp, by simp, ⟨[], by simp⟩, by simp, by simp⟩

/-- Every command that completes ends in one of the five ways. -/
theorem exec_ends {i : Instr} {s t : State} (h : exec i s = .next t) : Ends i s t := by
  cases i with
  | clr =>
    cases h
    exact .answers _ _ ⟨rfl, rfl, rfl, ⟨[], by simp [State.cleared]⟩, by simp, by simp⟩
  | count b =>
    simp only [exec, execCount] at h
    split at h
    · rename_i hp; cases h
      exact .answers _ _ ⟨rfl, rfl, rfl, ⟨[], by simp [State.setFt]⟩, fun _ => rfl, fun hc => absurd hp.1 hc⟩
    · exact illegal_ends h (by simp [Instr.errors]) (.inl (by simp))
  | build =>
    simp only [exec, execBuild] at h
    split at h
    · rename_i hp
      split at h
      · cases h; exact .raises _ (by simp [Instr.errors]) (.inl (by simp))
      · split at h
        · cases h
          exact .answers _ _ ⟨by simp, by simp, by simp, ⟨[], by simp⟩, by simp, fun hc => absurd hp hc⟩
        · cases h
    · exact illegal_ends h (by simp [Instr.errors]) (.inl (by simp))
  | rdcsr c =>
    simp only [exec, execRdcsr] at h
    split at h
    · cases h; exact .answers _ _ (.refl _ _)
    · exact illegal_ends h (by simp [Instr.errors]) (.inl (by simp))
  | wrcsr c v =>
    simp only [exec, execWrcsr] at h
    split at h
    · cases h; exact .answers _ _ ⟨rfl, rfl, rfl, ⟨[], by simp⟩, fun _ => rfl, fun _ _ => ⟨rfl, rfl, rfl, rfl, rfl⟩⟩
    · exact illegal_ends h (by simp [Instr.errors]) (.inl (by simp))
  | qInsert q k x =>
    simp only [exec, execQInsert] at h
    split at h
    · exact illegal_ends h (by simp [Instr.errors]) (.inl (by simp))
    · split at h
      · exact illegal_ends h (by simp [Instr.errors]) (.inl (by simp))
      · split at h
        · cases h; exact .answers _ _ (setBank_quiet _ _ _)
        · cases h
  | qPeek q =>
    simp only [exec, execQPeek] at h
    split at h
    · cases h; exact .raises _ (by simp [Instr.errors]) (.inl (by simp))
    · split at h
      · cases h; exact .answers _ _ (.refl _ _)
      · cases h
  | qExtract q =>
    simp only [exec, execQExtract] at h
    split at h
    · cases h; exact .raises _ (by simp [Instr.errors]) (.inl (by simp))
    · split at h
      · cases h
        exact .answers _ _ ⟨by simp, by simp, by simp, ⟨[], by simp⟩, by simp, by simp⟩
      · cases h
  | qSize q => cases h; exact .answers _ _ (.refl _ _)
  | qEmpty q => cases h; exact .answers _ _ (.refl _ _)
  | qDup q =>
    simp only [exec, execQDup] at h
    split at h
    · split at h
      · cases h; exact .raises _ (by simp [Instr.errors]) (.inl (by simp))
      · cases h; exact .answers _ _ (setBank_quiet _ _ _)
    · cases h; exact .answers _ _ (setBank_quiet _ _ _)
  | qIterBegin q =>
    cases h
    exact .answers _ _ ⟨rfl, rfl, rfl, ⟨[], by simp⟩, fun _ => rfl, fun _ _ => ⟨rfl, rfl, rfl, rfl, rfl⟩⟩
  | qIterNext =>
    simp only [exec, execQIterNext] at h
    split at h
    · cases h
    · split at h
      · split at h
        · cases h
          exact .answers _ _ ⟨rfl, rfl, rfl, ⟨[], by simp⟩, fun _ => rfl, fun _ _ => ⟨rfl, rfl, rfl, rfl, rfl⟩⟩
        · cases h
      · cases h; exact .iterEnd rfl
  | qIterRemove => cases h; exact .raises _ (by simp [Instr.errors]) (.inl (by simp))
  | enc b =>
    simp only [exec, execEnc] at h
    split at h
    · cases h
      refine .answers _ _ ?_
      rw [emitDigits_eq]
      exact ⟨rfl, rfl, rfl, ⟨_, rfl⟩, fun _ => rfl, fun _ _ => ⟨rfl, rfl, rfl, rfl, rfl⟩⟩
    · exact illegal_ends h (by simp [Instr.errors]) (.inl (by simp))
  | decStart =>
    simp only [exec, execDecStart] at h
    split at h
    · cases h
      exact .answers _ _ ⟨rfl, rfl, rfl, ⟨[], by simp⟩, fun _ => rfl, fun _ _ => ⟨rfl, rfl, rfl, rfl, rfl⟩⟩
    · exact illegal_ends h (by simp [Instr.errors]) (.inl (by simp))
  | decb b =>
    have fin : ∀ d, finish s (walk s d) = .next t → Ends (.decb b) s t := by
      intro d h
      rcases walk_cases s d with ⟨u, hh, _⟩ | ⟨hh, _⟩ | ⟨_, hh, _⟩
      · rw [hh] at h; cases h; exact .answers _ _ (walk_quiet hh)
      · rw [hh] at h; cases h; exact .raises _ (by simp [Instr.errors]) (.inl (by simp))
      · rw [hh] at h; cases h
    simp only [exec, execDecb] at h
    split at h
    · split at h
      · exact fin _ h
      · split at h
        · exact fin _ h
        · cases h; exact .raises _ (by simp [Instr.errors]) (.inl (by simp))
    · exact illegal_ends h (by simp [Instr.errors]) (.inl (by simp))
  | decEnd =>
    simp only [exec, execDecEnd] at h
    split at h
    · split at h
      · cases h
        exact .answers _ _ ⟨rfl, rfl, rfl, ⟨[], by simp⟩, fun _ => rfl, fun _ _ => ⟨rfl, rfl, rfl, rfl, rfl⟩⟩
      · cases h; exact .closes (.inl ⟨rfl, ‹_›⟩)
    · exact illegal_ends h (by simp [Instr.errors]) (.inr (by simpa [Instr.phases]))
  | cmpStart =>
    simp only [exec, execCmpStart] at h
    split at h
    · cases h
      exact .answers _ _ ⟨rfl, rfl, rfl, ⟨[], by simp⟩, fun _ => rfl, fun _ _ => ⟨rfl, rfl, rfl, rfl, rfl⟩⟩
    · exact illegal_ends h (by simp [Instr.errors]) (.inl (by simp))
  | cmps b =>
    simp only [exec, execCmps] at h
    split at h
    · obtain ⟨x, f, c, n, e⟩ := pushDigits_frame (s.codeWord b) s
      rw [e] at h; cases h
      exact .answers _ _ ⟨rfl, rfl, rfl, ⟨x, rfl⟩, fun _ => rfl, fun _ _ => ⟨rfl, rfl, rfl, rfl, rfl⟩⟩
    · exact illegal_ends h (by simp [Instr.errors]) (.inl (by simp))
  | cmpEnd =>
    simp only [exec, execCmpEnd] at h
    split at h
    · cases h
      refine .answers _ _ ?_
      unfold flush
      split
      · exact ⟨rfl, rfl, rfl, ⟨_, rfl⟩, fun _ => rfl, fun _ _ => ⟨rfl, rfl, rfl, rfl, rfl⟩⟩
      · exact ⟨rfl, rfl, rfl, ⟨[], by simp⟩, fun _ => rfl, fun _ _ => ⟨rfl, rfl, rfl, rfl, rfl⟩⟩
    · exact illegal_ends h (by simp [Instr.errors]) (.inl (by simp))
  | dcmpStart =>
    simp only [exec, execDcmpStart] at h
    split at h
    · cases h
      exact .answers _ _ ⟨rfl, rfl, rfl, ⟨[], by simp⟩, fun _ => rfl, fun _ _ => ⟨rfl, rfl, rfl, rfl, rfl⟩⟩
    · exact illegal_ends h (by simp [Instr.errors]) (.inl (by simp))
  | dcmpb b =>
    simp only [exec, execDcmpb] at h
    split at h
    · cases hu : unpack (packedDigits s.g b) s with
      | ok u =>
        rw [hu] at h; cases h
        obtain ⟨x, w, n, rfl⟩ := unpack_ok_frame hu
        exact .answers _ _ ⟨rfl, rfl, rfl, ⟨x, rfl⟩, fun _ => rfl, fun _ _ => ⟨rfl, rfl, rfl, rfl, rfl⟩⟩
      | raised e u =>
        rw [hu] at h; cases h
        obtain ⟨as, bs, d, h1, h2, h3, h4, rfl⟩ := unpack_raised hu
        obtain ⟨x, w, n, rfl⟩ := unpack_ok_frame h2
        exact .unpacks b as bs d _ rfl ‹_› h1 h2 h3 h4
          ⟨rfl, rfl, rfl, ⟨x, rfl⟩, fun _ => rfl, fun _ _ => ⟨rfl, rfl, rfl, rfl, rfl⟩⟩
      | stuck f => rw [hu] at h; cases h
    · exact illegal_ends h (by simp [Instr.errors]) (.inr (by simpa [Instr.phases]))
  | dcmpEnd =>
    simp only [exec, execDcmpEnd] at h
    split at h
    · split at h
      · cases h
        exact .answers _ _ ⟨rfl, rfl, rfl, ⟨[], by simp⟩, fun _ => rfl, fun _ _ => ⟨rfl, rfl, rfl, rfl, rfl⟩⟩
      · cases h; exact .closes (.inr ⟨rfl, ‹_›⟩)
    · exact illegal_ends h (by simp [Instr.errors]) (.inr (by simpa [Instr.phases]))
end Sys2Proof.Machine
end

