-- ==== Sys2Proof/Laws/Huffman.lean ====
section
/-! SUPPORT. Why the greedy step of MERGE is optimal (spec/42_build.md R133, R138 b). A weighted code is a list of pairs
of a weight and a code word. `reduce`: every weighted code whose words are free of prefixes gives one for the weights
with the two smallest merged, cheaper by at least their sum. -/

namespace Sys2Proof.Machine

open Sys2Proof

/-- Neither word begins with the other. -/
def Apart (x y : List Bool) : Prop := ¬ x <+: y ∧ ¬ y <+: x

theorem Apart.symm {x y : List Bool} (h : Apart x y) : Apart y x := ⟨h.2, h.1⟩

/-- No word of the code begins another. -/
def PrefixFree (l : List (Nat × List Bool)) : Prop := l.Pairwise fun x y => Apart x.2 y.2

/-- The weighted length of a code. -/
def cost (l : List (Nat × List Bool)) : Nat := (l.map fun x => x.1 * x.2.length).sum

theorem PrefixFree.perm {l m : List (Nat × List Bool)} (h : PrefixFree l) (p : l.Perm m) : PrefixFree m :=
  (p.pairwise_iff (fun h => h.symm)).mp h

theorem cost_perm {l m : List (Nat × List Bool)} (p : l.Perm m) : cost l = cost m := (p.map _).sum_eq

@[simp] theorem cost_cons (x : Nat × List Bool) (l : List (Nat × List Bool)) :
    cost (x :: l) = x.1 * x.2.length + cost l := by simp [cost]

theorem prefixFree_cons {x : Nat × List Bool} {l : List (Nat × List Bool)} :
    PrefixFree (x :: l) ↔ (∀ y ∈ l, Apart x.2 y.2) ∧ PrefixFree l := List.pairwise_cons

/-- Being free of prefixes depends on the words alone. -/
theorem prefixFree_swap {u v : Nat} {x y : List Bool} {l : List (Nat × List Bool)}
    (h : PrefixFree ((u, x) :: (v, y) :: l)) : PrefixFree ((u, y) :: (v, x) :: l) := by
  simp only [prefixFree_cons, List.mem_cons, forall_eq_or_imp] at h ⊢
  exact ⟨⟨h.1.1.symm, h.2.1⟩, h.1.2, h.2.2⟩

/-- Giving the longer word to the smaller weight costs no more. -/
theorem cost_swap {u v : Nat} {x y : List Bool} (l : List (Nat × List Bool)) (hw : u ≤ v) (hl : x.length ≤ y.length) :
    cost ((u, y) :: (v, x) :: l) ≤ cost ((u, x) :: (v, y) :: l) := by
  simp only [cost_cons]
  obtain ⟨d, rfl⟩ := Nat.exists_eq_add_of_le hw
  obtain ⟨e, he⟩ := Nat.exists_eq_add_of_le hl
  rw [he]
  simp only [Nat.mul_add, Nat.add_mul]
  omega

theorem totalLength_perm {l m : List (Nat × List Bool)} (p : l.Perm m) :
    (l.map fun x => x.2.length).sum = (m.map fun x => x.2.length).sum := (p.map _).sum_eq

theorem mem_perm_cons {α : Type} {x : α} {l : List α} (h : x ∈ l) : ∃ m, l.Perm (x :: m) := by
  obtain ⟨a, b, rfl⟩ := List.append_of_mem h
  exact ⟨a ++ b, List.perm_middle⟩

theorem exists_longest (l : List (Nat × List Bool)) (h : l ≠ []) :
    ∃ x ∈ l, ∀ y ∈ l, y.2.length ≤ x.2.length := by
  induction l with
  | nil => exact absurd rfl h
  | cons a l ih =>
    by_cases hl : l = []
    · subst hl; exact ⟨a, by simp, by simp⟩
    · obtain ⟨x, hx, hmax⟩ := ih hl
      by_cases hc : x.2.length ≤ a.2.length
      · refine ⟨a, by simp, fun y hy => ?_⟩
        rcases List.mem_cons.mp hy with rfl | hy
        · exact Nat.le_refl _
        · exact Nat.le_trans (hmax y hy) hc
      · refine ⟨x, by simp [hx], fun y hy => ?_⟩
        rcases List.mem_cons.mp hy with rfl | hy
        · omega
        · exact hmax y hy

/-- A word that a longest word's stem begins is the stem with one more digit. -/
theorem stem_extends {x y : List Bool} {e : Bool} (h : x <+: y) (hl : y.length ≤ (x ++ [e]).length)
    (h1 : Apart (x ++ [e]) y) (h2 : Apart (x ++ [!e]) y) : False := by
  obtain ⟨z, rfl⟩ := h
  simp only [List.length_append, List.length_singleton] at hl
  match z, hl with
  | [], _ => exact h1.2 ⟨[e], by simp⟩
  | [f], _ =>
    by_cases hf : f = e
    · subst hf; exact h1.1 (List.prefix_refl _)
    · have : f = !e := by cases f <;> cases e <;> simp_all
      subst this; exact h2.1 (List.prefix_refl _)
  | _ :: _ :: _, hl => simp at hl

theorem stem_begins {x y : List Bool} {e : Bool} (h : y <+: x) (h1 : Apart (x ++ [e]) y) : False :=
  h1.2 (h.trans (List.prefix_append _ _))

/-- With two longest words that are siblings, the two smallest weights can be given those words. -/
theorem siblings_to_smallest {l : List (Nat × List Bool)} {wa wb : Nat} {ws : List Nat} {p q : Nat × List Bool}
    {R : List (Nat × List Bool)} (hpf : PrefixFree l) (hperm : l.Perm (p :: q :: R))
    (hmax : ∀ y ∈ l, y.2.length ≤ p.2.length) (hlen : q.2.length = p.2.length)
    (hws : (l.map (·.1)).Perm (wa :: wb :: ws)) (hab : wa ≤ wb) (hb : ∀ w ∈ ws, wb ≤ w) :
    ∃ (d d' : List Bool) (R' : List (Nat × List Bool)),
      ((d = p.2 ∧ d' = q.2) ∨ (d = q.2 ∧ d' = p.2)) ∧ PrefixFree ((wa, d) :: (wb, d') :: R') ∧
      (R'.map (·.1)).Perm ws ∧ cost ((wa, d) :: (wb, d') :: R') ≤ cost l ∧
      (∀ y ∈ R', y.2.length ≤ p.2.length) := by
  have hmax' : ∀ y ∈ p :: q :: R, y.2.length ≤ p.2.length := fun y hy => hmax y (hperm.mem_iff.mpr hy)
  have hpf' := hpf.perm hperm
  have hw' : ((p :: q :: R).map (·.1)).Perm (wa :: wb :: ws) := (hperm.map _).symm.trans hws
  have hmin : ∀ y ∈ p :: q :: R, wa ≤ y.1 := by
    intro y hy
    have : y.1 ∈ wa :: wb :: ws := hw'.mem_iff.mp (List.mem_map_of_mem hy)
    simp only [List.mem_cons] at this
    rcases this with h | h | h
    · omega
    · omega
    · have := hb _ h; omega
  -- the smallest weight gets one of the two words
  have step1 : ∃ (d d' : List Bool) (v : Nat) (R1 : List (Nat × List Bool)),
      ((d = p.2 ∧ d' = q.2) ∨ (d = q.2 ∧ d' = p.2)) ∧ PrefixFree ((wa, d) :: (v, d') :: R1) ∧
      (((wa, d) :: (v, d') :: R1).map (·.1)).Perm (wa :: wb :: ws) ∧
      cost ((wa, d) :: (v, d') :: R1) ≤ cost (p :: q :: R) ∧ (∀ y ∈ R1, y.2.length ≤ p.2.length) := by
    have ha0 : wa ∈ (p :: q :: R).map (·.1) := hw'.mem_iff.mpr (by simp)
    obtain ⟨a, ha1, ea⟩ := List.mem_map.mp ha0
    clear ha0
    subst ea
    rcases List.mem_cons.mp ha1 with rfl | ha2
    · exact ⟨a.2, q.2, q.1, R, .inl ⟨rfl, rfl⟩, hpf', hw', Nat.le_refl _, fun y hy => hmax' y (by simp [hy])⟩
    rcases List.mem_cons.mp ha2 with rfl | ha
    · refine ⟨a.2, p.2, p.1, R, .inr ⟨rfl, rfl⟩, hpf'.perm (List.Perm.swap _ _ _), ?_, ?_,
        fun y hy => hmax' y (by simp [hy])⟩
      · exact ((List.Perm.swap p a R).map (·.1)).trans hw'
      · exact Nat.le_of_eq (cost_perm (List.Perm.swap p a R))
    · obtain ⟨R1, hR⟩ := mem_perm_cons ha
      have e1 : (p :: q :: R).Perm (a :: p :: q :: R1) := by
        refine ((hR.cons q).cons p).trans ?_
        exact (((List.Perm.swap a q R1).cons p).trans (List.Perm.swap a p _))
      have hpf1 := prefixFree_swap (hpf'.perm e1)
      refine ⟨p.2, q.2, q.1, (p.1, a.2) :: R1, .inl ⟨rfl, rfl⟩, hpf1.perm ((List.Perm.swap _ _ _).cons _), ?_, ?_, ?_⟩
      · have := (e1.map (·.1)).symm.trans hw'
        refine List.Perm.trans ?_ this
        simp only [List.map_cons]
        exact (List.Perm.swap _ _ _).cons _
      · rw [cost_perm e1, cost_perm ((List.Perm.swap (p.1, a.2) (q.1, q.2) R1).cons (a.1, p.2))]
        exact cost_swap (u := a.1) (v := p.1) (x := a.2) (y := p.2) (q :: R1) (hmin p (by simp))
          (hmax' a (by simp [ha]))
      · intro y hy
        rcases List.mem_cons.mp hy with rfl | hy
        · exact hmax' a (by simp [ha])
        · exact hmax' y (by simp [hR.mem_iff, hy])
  obtain ⟨d, d', v, R1, hd, hpf1, hw1, hc1, hm1⟩ := step1
  have hc0 : cost (p :: q :: R) = cost l := (cost_perm hperm).symm
  have hdlen : d'.length = p.2.length := by rcases hd with ⟨_, rfl⟩ | ⟨_, rfl⟩ <;> omega
  have hw2 : (((v, d') :: R1).map (·.1)).Perm (wb :: ws) := by simpa using hw1
  have hminb : ∀ y ∈ (v, d') :: R1, wb ≤ y.1 := by
    intro y hy
    have : y.1 ∈ wb :: ws := hw2.mem_iff.mp (List.mem_map_of_mem hy)
    rcases List.mem_cons.mp this with h | h
    · omega
    · exact hb _ h
  have hbm0 : wb ∈ ((v, d') :: R1).map (·.1) := hw2.mem_iff.mpr (by simp)
  obtain ⟨b, hbm1, eb⟩ := List.mem_map.mp hbm0
  clear hbm0
  rw [hc0] at hc1
  rcases List.mem_cons.mp hbm1 with rfl | hbm
  · simp only at eb
    subst eb
    exact ⟨d, d', R1, hd, hpf1, by simpa using hw2, by omega, hm1⟩
  · obtain ⟨R2, hR⟩ := mem_perm_cons hbm
    have e1 : ((wa, d) :: (v, d') :: R1).Perm ((wa, d) :: b :: (v, d') :: R2) :=
      ((hR.cons (v, d')).trans (List.Perm.swap b (v, d') R2)).cons _
    have hpf2 := hpf1.perm e1
    rw [prefixFree_cons] at hpf2
    obtain ⟨hA, hB⟩ := hpf2
    subst eb
    have hpf3 : PrefixFree ((b.1, d') :: (v, b.2) :: R2) := prefixFree_swap (u := b.1) (v := v) (x := b.2) (y := d') hB
    refine ⟨d, d', (v, b.2) :: R2, hd, ?_, ?_, ?_, ?_⟩
    · rw [prefixFree_cons]
      refine ⟨fun y hy => ?_, hpf3⟩
      simp only [List.mem_cons] at hy
      rcases hy with rfl | rfl | hy
      · exact hA (v, d') (by simp)
      · exact hA b (by simp)
      · exact hA y (by simp [hy])
    · have := (((hR.cons (v, d')).trans (List.Perm.swap b (v, d') R2)).map (·.1)).symm.trans hw2
      simpa using this
    · have h2 : cost ((wa, d) :: (v, d') :: R1) = cost ((wa, d) :: b :: (v, d') :: R2) := cost_perm e1
      have h3 := cost_swap (u := b.1) (v := v) (x := b.2) (y := d') R2 (hminb (v, d') (by simp))
        (by rw [hdlen]; exact hm1 b hbm)
      simp only [cost_cons] at h2 h3 hc1 ⊢
      omega
    · intro y hy
      rcases List.mem_cons.mp hy with rfl | hy
      · exact hm1 b hbm
      · exact hm1 y (by rw [hR.mem_iff]; simp [hy])

/-- The exchange step: from any code for the weights, one for the weights with the two smallest merged, cheaper by at
least their sum. -/
theorem reduce (l : List (Nat × List Bool)) {wa wb : Nat} {ws : List Nat} (hpf : PrefixFree l)
    (hws : (l.map (·.1)).Perm (wa :: wb :: ws)) (hab : wa ≤ wb) (hb : ∀ w ∈ ws, wb ≤ w) :
    ∃ l', PrefixFree l' ∧ (l'.map (·.1)).Perm ((wa + wb) :: ws) ∧ cost l' + (wa + wb) ≤ cost l := by
  generalize hn : (l.map fun x => x.2.length).sum = n
  induction n using Nat.strongRecOn generalizing l with
  | ind n ih =>
    have hlen : l.length = ws.length + 2 := by simpa using hws.length_eq
    have hne : l ≠ [] := by intro e; simp [e] at hlen
    obtain ⟨p, hp, hmax⟩ := exists_longest l hne
    obtain ⟨rest, hrest⟩ := mem_perm_cons hp
    have hpf1 := hpf.perm hrest
    rw [prefixFree_cons] at hpf1
    have hrl : rest.length = ws.length + 1 := by have := hrest.length_eq; simp at this; omega
    have hpne : p.2 ≠ [] := by
      intro e
      obtain ⟨y, hy⟩ := List.exists_mem_of_length_pos (show 0 < rest.length by omega)
      exact (hpf1.1 y hy).1 (by rw [e]; exact List.nil_prefix)
    obtain ⟨x, e, hxe⟩ : ∃ x e, p.2 = x ++ [e] := ⟨_, _, (List.dropLast_append_getLast hpne).symm⟩
    by_cases hsib : ∃ q ∈ rest, q.2 = x ++ [!e]
    · obtain ⟨q, hq, hqe⟩ := hsib
      obtain ⟨R, hR⟩ := mem_perm_cons hq
      have hlq : q.2.length = p.2.length := by rw [hqe, hxe]; simp
      obtain ⟨d, d', R', hd, hpf2, hw2, hc2, hm2⟩ := siblings_to_smallest hpf (hrest.trans (hR.cons p)) hmax hlq hws
        hab hb
      have hdd : ∃ f, d = x ++ [f] ∧ d' = x ++ [!f] := by
        rcases hd with ⟨rfl, rfl⟩ | ⟨rfl, rfl⟩
        · exact ⟨e, hxe, hqe⟩
        · exact ⟨!e, hqe, by rw [hxe]; simp⟩
      obtain ⟨f, rfl, rfl⟩ := hdd
      simp only [prefixFree_cons, List.mem_cons, forall_eq_or_imp] at hpf2
      refine ⟨(wa + wb, x) :: R', ?_, ?_, ?_⟩
      · rw [prefixFree_cons]
        refine ⟨fun y hy => ⟨fun hxy => ?_, fun hyx => ?_⟩, hpf2.2.2⟩
        · exact stem_extends hxy (by have := hm2 y hy; rw [hxe] at this; simpa using this) (hpf2.1.2 y hy)
            (hpf2.2.1 y hy)
        · exact stem_begins hyx (hpf2.1.2 y hy)
      · simpa using hw2.cons (wa + wb)
      · simp only [cost_cons, List.length_append, List.length_singleton, Nat.mul_add, Nat.mul_one] at hc2 ⊢
        have : (wa + wb) * x.length = wa * x.length + wb * x.length := Nat.add_mul _ _ _
        omega
    · have hnone : ∀ y ∈ rest, Apart x y.2 := by
        intro y hy
        have h1 := hpf1.1 y hy
        rw [hxe] at h1
        refine ⟨fun hxy => ?_, fun hyx => stem_begins hyx h1⟩
        obtain ⟨z, hz⟩ := hxy
        have hly := hmax y (hrest.mem_iff.mpr (by simp [hy]))
        rw [hxe, ← hz] at hly
        simp only [List.length_append, List.length_singleton] at hly
        match z, hz, hly with
        | [], hz, _ => exact h1.2 ⟨[e], by rw [← hz]; simp⟩
        | [g], hz, _ =>
          by_cases hg : g = e
          · subst hg; rw [hz] at h1; exact h1.1 (List.prefix_refl _)
          · have : g = !e := by cases g <;> cases e <;> simp_all
            subst this
            exact hsib ⟨y, hy, hz.symm⟩
        | _ :: _ :: _, _, hl => simp at hl
      have hlt : (((p.1, x) :: rest).map fun y => y.2.length).sum < n := by
        rw [← hn, totalLength_perm hrest]
        simp [hxe]
      obtain ⟨l', h1, h2, h3⟩ := ih _ hlt ((p.1, x) :: rest) (prefixFree_cons.mpr ⟨hnone, hpf1.2⟩)
        (by refine List.Perm.trans ?_ hws; simpa using (hrest.map (·.1)).symm) rfl
      refine ⟨l', h1, h2, Nat.le_trans h3 ?_⟩
      rw [cost_perm hrest]
      simp [hxe, Nat.mul_add]

/-! ### The cost of the trees that MERGE makes -/

/-- The sum of the counts of a tree's symbols. -/
def treeWeight (ft : Vector Weight 256) (t : CodeTree) : Nat := (t.syms.map fun b => (ftGet ft b).toNat).sum

/-- The weighted length of a tree's paths. -/
def treeCost (ft : Vector Weight 256) (t : CodeTree) : Nat :=
  (t.paths.map fun x => (ftGet ft x.1).toNat * x.2.length).sum

theorem sum_map_succ {α : Type} (l : List α) (f : α → Nat) (g : α → Nat) :
    (l.map fun x => f x * (g x + 1)).sum = (l.map fun x => f x * g x).sum + (l.map f).sum := by
  induction l with
  | nil => rfl
  | cons a l ih => simp only [List.map_cons, List.sum_cons, ih]; rw [Nat.mul_add]; omega

theorem treeCost_node (ft : Vector Weight 256) (l r : CodeTree) :
    treeCost ft (.node l r) = treeCost ft l + treeCost ft r + (treeWeight ft l + treeWeight ft r) := by
  have h : ∀ t : CodeTree, treeWeight ft t = (t.paths.map fun x => (ftGet ft x.1).toNat).sum := by
    intro t; simp [treeWeight, ← paths_fst, Function.comp_def]
  simp only [treeCost, CodeTree.paths, List.map_append, List.map_map, List.sum_append, Function.comp_def,
    List.length_cons, sum_map_succ, h]
  omega

/-- A reference's weight is the sum of the counts under it. -/
theorem weight_of_holds {ft : Vector Weight 256} {nm : List Node} {r : Ref} {t : CodeTree} (h : Holds nm r t)
    (hn : ∀ n ∈ nm, ∃ wl wr, weightIn ft nm n.left = .ok wl ∧ weightIn ft nm n.right = .ok wr ∧
      n.weight.toNat = wl.toNat + wr.toNat ∧ wl ≤ wr) {w : Weight} (hw : weightIn ft nm r = .ok w) :
    w.toNat = treeWeight ft t := by
  induction h generalizing w with
  | leaf r hl =>
    have e := leafRef_sym hl
    rw [← e, weightIn_leafRef] at hw
    cases hw
    simp [treeWeight, CodeTree.syms]
  | node r n tl tr hnode _ _ ihl ihr =>
    obtain ⟨wl, wr, h1, h2, h3, _⟩ := hn n (nodeAt_mem hnode)
    have hl := (nodeAt_ok hnode).1
    simp only [weightIn, hl, hnode] at hw
    cases hw
    rw [h3, ihl h1, ihr h2]
    simp [treeWeight, CodeTree.syms]

/-- The sum of the internal nodes' weights. -/
def nmWeight (nm : List Node) : Nat := (nm.map fun n => n.weight.toNat).sum

/-- MERGE never spends more than any code free of prefixes for the weights it starts from, and what it spends is the
cost of the tree it makes. -/
theorem merge_optimal (p : TiePolicy) {ft : Vector Weight 256} (fuel : Nat) {f f' : Forest}
    {ps : List (Entry × CodeTree)} (g : Growing ft f ps) (h1 : 1 ≤ f.heap.length) (hf : f.heap.length ≤ fuel + 1)
    (hw : counted ft < 2 ^ 32) (hm : merge p fuel f = .ok f')
    (hcost : (ps.map fun x => treeCost ft x.2).sum = nmWeight f.nm) :
    ∃ pt, Growing ft f' [pt] ∧ treeCost ft pt.2 = nmWeight f'.nm ∧
      ∀ l, PrefixFree l → (l.map (·.1)).Perm (ps.map fun x => x.1.key.toNat) →
        nmWeight f'.nm ≤ nmWeight f.nm + cost l := by
  have single : ∀ (f : Forest) (ps : List (Entry × CodeTree)), Growing ft f ps → f.heap.length = 1 →
      ∃ pt, ps = [pt] := by
    intro f ps g hl
    have := g.perm.length_eq
    rw [hl, List.length_map] at this
    exact List.length_eq_one_iff.mp this.symm
  induction fuel generalizing f ps with
  | zero =>
    simp only [merge, Except.ok.injEq] at hm
    subst hm
    obtain ⟨pt, rfl⟩ := single f ps g (by omega)
    exact ⟨pt, g, by simpa using hcost, fun l _ _ => Nat.le_add_right _ _⟩
  | succ fuel ih =>
    by_cases hlt : 1 < f.heap.length
    · obtain ⟨f1, pa, pb, qs, e, hperm, hp⟩ := mergeOnce_spec p g hlt hw
      have hlen := hp.heapPerm
      simp only [merge, hlt, if_true, e, bind, Except.bind] at hm
      have hwa := weight_of_holds (hp.before.holds pa (by simp)) hp.before.nodes (hp.before.weight pa (by simp))
      have hwb := weight_of_holds (hp.before.holds pb (by simp)) hp.before.nodes (hp.before.weight pb (by simp))
      have hnm : nmWeight f1.nm = nmWeight f.nm + (pa.1.key.toNat + pb.1.key.toNat) := by
        rw [hp.nm]; simp [nmWeight, hp.noOverflow]
      have hc0 : (ps.map fun x => treeCost ft x.2).sum =
          treeCost ft pa.2 + (treeCost ft pb.2 + (qs.map fun x => treeCost ft x.2).sum) := by
        have := (hperm.map fun x => treeCost ft x.2).sum_eq
        simpa using this
      obtain ⟨pt, g', hct, hopt⟩ := ih hp.after (by omega) (by omega) hm (by
        simp only [List.map_cons, List.sum_cons, treeCost_node]
        omega)
      refine ⟨pt, g', hct, fun l hl hlw => ?_⟩
      have hlw' : (l.map (·.1)).Perm
          (pa.1.key.toNat :: pb.1.key.toNat :: qs.map fun x => x.1.key.toNat) := by
        refine hlw.trans ?_
        simpa using hperm.map fun x => x.1.key.toNat
      obtain ⟨l', h1', h2', h3'⟩ := reduce l hl hlw' hp.le1 (by
        intro w hwm
        obtain ⟨x, hx, rfl⟩ := List.mem_map.mp hwm
        exact hp.le2 x hx)
      have := hopt l' h1' (by
        refine h2'.trans ?_
        simp [hp.noOverflow])
      omega
    · simp only [merge, hlt, if_false, Except.ok.injEq] at hm
      subst hm
      obtain ⟨pt, rfl⟩ := single f ps g (by omega)
      exact ⟨pt, g, by simpa using hcost, fun l _ _ => Nat.le_add_right _ _⟩

end Sys2Proof.Machine
end

