-- ==== Sys2Proof/Laws/Inv.lean ====
section
/-! SUPPORT. How the invariant is carried along (spec/10_state.md R44): it rests on some fields only, and the shared
operations, the tree that BUILD makes and the walk keep it. -/

namespace Sys2Proof

open Sys2Proof.Machine

/-- TreeOk rests on FT, TOTAL, NM, ROOT and CT alone. -/
theorem TreeOk.congr {s t : State} (h : TreeOk s) (e1 : t.ft = s.ft) (e2 : t.total = s.total) (e3 : t.nm = s.nm)
    (e4 : t.root = s.root) (e5 : t.ct = s.ct) : TreeOk t := by
  have hw : ∀ r, t.weightOf r = s.weightOf r := fun r => by simp [weightOf_eq, e1, e3]
  have hf : ∀ b, t.ftAt b = s.ftAt b := fun b => by simp [State.ftAt, e1]
  have hc : ∀ b, t.codeWord b = s.codeWord b := fun b => by simp [codeWord_def, e5]
  constructor
  · simpa only [e3, e4, hf, hc] using h.tree
  · simpa only [hf, hc] using h.unused
  · simpa only [hw, e4, e2] using h.rootWeight
  · simpa only [hw, e3] using h.nodeWeight
  · simpa only [e3] using h.acyclic
  · simpa only [e1, e3] using h.nodeCount
  · simpa only [e3, e4] using h.rootLast

/-- What the invariant says of a bank: a heap of at most PQ_SLOTS entries whose keys have W bits. -/
structure BankOk (c : Config) (h : List Entry) : Prop where
  heap : HeapOk h
  size : h.length ≤ c.pqSlots
  keys : ∀ e ∈ h, keyFits c e.key = true

theorem Inv.bank0 {s : State} (h : Inv s) : BankOk s.cfg s.hq0 := ⟨h.heap0, h.size0, h.keys0⟩

theorem Inv.bank1 {s : State} (h : Inv s) : BankOk s.cfg s.hq1 := ⟨h.heap1, h.size1, h.keys1⟩

/-- The invariant in a state of the same parameters, phase and tree, with the other fields in their ranges. -/
theorem Inv.congr {s t : State} (h : Inv s) (hp : t.phase = s.phase) (he : ∀ e, t.err = some e → e ∈ raisable)
    (e1 : t.ft = s.ft) (e2 : t.total = s.total) (e3 : t.nm = s.nm) (e4 : t.root = s.root) (e5 : t.ct = s.ct)
    (ec : t.cfg = s.cfg) (q0 : BankOk s.cfg t.hq0) (q1 : BankOk s.cfg t.hq1)
    (qk : 1 ≤ t.qitk.toNat ∧ t.qitk.toNat ≤ s.cfg.pqSlots + 1)
    (bt : t.bitcount.toNat < 2 ^ s.cfg.bitcountBits ∧ t.urem.toNat < 2 ^ s.cfg.bitcountBits)
    (pk : t.pcnt.toNat < t.g ∧ t.pbuf.toNat < 2 ^ t.pcnt.toNat) (pi : s.phase ≠ .cmp → t.pcnt = 0)
    (w : t.wp = s.wp ∨ (s.phase ≠ .count ∧ (t.wp = s.root ∨ (Under s.nm s.root t.wp ∧ isLeaf t.wp = false)) ∧
      (s.phase = .ready ∨ s.phase = .cmp → t.wp = s.root))) : Inv t := by
  have hc : ∀ b, t.codeWord b = s.codeWord b := fun b => by simp [codeWord_def, e5]
  constructor
  · rw [ec]; exact h.legal
  · exact q0.heap
  · exact q1.heap
  · rw [ec]; exact q0.size
  · rw [ec]; exact q1.size
  · rw [ec]; exact q0.keys
  · rw [ec]; exact q1.keys
  · rw [ec]; exact qk
  · rw [e1, e2]; exact h.total
  · rw [ec, e2]; exact h.totalFits
  · rw [ec]; exact bt
  · exact he
  · exact pk
  · rw [hp]; exact pi
  · rw [hp, e4]; exact h.rootNil
  · rw [hp]; intro hx
    rcases w with w | ⟨w, _⟩
    · rw [w, e3]; simpa only [hc] using h.noTree hx
    · exact absurd hx w
  · rw [hp]; intro hx; exact (h.tree hx).congr e1 e2 e3 e4 e5
  · rw [hp, e3, e4]; intro hx
    rcases w with w | ⟨_, w, _⟩
    · rw [w]; exact h.walk hx
    · exact w
  · rw [hp, e4]; intro hx
    rcases w with w | ⟨_, _, w⟩
    · rw [w]; exact h.walkIdle hx
    · exact w hx

/-- What a command can raise is an error the engine raises (R189). -/
theorem raisable_errors (i : Instr) : ∀ e ∈ i.errors, e ∈ raisable := by
  cases i <;> simp [Instr.errors, raisable]

/-- Taking an error keeps the invariant. -/
theorem Inv.raise {s : State} (h : Inv s) {e : Err} (he : e ∈ raisable) : Inv (s.raise e) := by
  refine h.congr rfl ?_ rfl rfl rfl rfl rfl rfl h.bank0 h.bank1 h.cursor h.bits
    h.packer h.packerIdle (.inl rfl)
  intro e' h'
  simp only [raise_err] at h'
  split at h'
  · simp at h'; subst h'; exact he
  · exact h.err _ h'

/-- Answering keeps the invariant. -/
theorem Inv.respond {s : State} (h : Inv s) (v : Val) : Inv (s.respond v) :=
  h.congr rfl h.err rfl rfl rfl rfl rfl rfl h.bank0 h.bank1 h.cursor h.bits
    h.packer h.packerIdle (.inl rfl)

/-- The end mark keeps the invariant. -/
theorem Inv.respondDone {s : State} (h : Inv s) : Inv s.respondDone :=
  h.congr rfl h.err rfl rfl rfl rfl rfl rfl h.bank0 h.bank1 h.cursor h.bits
    h.packer h.packerIdle (.inl rfl)

/-- What is at the port does not matter to the invariant. -/
theorem Inv.withPort {s : State} (h : Inv s) (p : List HostEvent) : Inv { s with port := p } :=
  h.congr rfl h.err rfl rfl rfl rfl rfl rfl h.bank0 h.bank1 h.cursor h.bits
    h.packer h.packerIdle (.inl rfl)

/-- Either bank is in order. -/
theorem Inv.bank {s : State} (h : Inv s) (q : Bank) : BankOk s.cfg (s.bank q) := by
  unfold State.bank; split
  · exact h.bank0
  · exact h.bank1

/-- Writing a bank that is in order keeps the invariant. -/
theorem Inv.setBank {s : State} (h : Inv s) (q : Bank) {l : List Entry} (hl : BankOk s.cfg l) :
    Inv (s.setBank q l) := by
  unfold State.setBank; split
  · exact h.congr rfl h.err rfl rfl rfl rfl rfl rfl hl h.bank1 h.cursor h.bits
      h.packer h.packerIdle (.inl rfl)
  · exact h.congr rfl h.err rfl rfl rfl rfl rfl rfl h.bank0 hl h.cursor h.bits
      h.packer h.packerIdle (.inl rfl)

/-- Where a walk may stand: at ROOT or at an internal node below it (R33, R44 c). -/
def WalkAt (s : State) (r : Ref) : Prop := r = s.root ∨ (Under s.nm s.root r ∧ isLeaf r = false)

/-- Where a walk may stand on a tree with internal nodes there is a written entry. -/
theorem at_node {s : State} (h : TreeOk s) {r : Ref} (hr : WalkAt s r) (hl : isLeaf s.root = false) :
    isLeaf r = false ∧ ∃ n, nodeAt s.nm r = .ok n := by
  obtain ⟨t, ht, -⟩ := h.tree
  rcases hr with rfl | ⟨hu, hr⟩
  · obtain ⟨n, _, _, hn, _⟩ := holds_of_internal ht hl
    exact ⟨hl, n, hn⟩
  · obtain ⟨t', ht'⟩ := holds_under ht hu
    obtain ⟨n, _, _, hn, _⟩ := holds_of_internal ht' hr
    exact ⟨hr, n, hn⟩

/-- A digit leads from such a place to another. -/
theorem walk_at {s t : State} (hw : WalkAt s s.wp) {d : Bool} (e : walk s d = .ok t) : WalkAt s t.wp := by
  rcases walk_cases s d with ⟨u, hh, hu⟩ | ⟨hh, _⟩ | ⟨_, hh, _⟩
  · rw [e] at hh; cases hh
    rcases hu with rfl | ⟨n, hl, hn, ⟨_, rfl⟩ | ⟨hc, rfl⟩⟩
    · exact hw
    · exact .inl rfl
    · refine .inr ⟨?_, hc⟩
      have hu : Under s.nm s.root s.wp := by
        rcases hw with hw | hw
        · rw [hw]; exact .root
        · exact hw.1
      cases d
      · exact .left _ _ hn hu
      · exact .right _ _ hn hu
  · rw [e] at hh; cases hh
  · rw [e] at hh; cases hh

/-- No digit reads an entry that is not there. -/
theorem walk_notStuck {s : State} (h : TreeOk s) (hw : WalkAt s s.wp) (d : Bool) : ∀ f, walk s d ≠ .stuck f := by
  intro f e
  rcases walk_cases s d with ⟨u, hh, hu⟩ | ⟨hh, _⟩ | ⟨f', hh, hl, hn⟩
  · rw [e] at hh; cases hh
  · rw [e] at hh; cases hh
  · obtain ⟨_, n, hn'⟩ := at_node h hw hl
    have : s.node s.wp = .ok n := hn'
    rw [this] at hn; cases hn

/-- DCMPB's loop keeps the invariant and the phase, and reads no entry that is not there. -/
theorem unpack_inv (ds : List Bool) {s : State} (h : Inv s) (hp : s.phase = .dcmp) :
    (∀ t, unpack ds s = .ok t → Inv t ∧ t.phase = .dcmp) ∧ (∀ f, unpack ds s ≠ .stuck f) := by
  induction ds generalizing s with
  | nil => exact ⟨fun t e => by cases e; exact ⟨h, hp⟩, fun f e => by cases e⟩
  | cons d ds ih =>
    have hpc : s.phase ≠ .count := by simp [hp]
    simp only [unpack]
    by_cases hu : s.urem = 0
    · simp only [hu, if_true]; exact ⟨fun t e => by cases e; exact ⟨h, hp⟩, fun f e => by cases e⟩
    · simp only [hu, if_false]
      cases hw : walk s d with
      | stuck f => exact absurd hw (walk_notStuck (h.tree hpc) (h.walk hpc) d f)
      | raised e t => exact ⟨fun t e => by simp at e, fun f e => by simp at e⟩
      | ok t =>
        have hat := walk_at (h.walk hpc) hw
        obtain ⟨b, w, rfl, -⟩ := walk_frame hw
        refine ih ?_ hp
        have hb : (s.urem - 1).toNat < 2 ^ s.cfg.bitcountBits := by
          rw [spend_toNat hu]; exact lt_of_le_of_lt (Nat.sub_le _ _) h.bits.2
        exact h.congr rfl h.err rfl rfl rfl rfl rfl rfl h.bank0 h.bank1 h.cursor ⟨h.bits.1, hb⟩
          h.packer h.packerIdle
          (.inr ⟨hpc, hat, by simp [hp]⟩)

/-- The invariant after a stream is opened or closed: the tree stays, the walk is at ROOT, and the packer is empty or as
it was. -/
theorem Inv.rephase {s t : State} (h : Inv s) (h0 : s.phase ≠ .count) (h1 : t.phase ≠ .count) (he : t.err = s.err)
    (e1 : t.ft = s.ft) (e2 : t.total = s.total) (e3 : t.nm = s.nm) (e4 : t.root = s.root) (e5 : t.ct = s.ct)
    (e6 : t.hq0 = s.hq0) (e7 : t.hq1 = s.hq1) (e8 : t.qitk = s.qitk) (e9 : t.cfg = s.cfg)
    (bt : t.bitcount.toNat < 2 ^ s.cfg.bitcountBits ∧ t.urem.toNat < 2 ^ s.cfg.bitcountBits)
    (pk : t.pcnt = s.pcnt ∧ t.pbuf = s.pbuf ∧ (s.phase ≠ .cmp ∨ t.phase = .cmp) ∨ (t.pcnt = 0 ∧ t.pbuf = 0))
    (w : t.wp = s.root) : Inv t := by
  constructor
  · rw [e9]; exact h.legal
  · rw [e6]; exact h.heap0
  · rw [e7]; exact h.heap1
  · rw [e6, e9]; exact h.size0
  · rw [e7, e9]; exact h.size1
  · rw [e6, e9]; exact h.keys0
  · rw [e7, e9]; exact h.keys1
  · rw [e8, e9]; exact h.cursor
  · rw [e1, e2]; exact h.total
  · rw [e2, e9]; exact h.totalFits
  · rw [e9]; exact bt
  · rw [he]; exact h.err
  · unfold State.g; rw [e9]
    rcases pk with ⟨a, b, _⟩ | ⟨a, b⟩
    · rw [a, b]; exact h.packer
    · rw [a, b]; have := count_bounds s.cfg.packBits
      constructor
      · simp; omega
      · decide
  · intro hh
    rcases pk with ⟨a, _, b⟩ | ⟨a, _⟩
    · rw [a]; rcases b with b | b
      · exact h.packerIdle b
      · exact absurd b hh
    · exact a
  · constructor
    · intro hh; exact absurd hh h1
    · intro hh; rw [e4] at hh; exact absurd (h.rootNil.mpr hh) h0
  · intro hh; exact absurd hh h1
  · intro _; exact (h.tree h0).congr e1 e2 e3 e4 e5
  · intro _; left; rw [w, e4]
  · intro _; rw [w, e4]

/-- One more occurrence of `b` is one more in the sum of the counts (R130). -/
theorem counted_set (ft : Vector Weight 256) (b : Sym) (h : (ftGet ft b).toNat + 1 < 2 ^ 32) :
    counted (ft.set b.toNat (ftGet ft b + 1) b.isLt) = counted ft + 1 := by
  rw [counted_eq, counted_eq]
  have key : ∀ l : List Sym, l.Nodup → b ∈ l →
      (l.map fun c => (ftGet (ft.set b.toNat (ftGet ft b + 1) b.isLt) c).toNat).sum =
        (l.map fun c => (ftGet ft c).toNat).sum + 1 := by
    intro l hn hm
    induction l with
    | nil => simp at hm
    | cons a l ih =>
      simp only [List.map_cons, List.sum_cons]
      rw [List.nodup_cons] at hn
      by_cases hab : a = b
      · subst hab
        have e1 : (ftGet (ft.set a.toNat (ftGet ft a + 1) a.isLt) a).toNat = (ftGet ft a).toNat + 1 := by
          rw [ftGet, Vector.getElem_set_self, BitVec.toNat_add]
          have : (1 : Weight).toNat = 1 := rfl
          omega
        have e2 : (l.map fun c => (ftGet (ft.set a.toNat (ftGet ft a + 1) a.isLt) c).toNat) =
            l.map fun c => (ftGet ft c).toNat := by
          apply List.map_congr_left; intro c hc
          have : a.toNat ≠ c.toNat := fun e => hn.1 (BitVec.eq_of_toNat_eq e ▸ hc)
          simp [ftGet, this]
        rw [e1, e2]; omega
      · have hm' : b ∈ l := by simpa [Ne.symm hab, hab] using (List.mem_cons.mp hm).resolve_left (Ne.symm hab)
        have := ih hn.2 hm'
        have e1 : ftGet (ft.set b.toNat (ftGet ft b + 1) b.isLt) a = ftGet ft a := by
          have : b.toNat ≠ a.toNat := fun e => hab (BitVec.eq_of_toNat_eq e).symm
          simp [ftGet, this]
        rw [this, e1]; omega
  exact key allSyms allSyms_nodup (mem_allSyms b)

/-- No count exceeds the sum. -/
theorem ftGet_le_counted (ft : Vector Weight 256) (b : Sym) : (ftGet ft b).toNat ≤ counted ft := by
  rw [counted_eq]
  exact List.single_le_sum (by simp) _ (List.mem_map.mpr ⟨b, mem_allSyms b, rfl⟩)

/-- A state that holds what BUILD made over its counts has a good tree. -/
theorem treeOk_of_built {s : State} {t : Tree} (b : Built s.ft t) (ht : s.total.toNat = counted s.ft) (u : State)
    (e1 : u.ft = s.ft) (e2 : u.total = s.total) (e3 : u.nm = t.nm) (e4 : u.root = t.root) (e5 : u.ct = t.ct) :
    TreeOk u := by
  have hf : ∀ b, u.ftAt b = ftGet s.ft b := fun b => by simp [ftAt_eq, e1]
  have hc : ∀ b, u.codeWord b = Code.digits (t.ct[b.toNat]'b.isLt) := fun b => by simp [codeWord_def, e5]
  constructor
  · simpa only [e3, e4, hf, hc] using b.tree
  · simpa only [hf, hc] using b.unused
  · obtain ⟨w, hw, hw'⟩ := b.rootWeight
    rw [weightOf_eq, e1, e3, e4, hw, e2]
    congr 1; exact BitVec.eq_of_toNat_eq (by omega)
  · simpa only [weightOf_eq, e1, e3] using b.nodes
  · simpa only [e3] using b.acyclic
  · simpa only [e1, e3] using b.nodeCount
  · simpa only [e3, e4] using b.rootLast

/-- A good tree has a ROOT (R27, R44 a). -/
theorem root_ne_nil {s : State} (h : TreeOk s) : s.root ≠ nilRef := by
  intro e
  obtain ⟨t, ht, -⟩ := h.tree
  rw [e] at ht
  obtain ⟨n, _, _, hn, _⟩ := holds_of_internal ht (by decide)
  exact absurd hn (by simp [nodeAt])

end Sys2Proof
end

