-- ==== Sys2Proof/Laws/PerInstr.lean ====
section
/-! SUPPORT. Family `Row`: the word of every instruction passes the test `word & mask == match` of its row of
spec/opcode_table.json (spec/30_encoding.md R86). -/

namespace Sys2Proof

/-- Masking leaves exactly the bits that the mask names. -/
theorem and_mask {w m k : Word64} (p : Nat → Bool) (hm : ∀ i < 64, m.getLsbD i = p i)
    (h : ∀ i < 64, (w.getLsbD i && p i) = k.getLsbD i) : w &&& m = k := by
  apply BitVec.eq_of_getLsbD_eq
  intro i hi
  rw [BitVec.getLsbD_and, hm i hi, h i hi]

/-- Format B: the mask leaves out bits 7 to 0 (R82). -/
theorem mask_wordB (op : BitVec 8) (b : Byte) : wordB op b &&& 0xFFFFFFFFFFFFFF00 = wordN op := by
  apply and_mask (fun i => decide (8 ≤ i)) (by decide)
  intro i _
  rw [wordB_bit, wordN_bit]
  by_cases h : i < 8
  · simp [show ¬ 8 ≤ i by omega, show i < 56 by omega]
  · simp [h, show 8 ≤ i by omega]

/-- Format Q: the mask leaves out bit 48 (R82). -/
theorem mask_wordQ (op : BitVec 8) (q : Bank) : wordQ op q &&& 0xFFFEFFFFFFFFFFFF = wordN op := by
  apply and_mask (fun i => decide (i ≠ 48)) (by decide)
  intro i _
  rw [wordQ_bit, wordN_bit]
  by_cases h : i = 48
  · simp [h]
  · by_cases h1 : i < 48
    · simp [h1, show i < 56 by omega]
    · simp [h, h1, show ¬ i < 49 by omega]

/-- Format QE: the mask leaves out bits 48 to 16 and 8 to 0 (R82). -/
theorem mask_wordQE (op : BitVec 8) (q : Bank) (key : Weight) (item : Ref) :
    wordQE op q key item &&& 0xFFFE00000000FE00 = wordN op := by
  apply and_mask (fun i => decide (9 ≤ i ∧ i < 16 ∨ 49 ≤ i)) (by decide)
  intro i _
  rw [wordQE_bit, wordN_bit]
  by_cases h1 : i < 9
  · simp [show ¬ 9 ≤ i by omega, show ¬ 49 ≤ i by omega, show i < 56 by omega]
  · by_cases h2 : i < 16
    · simp [h1, h2, show i < 56 by omega]
    · by_cases h3 : i < 49
      · simp [h2, show ¬ 49 ≤ i by omega, show i < 56 by omega]
      · simp [h1, h2, h3, show ¬ i < 48 by omega, show 49 ≤ i by omega]

/-- Format C: the mask leaves out A (R82). -/
theorem mask_wordC (op c : BitVec 8) : wordC op c &&& 0xFF00FFFFFFFFFFFF = wordN op := by
  apply and_mask (fun i => decide (i < 48 ∨ 56 ≤ i)) (by decide)
  intro i _
  rw [wordC_bit, wordN_bit]
  by_cases h1 : i < 48
  · simp [h1, show i < 56 by omega]
  · by_cases h2 : i < 56
    · simp [h1, h2, show ¬ 56 ≤ i by omega]
    · simp [h1, h2, show 56 ≤ i by omega]

/-- Format CW: the mask leaves OP alone (R82). -/
theorem mask_wordCW (op c : BitVec 8) (v : Val) : wordCW op c v &&& 0xFF00000000000000 = wordN op := by
  apply and_mask (fun i => decide (56 ≤ i)) (by decide)
  intro i _
  rw [wordCW_bit, wordN_bit]
  by_cases h2 : i < 56
  · simp [h2, show ¬ 56 ≤ i by omega]
  · simp [h2, show ¬ i < 48 by omega, show 56 ≤ i by omega]

/-- The word of `i` belongs to a row of the opcode table. -/
def Laws.Row.Statement (i : Instr) : Prop := ∃ row ∈ opcodeRows, encode i &&& row.1 = row.2

theorem Laws.Row.clr : Statement .clr :=
  ⟨(0xFFFFFFFFFFFFFFFF, 0x0100000000000000), by decide, by decide⟩
theorem Laws.Row.count (b : Sym) : Statement (.count b) :=
  ⟨(0xFFFFFFFFFFFFFF00, 0x0200000000000000), by decide, mask_wordB _ _⟩
theorem Laws.Row.build : Statement .build :=
  ⟨(0xFFFFFFFFFFFFFFFF, 0x0300000000000000), by decide, by decide⟩
theorem Laws.Row.rdcsr (c : BitVec 8) : Statement (.rdcsr c) :=
  ⟨(0xFF00FFFFFFFFFFFF, 0x0800000000000000), by decide, mask_wordC _ _⟩
theorem Laws.Row.wrcsr (c : BitVec 8) (v : Val) : Statement (.wrcsr c v) :=
  ⟨(0xFF00000000000000, 0x0900000000000000), by decide, mask_wordCW _ _ _⟩
theorem Laws.Row.qInsert (q : Bank) (key : Weight) (item : Ref) : Statement (.qInsert q key item) :=
  ⟨(0xFFFE00000000FE00, 0x2000000000000000), by decide, mask_wordQE _ _ _ _⟩
theorem Laws.Row.qPeek (q : Bank) : Statement (.qPeek q) :=
  ⟨(0xFFFEFFFFFFFFFFFF, 0x2100000000000000), by decide, mask_wordQ _ _⟩
theorem Laws.Row.qExtract (q : Bank) : Statement (.qExtract q) :=
  ⟨(0xFFFEFFFFFFFFFFFF, 0x2200000000000000), by decide, mask_wordQ _ _⟩
theorem Laws.Row.qSize (q : Bank) : Statement (.qSize q) :=
  ⟨(0xFFFEFFFFFFFFFFFF, 0x2300000000000000), by decide, mask_wordQ _ _⟩
theorem Laws.Row.qEmpty (q : Bank) : Statement (.qEmpty q) :=
  ⟨(0xFFFEFFFFFFFFFFFF, 0x2400000000000000), by decide, mask_wordQ _ _⟩
theorem Laws.Row.qDup (q : Bank) : Statement (.qDup q) :=
  ⟨(0xFFFEFFFFFFFFFFFF, 0x2500000000000000), by decide, mask_wordQ _ _⟩
theorem Laws.Row.qIterBegin (q : Bank) : Statement (.qIterBegin q) :=
  ⟨(0xFFFEFFFFFFFFFFFF, 0x2600000000000000), by decide, mask_wordQ _ _⟩
theorem Laws.Row.qIterNext : Statement .qIterNext :=
  ⟨(0xFFFFFFFFFFFFFFFF, 0x2700000000000000), by decide, by decide⟩
theorem Laws.Row.qIterRemove : Statement .qIterRemove :=
  ⟨(0xFFFFFFFFFFFFFFFF, 0x2800000000000000), by decide, by decide⟩
theorem Laws.Row.enc (b : Sym) : Statement (.enc b) :=
  ⟨(0xFFFFFFFFFFFFFF00, 0x4000000000000000), by decide, mask_wordB _ _⟩
theorem Laws.Row.decStart : Statement .decStart :=
  ⟨(0xFFFFFFFFFFFFFFFF, 0x4100000000000000), by decide, by decide⟩
theorem Laws.Row.decb (b : Byte) : Statement (.decb b) :=
  ⟨(0xFFFFFFFFFFFFFF00, 0x4200000000000000), by decide, mask_wordB _ _⟩
theorem Laws.Row.decEnd : Statement .decEnd :=
  ⟨(0xFFFFFFFFFFFFFFFF, 0x4300000000000000), by decide, by decide⟩
theorem Laws.Row.cmpStart : Statement .cmpStart :=
  ⟨(0xFFFFFFFFFFFFFFFF, 0x4400000000000000), by decide, by decide⟩
theorem Laws.Row.cmps (b : Sym) : Statement (.cmps b) :=
  ⟨(0xFFFFFFFFFFFFFF00, 0x4500000000000000), by decide, mask_wordB _ _⟩
theorem Laws.Row.cmpEnd : Statement .cmpEnd :=
  ⟨(0xFFFFFFFFFFFFFFFF, 0x4600000000000000), by decide, by decide⟩
theorem Laws.Row.dcmpStart : Statement .dcmpStart :=
  ⟨(0xFFFFFFFFFFFFFFFF, 0x4700000000000000), by decide, by decide⟩
theorem Laws.Row.dcmpb (b : Byte) : Statement (.dcmpb b) :=
  ⟨(0xFFFFFFFFFFFFFF00, 0x4800000000000000), by decide, mask_wordB _ _⟩
theorem Laws.Row.dcmpEnd : Statement .dcmpEnd :=
  ⟨(0xFFFFFFFFFFFFFFFF, 0x4900000000000000), by decide, by decide⟩

end Sys2Proof
end

