-- ==== Sys2Proof/Tests/Slice0.lean ====
section
/-! SUPPORT. Tests of one step each, expected values from spec/95_test_vectors.md, and a witness for the hypotheses of
each statement that has any. -/

namespace Sys2Proof.Tests

open Sys2Proof Sys2Proof.Machine

/-! ### States to start from -/

/-- The session "AAABBC" before BUILD (V30). -/
def counting : State :=
  { State.reset with
    ft := ((State.reset.ft.set 0x41 3).set 0x42 2).set 0x43 1
    total := 6 }

/-- The session "AAABBC" after BUILD (V30). -/
def ready : State :=
  { counting with
    phase := .ready
    nm := [⟨3, 0x043, 0x042⟩, ⟨6, 0x041, 0x100⟩]
    root := 0x101
    wp := 0x101
    ct := ((State.reset.ct.set 0x41 (codeOf [false])).set 0x42 (codeOf [true, true])).set 0x43 (codeOf [true, false]) }

/-- The session "aaaa" before BUILD (V31). -/
def loneCounting : State :=
  { State.reset with ft := State.reset.ft.set 0x61 4, total := 4 }

/-- The session "aaaa" after BUILD (V31). -/
def lone : State :=
  { loneCounting with
    phase := .ready
    root := 0x061
    wp := 0x061
    ct := State.reset.ct.set 0x61 (codeOf [false]) }

/-- A decode stream over "AAABBC" (V41). -/
def decoding : State := { ready with phase := .dec }

/-- A compress stream over "AAABBC" (V50). -/
def packing : State := { ready with phase := .cmp }

/-- A decompress stream over "AAABBC" with a budget of 9 (V51). -/
def unpacking : State := { ready with phase := .dcmp, urem := 9, bitcount := 9 }

/-- Bank 1 at the end of V10. -/
def heapV10 : List Entry := [⟨1, 3⟩, ⟨3, 1⟩, ⟨8, 2⟩, ⟨5, 0⟩, ⟨3, 4⟩]

/-- Reset with bank 1 as at the end of V10. -/
def queued : State := { State.reset with hq1 := heapV10 }

/-- A full bank 0. -/
def full : State := { State.reset with hq0 := List.replicate 256 ⟨0, 0⟩ }

/-- The last response of a completed command, as its word (R84). -/
def said (a : Answer) : Option Word64 :=
  match a with
  | .next t => t.resps.getLast?.map Response.word
  | .fault _ => none
  | .refused _ => none

/-- A look at the state that a completed command leaves. -/
def look {α : Type} (a : Answer) (f : State → α) : Option α :=
  match a with
  | .next t => some (f t)
  | .fault _ => none
  | .refused _ => none

/-! ### Well-formedness (R86 c) and decoding (R82, R85, V1, V2) -/

theorem test_illFormed_rdcsr : (Instr.rdcsr 0x0A).wellFormed Config.default = false := by decide
theorem test_illFormed_wrcsr :
    (Instr.wrcsr 0x00 1).wellFormed Config.default = false ∧
    (Instr.wrcsr 0x03 5).wellFormed Config.default = false := by decide
theorem test_wellFormed_csr :
    (Instr.rdcsr 0x09).wellFormed Config.default = true ∧
    (Instr.wrcsr 0x02 9).wellFormed Config.default = true := by decide
/-- R83: the high bits of the key field on an engine with W = 16, and none of them with W = 32. -/
theorem test_illFormed_key :
    (Instr.qInsert 1 0x10000 3).wellFormed { Config.default with weightBits := 16 } = false ∧
    (Instr.qInsert 1 0xFFFF 3).wellFormed { Config.default with weightBits := 16 } = true ∧
    (Instr.qInsert 1 0xFFFFFFFF 3).wellFormed Config.default = true := by decide
/-- R8: the widths of a reference, of a command word and of a response word, and the number of banks, are the constants'. -/
theorem test_fixed_parameters :
    Ref = BitVec refBits ∧ Word64 = BitVec cmdBits ∧ (∀ q : Bank, q.toNat < pqBanks) := ⟨rfl, rfl, by decide⟩

theorem test_decode_session :
    decodeTableWord 64 0x0100000000000000 = some .clr ∧
    decodeTableWord 64 0x0200000000000041 = some (.count 0x41) ∧
    decodeTableWord 64 0x0300000000000000 = some .build := by decide

theorem test_decode_csr :
    decodeTableWord 64 0x0804000000000000 = some (.rdcsr 0x04) ∧
    decodeTableWord 64 0x0902000000000009 = some (.wrcsr 0x02 9) := by decide

theorem test_decode_queue :
    decodeTableWord 64 0x2001000000050003 = some (.qInsert 1 5 0x003) ∧
    decodeTableWord 64 0x2101000000000000 = some (.qPeek 1) ∧
    decodeTableWord 64 0x2201000000000000 = some (.qExtract 1) ∧
    decodeTableWord 64 0x2301000000000000 = some (.qSize 1) ∧
    decodeTableWord 64 0x2401000000000000 = some (.qEmpty 1) ∧
    decodeTableWord 64 0x2501000000000000 = some (.qDup 1) := by decide

theorem test_decode_iteration :
    decodeTableWord 64 0x2601000000000000 = some (.qIterBegin 1) ∧
    decodeTableWord 64 0x2700000000000000 = some .qIterNext ∧
    decodeTableWord 64 0x2800000000000000 = some .qIterRemove := by decide

theorem test_decode_textual :
    decodeTableWord 64 0x4000000000000042 = some (.enc 0x42) ∧
    decodeTableWord 64 0x4100000000000000 = some .decStart ∧
    decodeTableWord 64 0x4200000000000031 = some (.decb 0x31) ∧
    decodeTableWord 64 0x4300000000000000 = some .decEnd := by decide

theorem test_decode_packed :
    decodeTableWord 64 0x4400000000000000 = some .cmpStart ∧
    decodeTableWord 64 0x4500000000000061 = some (.cmps 0x61) ∧
    decodeTableWord 64 0x4600000000000000 = some .cmpEnd ∧
    decodeTableWord 64 0x4700000000000000 = some .dcmpStart ∧
    decodeTableWord 64 0x480000000000000F = some (.dcmpb 0x0F) ∧
    decodeTableWord 64 0x4900000000000000 = some .dcmpEnd := by decide

/-- V2: the words that are no command. -/
theorem test_decode_illegal :
    decodeTableWord 64 0x0000000000000000 = none ∧ decodeTableWord 64 0x0400000000000000 = none ∧
    decodeTableWord 64 0x4A00000000000000 = none ∧ decodeTableWord 64 0xFF00000000000000 = none ∧
    decodeTableWord 64 0x0100000000000001 = none ∧ decodeTableWord 64 0x0101000000000000 = none ∧
    decodeTableWord 64 0x0200000000000141 = none ∧ decodeTableWord 64 0x2102000000000000 = none ∧
    decodeTableWord 64 0x2701000000000000 = none ∧ decodeTableWord 64 0x2000000000050203 = none ∧
    decodeTableWord 64 0x0804000000000001 = none := by decide

/-- V14, V1: the extreme operands of Q_INSERT in the encoder. -/
theorem test_encode_extremes :
    encode (.qInsert 0 0xFFFFFFFF 0x1FF) = 0x2000FFFFFFFF01FF ∧
    encode (.wrcsr 0x02 0xFFFFFFFFFFFF) = 0x0902FFFFFFFFFFFF := by decide

/-! ### Steps -/

theorem test_step_runs_word :
    said (step (State.reset.withFetchWord 64 0x0300000000000000)) = some 0x0200000000000000 := by
  decide
/-- V2: the response and ERR of an illegal word. -/
theorem test_step_illegal_word :
    said (step (State.reset.withFetchWord 64 0)) = some 0x0800000000000000 ∧
    look (step (State.reset.withFetchWord 64 0)) State.err = some (some .illegalCommand) := by decide
theorem test_step_idle : look (step ready) State.phase = some .ready := by decide
theorem test_step_reset : look (step { unpacking with port := [.reset] }) (fun t => (t.phase, t.urem, t.root)) =
    some (.count, 0, 0x1FF) := by decide

/-! ### System commands (V3 to V6) -/

/-- V6. -/
theorem test_clr_keeps_out :
    look (exec .clr { packing with out := [0x2C], pcnt := 2, bitcount := 23 })
      (fun t => (t.phase, t.out, t.pcnt, t.bitcount, t.total)) = some (.count, [0x2C], 0, 0, 0) := by decide
/-- V4 and V3: STATUS. -/
theorem test_rdcsr_status :
    said (exec (.rdcsr 0x00) ready) = some 0x29 ∧ said (exec (.rdcsr 0x00) decoding) = some 0x2A ∧
    said (exec (.rdcsr 0x00) lone) = some 0x39 ∧ said (exec (.rdcsr 0x00) State.reset) = some 0 := by decide
/-- V4, and PACK and QITER of P2 and P3. -/
theorem test_rdcsr_others :
    said (exec (.rdcsr 0x03) ready) = some 6 ∧ said (exec (.rdcsr 0x04) ready) = some 0x101 ∧
    said (exec (.rdcsr 0x05) ready) = some 2 ∧ said (exec (.rdcsr 0x06) State.reset) = some 0x1FF ∧
    said (exec (.rdcsr 0x07) { packing with pcnt := 2 }) = some 0x200 ∧
    said (exec (.rdcsr 0x08) unpacking) = some 9 ∧ said (exec (.rdcsr 0x09) State.reset) = some 1 ∧
    said (exec (.rdcsr 0x0A) ready) = some 0x0800000000000000 := by decide
/-- V59. -/
theorem test_wrcsr :
    look (exec (.wrcsr 0x02 9) ready) State.bitcount = some 9 ∧
    look (exec (.wrcsr 0x02 1) unpacking) State.bitcount = some 9 ∧
    said (exec (.wrcsr 0x02 1) unpacking) = some 0x0800000000000000 ∧
    said (exec (.wrcsr 0x03 5) State.reset) = some 0x0800000000000000 := by decide

/-! ### The priority queue (V10 to V19) -/

/-- V10: the last two inserts. -/
theorem test_qInsert_swims :
    look (exec (.qInsert 1 1 3) { State.reset with hq1 := [⟨3, 1⟩, ⟨5, 0⟩, ⟨8, 2⟩] }) State.hq1 =
      some [⟨1, 3⟩, ⟨3, 1⟩, ⟨8, 2⟩, ⟨5, 0⟩] ∧
    look (exec (.qInsert 1 3 4) { State.reset with hq1 := [⟨1, 3⟩, ⟨3, 1⟩, ⟨8, 2⟩, ⟨5, 0⟩] }) State.hq1 =
      some heapV10 := by decide
/-- V15: the full bank. -/
theorem test_qInsert_full : said (exec (.qInsert 0 1 1) full) = some 0x0800000000000000 := by decide +kernel
theorem test_qPeek :
    said (exec (.qPeek 1) queued) = some 0x10003 ∧ said (exec (.qPeek 0) queued) = some 0x0300000000000000 := by decide
/-- V11: the first two extracts. -/
theorem test_qExtract_sinks :
    look (exec (.qExtract 1) queued) State.hq1 = some [⟨3, 4⟩, ⟨3, 1⟩, ⟨8, 2⟩, ⟨5, 0⟩] ∧
    said (exec (.qExtract 1) queued) = some 0x10003 ∧
    look (exec (.qExtract 1) { queued with hq1 := [⟨3, 4⟩, ⟨3, 1⟩, ⟨8, 2⟩, ⟨5, 0⟩] }) State.hq1 =
      some [⟨3, 1⟩, ⟨5, 0⟩, ⟨8, 2⟩] := by decide
/-- V13: equal children, with the engine's tie policy and with the other. -/
theorem test_qExtract_tie :
    look (exec (.qExtract 0) { State.reset with hq0 := [⟨1, 0⟩, ⟨2, 1⟩, ⟨2, 2⟩, ⟨9, 3⟩] }) State.hq0 =
      some [⟨2, 1⟩, ⟨9, 3⟩, ⟨2, 2⟩] ∧
    look (exec (.qExtract 0) { State.reset with
        hq0 := [⟨1, 0⟩, ⟨2, 1⟩, ⟨2, 2⟩, ⟨9, 3⟩], cfg := { Config.default with tiePolicy := .right } }) State.hq0 =
      some [⟨2, 2⟩, ⟨2, 1⟩, ⟨9, 3⟩] := by decide
theorem test_qSize : said (exec (.qSize 1) queued) = some 5 ∧ said (exec (.qSize 0) queued) = some 0 := by decide
theorem test_qEmpty : said (exec (.qEmpty 0) queued) = some 1 ∧ said (exec (.qEmpty 1) queued) = some 0 := by decide
/-- V16. -/
theorem test_qDup :
    look (exec (.qDup 1) queued) State.hq0 = some heapV10 ∧
    look (exec (.qDup 1) queued) State.hq1 = some heapV10 ∧
    said (exec (.qDup 0) queued) = some 0x0300000000000000 ∧
    look (exec (.qDup 0) { queued with cfg := { Config.default with dupEmptyFails := false } }) State.hq1 = some [] := by
  decide
theorem test_qIterBegin :
    look (exec (.qIterBegin 1) { queued with qitk := 4 }) (fun t => (t.qitb, t.qitk)) = some (1, 1) := by decide
/-- V17, V19: the slot as it is, and the end. -/
theorem test_qIterNext :
    said (exec .qIterNext { queued with qitb := 1, qitk := 3 }) = some 0x80002 ∧
    look (exec .qIterNext { queued with qitb := 1, qitk := 3 }) State.qitk = some 4 ∧
    said (exec .qIterNext { queued with qitb := 1, qitk := 6 }) = some 0x0001000000000000 ∧
    look (exec .qIterNext { queued with qitb := 1, qitk := 6 }) State.qitk = some 6 := by decide
/-- V19 read with U5: after the extract the next Q_ITER_NEXT has no meaning, and after Q_ITER_BEGIN it has one again. -/
theorem test_qIterNext_stale :
    (match exec .qIterNext { queued with iter := .invalid } with
      | .refused .staleIteration => true
      | _ => false) = true ∧
    look (runCommands [.qIterBegin 1, .qIterNext, .qExtract 1] queued) State.iter = some .invalid ∧
    look (runCommands [.qInsert 0 1 1, .qIterNext, .qIterNext] queued) (fun t => t.qitk) = some 2 := by decide
/-- V18. -/
theorem test_qIterRemove : said (exec .qIterRemove queued) = some 0x0500000000000000 := by decide

/-! ### Counting and building (V5, V30 to V39) -/

theorem test_count :
    look (exec (.count 0x41) counting) (fun t => (t.total, t.ftAt 0x41, t.ftAt 0x42)) = some (7, 4, 2) := by decide
/-- V5. -/
theorem test_count_limit :
    said (exec (.count 0x41) { counting with total := 0xFFFFFFFF }) = some 0x0800000000000000 ∧
    look (exec (.count 0x41) { counting with total := 0xFFFFFFFF }) State.total = some 0xFFFFFFFF := by decide
/-- V30. -/
theorem test_build :
    look (exec .build counting) (fun t => (t.phase, t.root, t.nm, t.wp)) =
      some (.ready, 0x101, [⟨3, 0x043, 0x042⟩, ⟨6, 0x041, 0x100⟩], 0x101) ∧
    look (exec .build counting) (fun t => (t.codeWord 0x41, t.codeWord 0x42, t.codeWord 0x43, t.codeWord 0x44)) =
      some ([false], [true, true], [true, false], []) := by decide +kernel
/-- V31, V38. -/
theorem test_build_edges :
    said (exec .build loneCounting) = some 0x61 ∧ look (exec .build loneCounting) State.nm = some [] ∧
    look (exec .build loneCounting) (fun t => t.codeWord 0x61) = some [false] ∧
    said (exec .build State.reset) = some 0x0200000000000000 := by decide +kernel
/-- V32: the second MERGE step of "abracadabra". -/
theorem test_merge_step :
    mergeOnce .left
        { heap := [⟨2, 0x072⟩, ⟨2, 0x100⟩, ⟨2, 0x062⟩, ⟨5, 0x061⟩]
          nm := [⟨2, 0x063, 0x064⟩]
          draws := 2 } =
      .ok
        { heap := [⟨2, 0x062⟩, ⟨5, 0x061⟩, ⟨4, 0x101⟩]
          nm := [⟨2, 0x063, 0x064⟩, ⟨4, 0x072, 0x100⟩]
          draws := 4 } := by decide

/-! ### Textual transforms (V40 to V46) -/

/-- V40. -/
theorem test_enc :
    look (exec (.enc 0x43) ready) State.out = some [0x31, 0x30] ∧ said (exec (.enc 0x43) ready) = some 2 ∧
    look (exec (.enc 0x5A) ready) State.out = some [] ∧ said (exec (.enc 0x5A) ready) = some 0 := by decide +kernel
theorem test_decStart :
    look (exec .decStart ready) (fun t => (t.phase, t.wp)) = some (.dec, 0x101) ∧
    said (exec .decStart decoding) = some 0x0800000000000000 := by decide
/-- V41. -/
theorem test_decb :
    look (exec (.decb 0x30) decoding) (fun t => (t.out, t.wp)) = some ([0x41], 0x101) ∧
    look (exec (.decb 0x31) decoding) (fun t => (t.out, t.wp)) = some ([], 0x100) ∧
    look (exec (.decb 0x30) { decoding with wp := 0x100 }) (fun t => (t.out, t.wp)) = some ([0x43], 0x101) ∧
    said (exec (.decb 0x30) { decoding with wp := 0x100 }) = some 1 := by decide
/-- V45, V46. -/
theorem test_decb_errors :
    said (exec (.decb 0x32) { decoding with wp := 0x100 }) = some 0x0400000000000000 ∧
    look (exec (.decb 0x32) { decoding with wp := 0x100 }) (fun t => (t.phase, t.wp)) = some (.dec, 0x100) ∧
    said (exec (.decb 0x31) { lone with phase := .dec }) = some 0x0400000000000000 ∧
    look (exec (.decb 0x30) { lone with phase := .dec }) State.out = some [0x61] := by decide
/-- V43, V44. -/
theorem test_decEnd :
    said (exec .decEnd decoding) = some 0 ∧
    said (exec .decEnd { decoding with wp := 0x100 }) = some 0x0400000000000000 ∧
    look (exec .decEnd { decoding with wp := 0x100 }) (fun t => (t.phase, t.wp, t.err)) =
      some (.ready, 0x101, some .streamCorruption) := by decide

/-! ### Packed transforms (V50 to V60) -/

theorem test_cmpStart :
    look (exec .cmpStart { ready with bitcount := 5 }) (fun t => (t.phase, t.bitcount, t.pcnt)) = some (.cmp, 0, 0) := by
  decide
/-- V50: the second CMPS 'B' and CMPS 'C'. -/
theorem test_cmps :
    look (exec (.cmps 0x42) { packing with pbuf := 3, pcnt := 5, bitcount := 5 })
      (fun t => (t.out, t.pbuf, t.pcnt, t.bitcount)) = some ([0x0F], 0, 0, 7) ∧
    look (exec (.cmps 0x43) packing) (fun t => (t.out, t.pbuf, t.pcnt)) = some ([], 2, 2) := by decide +kernel
/-- V60: G = 8. -/
theorem test_cmps_eight :
    look (exec (.cmps 0x42) { packing with pbuf := 7, pcnt := 6, cfg := { Config.default with packBits := .eight } })
      (fun t => (t.out, t.pbuf, t.pcnt)) = some ([0x1F], 0, 0) := by decide +kernel
/-- V50, V53. -/
theorem test_cmpEnd :
    look (exec .cmpEnd { packing with pbuf := 2, pcnt := 2 }) (fun t => (t.out, t.phase, t.pcnt)) =
      some ([0x40], .ready, 0) ∧
    said (exec .cmpEnd { packing with pbuf := 2, pcnt := 2 }) = some 1 ∧
    look (exec .cmpEnd packing) State.out = some [] := by decide
theorem test_dcmpStart :
    look (exec .dcmpStart { ready with bitcount := 9 }) (fun t => (t.phase, t.urem, t.wp)) = some (.dcmp, 9, 0x101) := by
  decide
/-- V51, V57. -/
theorem test_dcmpb :
    look (exec (.dcmpb 0x0F) unpacking) (fun t => (t.out, t.urem, t.wp)) =
      some ([0x41, 0x41, 0x41, 0x42, 0x42], 2, 0x101) ∧
    said (exec (.dcmpb 0x8F) unpacking) = some 5 ∧
    look (exec (.dcmpb 0x55) { unpacking with urem := 0 }) (fun t => (t.out, t.wp)) = some ([], 0x101) := by decide
/-- V58. -/
theorem test_dcmpb_raises :
    said (exec (.dcmpb 0x08) { lone with phase := .dcmp, urem := 4 }) = some 0x0400000000000000 ∧
    look (exec (.dcmpb 0x08) { lone with phase := .dcmp, urem := 4 }) (fun t => (t.out, t.urem)) =
      some ([0x61, 0x61, 0x61], 1) := by decide
/-- V55, V56. -/
theorem test_dcmpEnd :
    said (exec .dcmpEnd { unpacking with urem := 2 }) = some 0x0400000000000000 ∧
    said (exec .dcmpEnd { unpacking with urem := 0, wp := 0x100 }) = some 0x0400000000000000 ∧
    look (exec .dcmpEnd { unpacking with urem := 0, wp := 0x100 }) (fun t => (t.phase, t.wp)) = some (.ready, 0x101) ∧
    said (exec .dcmpEnd { unpacking with urem := 0 }) = some 0 := by decide

/-! ### The invariant holds in the states above -/

theorem inv_counting : Inv counting where
  legal := by decide
  keys0 := by rintro _ ⟨⟩
  keys1 := by rintro _ ⟨⟩
  totalFits := by decide
  bits := by decide
  heap0 := heapOk_nil
  heap1 := heapOk_nil
  size0 := by decide
  size1 := by decide
  cursor := by decide
  total := by decide +kernel
  err := by simp [counting]
  packer := by decide
  packerIdle := by decide
  rootNil := by decide
  noTree := by decide +kernel
  tree := fun h => absurd rfl h
  walk := fun h => absurd rfl h
  walkIdle := by decide

theorem inv_loneCounting : Inv loneCounting where
  legal := by decide
  keys0 := by rintro _ ⟨⟩
  keys1 := by rintro _ ⟨⟩
  totalFits := by decide
  bits := by decide
  heap0 := heapOk_nil
  heap1 := heapOk_nil
  size0 := by decide
  size1 := by decide
  cursor := by decide
  total := by decide +kernel
  err := by simp [loneCounting]
  packer := by decide
  packerIdle := by decide
  rootNil := by decide
  noTree := by decide +kernel
  tree := fun h => absurd rfl h
  walk := fun h => absurd rfl h
  walkIdle := by decide

theorem tree_ready : TreeOk ready where
  tree := by
    have hA := Holds.leaf (nm := ready.nm) 0x041 (by decide)
    have hB := Holds.leaf (nm := ready.nm) 0x042 (by decide)
    have hC := Holds.leaf (nm := ready.nm) 0x043 (by decide)
    have h0 := Holds.node (nm := ready.nm) 0x100 ⟨3, 0x043, 0x042⟩ _ _ rfl hC hB
    have h1 := Holds.node (nm := ready.nm) 0x101 ⟨6, 0x041, 0x100⟩ _ _ rfl hA h0
    refine ⟨_, h1, by decide, by decide +kernel, fun b p hp => ?_⟩
    simp only [CodeTree.paths, List.map_append, List.map_cons, List.map_nil, List.mem_append, List.mem_cons,
      Prod.mk.injEq, List.not_mem_nil, or_false] at hp
    rcases hp with ⟨rfl, rfl⟩ | ⟨rfl, rfl⟩ | ⟨rfl, rfl⟩ <;> decide +kernel
  unused := by decide +kernel
  rootWeight := rfl
  nodeWeight := by
    intro n hn
    simp only [ready, List.mem_cons, List.not_mem_nil, or_false] at hn
    rcases hn with rfl | rfl
    · exact ⟨1, 2, by rfl, by rfl, by decide, by decide⟩
    · exact ⟨3, 3, by rfl, by rfl, by decide, by decide⟩
  acyclic := by
    intro k n hk r hr
    match k, hk with
    | 0, hk =>
      cases hk
      rcases hr with rfl | rfl <;> exact .inl (by decide)
    | 1, hk =>
      cases hk
      rcases hr with rfl | rfl
      · exact .inl (by decide)
      · exact .inr ⟨0, by decide, by decide⟩
  nodeCount := by decide +kernel
  rootLast := by decide

theorem tree_lone : TreeOk lone where
  tree := by
    refine ⟨_, Holds.leaf (nm := lone.nm) 0x061 (by decide), by decide, by decide +kernel, fun b p hp => ?_⟩
    simp only [CodeTree.paths, List.mem_cons, Prod.mk.injEq, List.not_mem_nil, or_false] at hp
    rcases hp with ⟨rfl, rfl⟩
    decide +kernel
  unused := by decide +kernel
  rootWeight := rfl
  nodeWeight := by
    intro n hn
    cases hn
  acyclic := by
    intro k n hk
    cases hk
  nodeCount := by decide +kernel
  rootLast := by decide

theorem inv_ready : Inv ready where
  legal := by decide
  keys0 := by rintro _ ⟨⟩
  keys1 := by rintro _ ⟨⟩
  totalFits := by decide
  bits := by decide
  heap0 := heapOk_nil
  heap1 := heapOk_nil
  size0 := by decide
  size1 := by decide
  cursor := by decide
  total := by decide +kernel
  err := by simp [ready, counting]
  packer := by decide
  packerIdle := by decide
  rootNil := by decide
  noTree := by decide +kernel
  tree := fun _ => tree_ready
  walk := fun _ => .inl rfl
  walkIdle := fun _ => rfl

theorem inv_lone : Inv lone where
  legal := by decide
  keys0 := by rintro _ ⟨⟩
  keys1 := by rintro _ ⟨⟩
  totalFits := by decide
  bits := by decide
  heap0 := heapOk_nil
  heap1 := heapOk_nil
  size0 := by decide
  size1 := by decide
  cursor := by decide
  total := by decide +kernel
  err := by simp [lone, loneCounting]
  packer := by decide
  packerIdle := by decide
  rootNil := by decide
  noTree := by decide +kernel
  tree := fun _ => tree_lone
  walk := fun _ => .inl rfl
  walkIdle := fun _ => rfl

theorem inv_decoding : Inv decoding :=
  inv_ready.rephase (by decide) (by decide) rfl rfl rfl rfl rfl rfl rfl rfl rfl rfl (by decide) (.inr ⟨rfl, rfl⟩) rfl

theorem inv_packing : Inv packing :=
  inv_ready.rephase (by decide) (by decide) rfl rfl rfl rfl rfl rfl rfl rfl rfl rfl (by decide) (.inr ⟨rfl, rfl⟩) rfl

theorem inv_unpacking : Inv unpacking :=
  inv_ready.rephase (by decide) (by decide) rfl rfl rfl rfl rfl rfl rfl rfl rfl rfl (by decide) (.inr ⟨rfl, rfl⟩) rfl

/-! ### Witnesses: for each statement with hypotheses, states and operands that meet them -/

theorem witness_EncodeOfDecode : decode 0x2000FFFFFFFF01FF = .ok (.qInsert 0 0xFFFFFFFF 0x1FF) := by decide

theorem witness_StepRunsDecoded :
    (State.reset.present 0x0804000000000000).port = .command 0x0804000000000000 :: [] ∧
    decode 0x0804000000000000 = .ok (.rdcsr 0x04) := by decide

theorem witness_StepRejectsIllegalWord :
    (State.reset.present 0).port = .command 0 :: [] ∧ (∀ row ∈ opcodeRows, (0 : Word64) &&& row.1 ≠ row.2) ∧
    (∀ row ∈ opcodeRows, (0x0100000000000001 : Word64) &&& row.1 ≠ row.2) ∧
    decode 0x080A000000000000 = .ok (.rdcsr 0x0A) ∧ (Instr.rdcsr 0x0A).wellFormed State.reset.cfg = false ∧
    decode 0x2000000100000000 = .ok (.qInsert 0 0x10000 0) ∧
    (Instr.qInsert 0 0x10000 0).wellFormed { Config.default with weightBits := 16 } = false :=
  ⟨by decide, by simp [opcodeRows], by simp [opcodeRows], by decide, by decide, by decide, by decide⟩

/-- The queue of V10 on an engine with W = 16. -/
def narrow : State := { queued with cfg := { Config.default with weightBits := 16 } }

theorem witness_IllegalOperand :
    (Instr.rdcsr 0x0A).wellFormed queued.cfg = false ∧ (Instr.rdcsr 0xFF).wellFormed queued.cfg = false ∧
    (Instr.wrcsr 0x00 0).wellFormed queued.cfg = false ∧ (Instr.wrcsr 0x03 0).wellFormed queued.cfg = false ∧
    (Instr.qInsert 1 0x10000 0).wellFormed narrow.cfg = false := by decide

theorem witness_StepIdleHoldsState : State.reset.port = [] := by decide

theorem witness_StepHardwareReset : ({ unpacking with port := [.reset] } : State).port = .reset :: [] := by decide

theorem witness_StepKeepsInvariant :
    Inv (ready.present 0x4000000000000042) ∧ ∃ t, step (ready.present 0x4000000000000042) = .next t :=
  ⟨inv_ready.withPort _, _, rfl⟩

/-- The three cases: a step that completes, an iteration that is no longer valid, fewer slots than symbols. -/
theorem witness_StepCompletesFromInvariant :
    Inv (unpacking.present 0x480000000000000F) ∧ Inv ({ ready with iter := .invalid }.present 0x2700000000000000) ∧
    Inv ({ counting with cfg := { Config.default with pqSlots := 2 } }.present 0x0300000000000000) := by
  refine ⟨inv_unpacking.withPort _, (inv_ready.congr (t := { ready with iter := .invalid }) rfl inv_ready.err rfl rfl
    rfl rfl rfl rfl inv_ready.bank0 inv_ready.bank1 inv_ready.cursor inv_ready.bits inv_ready.packer
    inv_ready.packerIdle (.inl rfl)).withPort _, ?_⟩
  exact { inv_counting with
    legal := by decide, size0 := by decide, size1 := by decide, cursor := by decide
    keys0 := by rintro _ ⟨⟩, keys1 := by rintro _ ⟨⟩, tree := fun h => absurd rfl h }

theorem witness_WrongPhaseIsIllegal :
    counting.phase ∉ (Instr.enc 0x41).phases ∧ ready.phase ∉ Instr.build.phases ∧
    decoding.phase ∉ (Instr.wrcsr 0x02 1).phases ∧ packing.phase ∉ (Instr.dcmpb 0).phases ∧
    unpacking.phase ∉ Instr.decEnd.phases := by decide

theorem witness_OneResponsePerCommand : ∃ t, exec (.qSize 1) queued = .next t := ⟨_, rfl⟩

/-- Both clauses: a response with an error, and one without. -/
theorem witness_RaiseReportsAndRecords :
    (∃ t, exec (.qPeek 0) queued = .next t ∧ t.resps = queued.resps ++ [failed .emptyQueue]) ∧
    (∃ t, exec (.qSize 1) queued = .next t ∧ t.resps = queued.resps ++ [answered 5] ∧ Instr.qSize 1 ≠ .clr) :=
  ⟨⟨_, rfl, rfl⟩, _, rfl, rfl, by decide⟩

/-- An error on top of an error, a first error, and CLR. -/
theorem witness_ErrIsSticky :
    (∃ t, exec (.qPeek 0) { queued with err := some .emptyInput } = .next t ∧ Instr.qPeek 0 ≠ .clr ∧
      ({ queued with err := some .emptyInput } : State).err = some .emptyInput) ∧
    (∃ t, exec (.qPeek 0) queued = .next t ∧ queued.err = none ∧ t.resps = queued.resps ++ [failed .emptyQueue]) ∧
    ∃ t, exec .clr { queued with err := some .emptyInput } = .next t :=
  ⟨⟨_, rfl, by decide, rfl⟩, ⟨_, rfl, rfl, rfl⟩, _, rfl⟩

theorem witness_OnlyListedErrors :
    ∃ t, exec .qIterRemove queued = .next t ∧ t.resps = queued.resps ++ [failed .unsupportedOperation] :=
  ⟨_, rfl, rfl⟩

/-- The three clauses, and the second ground of the first: a plain raise, a stream command in the wrong phase, a stream
that is closed, a byte whose fourth digit is no code word (V58). -/
theorem witness_ErrorsArePrecise :
    (∃ t, exec (.qPeek 0) queued = .next t ∧ t.resps = queued.resps ++ [failed .emptyQueue]) ∧
    (∃ t, exec .decEnd ready = .next t ∧ t.resps = [failed .illegalCommand]) ∧
    (∃ t, exec .decEnd { decoding with wp := 0x100 } = .next t ∧ t.resps = [failed .streamCorruption]) ∧
    (∃ t, exec (.dcmpb 0x08) { lone with phase := .dcmp, urem := 4 } = .next t ∧
      t.resps = [failed .streamCorruption]) :=
  ⟨⟨_, rfl, rfl⟩, ⟨_, rfl, rfl⟩, ⟨_, rfl, rfl⟩, _, rfl, rfl⟩

theorem witness_OutOnlyGrows :
    ∃ t, exec (.decb 0x30) decoding = .next t ∧ t.out = decoding.out ++ [0x41] :=
  ⟨_, rfl, rfl⟩

theorem witness_TreeIsImmutable :
    ∃ t, exec (.decb 0x31) decoding = .next t ∧ decoding.phase ≠ .count ∧ Instr.decb 0x31 ≠ .clr :=
  ⟨_, rfl, by decide, by decide⟩

theorem witness_PortAndParametersUntouched : ∃ t, exec (.count 0x41) counting = .next t := ⟨_, rfl⟩

theorem witness_NoFreeChoiceWithoutAny :
    queued.cfg.tiePolicy ≠ .any ∧ ∃ t, exec (.qExtract 1) queued = .next t := ⟨by decide, _, rfl⟩

theorem witness_QueueCommandsFrame :
    (∃ t, exec (.qInsert 0 1 1) queued = .next t) ∧ (∃ t, exec (.qPeek 1) queued = .next t) ∧
    (∃ t, exec (.qExtract 1) queued = .next t) ∧ (∃ t, exec (.qSize 1) queued = .next t) ∧
    (∃ t, exec (.qEmpty 1) queued = .next t) ∧ (∃ t, exec (.qDup 1) queued = .next t) ∧
    (∃ t, exec (.qIterBegin 1) queued = .next t) ∧ (∃ t, exec .qIterNext queued = .next t) ∧
    (∃ t, exec .qIterRemove queued = .next t) :=
  ⟨⟨_, rfl⟩, ⟨_, rfl⟩, ⟨_, rfl⟩, ⟨_, rfl⟩, ⟨_, rfl⟩, ⟨_, rfl⟩, ⟨_, rfl⟩, ⟨_, rfl⟩, _, rfl⟩

theorem witness_TransformsFrame :
    (∃ t, exec (.enc 0x41) ready = .next t) ∧ (∃ t, exec .decStart ready = .next t) ∧
    (∃ t, exec (.decb 0x30) decoding = .next t) ∧ (∃ t, exec .decEnd decoding = .next t) ∧
    (∃ t, exec .cmpStart ready = .next t) ∧ (∃ t, exec (.cmps 0x41) packing = .next t) ∧
    (∃ t, exec .cmpEnd packing = .next t) ∧ (∃ t, exec .dcmpStart ready = .next t) ∧
    (∃ t, exec (.dcmpb 0) unpacking = .next t) ∧ (∃ t, exec .dcmpEnd unpacking = .next t) :=
  ⟨⟨_, rfl⟩, ⟨_, rfl⟩, ⟨_, rfl⟩, ⟨_, rfl⟩, ⟨_, rfl⟩, ⟨_, rfl⟩, ⟨_, rfl⟩, ⟨_, rfl⟩, ⟨_, rfl⟩, _, rfl⟩

/-- Each of the ten CSR numbers, and the first and the last that are none. -/
theorem witness_RdcsrResult :
    9 < (0x0A : BitVec 8).toNat ∧ 9 < (0xFF : BitVec 8).toNat ∧
    (∀ c : BitVec 8, c ∈ [0x00, 0x01, 0x02, 0x03, 0x04, 0x05, 0x06, 0x07, 0x08, 0x09] → c.toNat ≤ 9) ∧
    ready.nm.length ≤ 255 := by decide

theorem witness_WrcsrResult :
    ((0x02 : BitVec 8) = 0x02 ∧ (counting.phase = .count ∨ counting.phase = .ready)) ∧
    ((0x02 : BitVec 8) = 0x02 ∧ (ready.phase = .count ∨ ready.phase = .ready)) ∧
    ¬((0x02 : BitVec 8) = 0x02 ∧ (unpacking.phase = .count ∨ unpacking.phase = .ready)) ∧
    ¬((0x03 : BitVec 8) = 0x02 ∧ (ready.phase = .count ∨ ready.phase = .ready)) ∧
    (0xFFFFFFFFFFFF : Val).toNat < 2 ^ ready.cfg.bitcountBits := by decide

theorem full_length : (full.bank 0).length = 256 := List.length_replicate

/-- The clauses meet at 255 and 256 live entries, and at the keys 0xFFFF and 0x10000 where W = 16. -/
theorem witness_QInsertResult :
    (({ full with hq0 := List.replicate 255 ⟨0, 0⟩ } : State).bank 0).length = 255 ∧
    (full.bank 0).length = full.cfg.pqSlots ∧ (0xFFFFFFFF : Weight).toNat < 2 ^ full.cfg.weightBits ∧
    (0xFFFF : Weight).toNat < 2 ^ narrow.cfg.weightBits ∧ 2 ^ narrow.cfg.weightBits ≤ (0x10000 : Weight).toNat ∧
    (narrow.bank 1).length ≠ narrow.cfg.pqSlots :=
  ⟨List.length_replicate, full_length, by decide, by decide, by decide, by decide⟩

theorem heapV10_ok : HeapOk heapV10 := by
  rw [heapOk_iff]
  intro c h1 h2
  have : c = 2 ∨ c = 3 ∨ c = 4 ∨ c = 5 := by
    have : heapV10.length = 5 := rfl
    omega
  rcases this with rfl | rfl | rfl | rfl <;> decide

theorem witness_QPeekResult :
    queued.bank 1 = ⟨1, 3⟩ :: heapV10.tail ∧ HeapOk (queued.bank 1) ∧ queued.bank 0 = [] :=
  ⟨by decide, heapV10_ok, by decide⟩

theorem witness_QExtractResult :
    queued.bank 1 = ⟨1, 3⟩ :: heapV10.tail ∧ HeapOk (queued.bank 1) ∧ heapV10.tail.getLast? = some ⟨3, 4⟩ ∧
    queued.bank 0 = [] :=
  ⟨by decide, heapV10_ok, by decide, by decide⟩

/-- V13 read off the specification of the tie: left takes slot 2 and not slot 3, right takes slot 3 and not slot 2. -/
theorem test_sinkChild :
    let h : List Entry := [⟨1, 0⟩, ⟨2, 1⟩, ⟨2, 2⟩]
    SinkChild .left h 1 2 ∧ ¬ SinkChild .left h 1 3 ∧ SinkChild .right h 1 3 ∧ ¬ SinkChild .right h 1 2 := by
  refine ⟨⟨⟨2, 1⟩, rfl, .inr ⟨⟨2, 2⟩, rfl, .inl ⟨rfl, .inr (by decide)⟩⟩⟩, ?_,
    ⟨⟨2, 1⟩, rfl, .inr ⟨⟨2, 2⟩, rfl, .inr ⟨rfl, .inr (by decide)⟩⟩⟩, ?_⟩
  · rintro ⟨l, hl, h | ⟨r, hr, h | h⟩⟩
    · simp at h
    · simp at h
    · cases hl; cases hr; simp at h
  · rintro ⟨l, hl, h | ⟨r, hr, h | h⟩⟩
    · simp at h
    · cases hl; cases hr; simp at h
    · simp at h

theorem witness_DrainIsSorted : HeapOk (queued.bank 1) := heapV10_ok

theorem witness_QSizeAndEmptyResult : (full.bank 0).length ≤ 510 ∧ (queued.bank 0).length ≤ 510 :=
  ⟨full_length.le.trans (by decide), by decide⟩

/-- The three cases: a bank with entries, an empty bank under either value of DUP_EMPTY_FAILS. -/
theorem witness_QDupResult :
    queued.bank 1 ≠ [] ∧
    ({ queued with cfg := { Config.default with dupEmptyFails := false } } : State).cfg.dupEmptyFails = false ∧
    (queued.bank 0 = [] ∧ queued.cfg.dupEmptyFails = true) := by decide

/-- The clauses meet at the last live slot and one past it. -/
theorem witness_QIterNextResult : queued.iter ≠ .invalid ∧
    (let s := { queued with qitb := 1, qitk := 5 }; slot (s.bank s.qitb) s.qitk.toNat = .ok ⟨3, 4⟩) ∧
    (let s := { queued with qitb := 1, qitk := 6 }; (s.bank s.qitb).length < s.qitk.toNat) := ⟨by decide, rfl, by decide⟩

theorem witness_IterationInArrayOrder : (full.bank 0).length ≤ 510 ∧ (queued.bank 0).length ≤ 510 :=
  ⟨full_length.le.trans (by decide), by decide⟩

/-- The clauses: an iteration begun; one that goes on, and one whose bank is written; one that stays invalid; one that
is given no meaning; one that is read. -/
theorem witness_IterationMarkIsSound :
    (∃ t, exec (.qIterBegin 1) queued = .next t) ∧
    (∃ t, exec (.qExtract 1) { queued with iter := .valid } = .next t ∧ ∀ q, Instr.qExtract 1 ≠ .qIterBegin q) ∧
    (∃ t, exec (.qExtract 1) { queued with iter := .valid, qitb := 1 } = .next t ∧ t.iter = .invalid) ∧
    (∃ t, exec (.qSize 1) { queued with iter := .invalid } = .next t ∧ ∀ q, Instr.qSize 1 ≠ .qIterBegin q) ∧
    ({ queued with iter := .invalid } : State).iter = .invalid ∧ ∃ t, exec .qIterNext queued = .next t :=
  ⟨⟨_, rfl⟩, ⟨_, rfl, by decide⟩, ⟨_, rfl, rfl⟩, ⟨_, rfl, by decide⟩, rfl, _, rfl⟩

/-- The clauses meet at TOTAL = 2^32 - 2 and 2^32 - 1. -/
theorem witness_CountResult :
    (({ counting with total := 0xFFFFFFFE } : State).phase = .count ∧
      ({ counting with total := 0xFFFFFFFE } : State).total.toNat ≠ 2 ^ counting.cfg.weightBits - 1) ∧
    ({ counting with total := 0xFFFFFFFF } : State).total.toNat = 2 ^ counting.cfg.weightBits - 1 ∧
      ready.phase ≠ .count := by decide

/-- The clauses meet at three slots and two for three symbols. -/
theorem witness_BuildResult : Inv counting ∧ counting.phase = .count ∧ counting.total ≠ 0 ∧
    distinct counting.ft = 3 ∧ distinct counting.ft ≤ counting.cfg.pqSlots :=
  ⟨inv_counting, by decide, by decide, by decide +kernel, by decide +kernel⟩

theorem witness_BuildEmptyInput : queued.phase = .count ∧ queued.total = 0 := by decide

theorem witness_BuildSingleSymbol :
    Inv loneCounting ∧ loneCounting.phase = .count ∧ loneCounting.ftAt 0x61 ≠ 0 ∧
      ∀ c, c ≠ 0x61 → loneCounting.ftAt c = 0 :=
  ⟨inv_loneCounting, by decide, by decide +kernel, by decide +kernel⟩

theorem witness_BuildIgnoresBankZero : counting.phase = .count ∧ counting.total ≠ 0 := by decide

theorem witness_CodeIsPrefixFree :
    Inv ready ∧ ready.phase ≠ .count ∧ (0x42 : Sym) ≠ 0x43 ∧ ready.ftAt 0x42 ≠ 0 ∧ ready.ftAt 0x43 ≠ 0 :=
  ⟨inv_ready, by decide, by decide, by decide +kernel, by decide +kernel⟩

/-- A code of the counted symbols other than BUILD's. -/
def otherCode (b : Sym) : List Bool :=
  if b = 0x41 then [true] else if b = 0x42 then [false, true] else if b = 0x43 then [false, false] else []

theorem witness_CodeIsOptimal :
    Inv counting ∧ counting.phase = .count ∧ counting.total ≠ 0 ∧ (∃ t, exec .build counting = .next t) ∧
      (∀ b, counting.ftAt b ≠ 0 → otherCode b ≠ []) ∧
      (∀ a ∈ [0x41, 0x42, 0x43], ∀ b ∈ [0x41, 0x42, 0x43], a ≠ b → ¬ otherCode a <+: otherCode b) ∧
      (∀ b, counting.ftAt b ≠ 0 → b ∈ ([0x41, 0x42, 0x43] : List Sym)) := by
  refine ⟨inv_counting, by decide, by decide, ?_, by decide +kernel, by decide, by decide +kernel⟩
  obtain ⟨t, e, -⟩ := buildTree_spec counting.cfg counting.ft counting.draws (by decide +kernel)
    (by decide +kernel) (by decide +kernel)
  simp only [exec, execBuild]
  rw [if_pos (by decide), if_neg (by decide), e]
  exact ⟨_, rfl⟩

theorem witness_StreamStartsResult : ready.phase = .ready := by decide

theorem witness_EncResult : ready.phase = .ready ∧ ready.codeWord 0x5A = [] ∧ ready.codeWord 0x42 = [true, true] :=
  ⟨by decide, by decide +kernel, by decide +kernel⟩

/-- The four clauses: a digit on a tree with internal nodes, '0' and '1' on a single-symbol tree, another byte. -/
theorem witness_DecbResult :
    (decoding.phase = .dec ∧ isLeaf decoding.root = false ∧ decoding.node decoding.wp = .ok ⟨6, 0x041, 0x100⟩) ∧
    (({ lone with phase := .dec } : State).phase = .dec ∧ isLeaf ({ lone with phase := .dec } : State).root = true) ∧
    ((0x2F : Byte) ≠ 0x30 ∧ (0x2F : Byte) ≠ 0x31 ∧ (0x32 : Byte) ≠ 0x30 ∧ (0x32 : Byte) ≠ 0x31) :=
  ⟨⟨by decide, by decide, rfl⟩, by decide, by decide⟩

theorem witness_DecEndResult :
    decoding.phase = .dec ∧ decoding.wp = decoding.root ∧
    ({ decoding with wp := 0x100 } : State).wp ≠ ({ decoding with wp := 0x100 } : State).root := by decide

theorem counted_letters : ∀ b ∈ ([0x41, 0x42, 0x43] : List Sym), ready.ftAt b ≠ 0 := by decide +kernel

theorem witness_TextualRoundTrip :
    Inv ready ∧ ready.phase = .ready ∧ ∀ b ∈ ([0x41, 0x42, 0x43] : List Sym), ready.ftAt b ≠ 0 :=
  ⟨inv_ready, by decide, counted_letters⟩

/-- An empty packer and one with G - 1 digits, for both values of G. -/
theorem witness_CmpsResult :
    (packing.phase = .cmp ∧ packing.pcnt.toNat < packing.g ∧ packing.pbuf.toNat < 2 ^ packing.pcnt.toNat) ∧
    (let s := { packing with pcnt := 6, pbuf := 0x3F }; s.pcnt.toNat < s.g ∧ s.pbuf.toNat < 2 ^ s.pcnt.toNat) ∧
    (let s := { packing with pcnt := 7, cfg := { Config.default with packBits := .eight } }; s.pcnt.toNat < s.g) := by
  decide

theorem witness_CmpEndResult :
    packing.phase = .cmp ∧ packing.pcnt.toNat < packing.g ∧ packing.pcnt = 0 ∧
    ({ packing with pcnt := 6 } : State).pcnt.toNat < packing.g ∧ ({ packing with pcnt := 6 } : State).pcnt ≠ 0 := by
  decide

/-- A budget above G, one below, and a digit that raises (V58). -/
theorem witness_DcmpbResult :
    unpacking.phase = .dcmp ∧
    (∃ t, walkDigits ((packedDigits unpacking.g 0x0F).take (min unpacking.g unpacking.urem.toNat)) unpacking = .ok t) ∧
    (let s := { unpacking with urem := 2 };
      ∃ t, walkDigits ((packedDigits s.g 0x40).take (min s.g s.urem.toNat)) s = .ok t) ∧
    (let s := { lone with phase := .dcmp, urem := 4 };
      s.phase = .dcmp ∧ (packedDigits s.g 0x08).take (min s.g s.urem.toNat) = [false, false, false] ++ true :: [] ∧
      ∃ t, walkDigits [false, false, false] s = .ok t ∧ walk t true = .raised .streamCorruption t) :=
  ⟨by decide, ⟨_, rfl⟩, ⟨_, rfl⟩, by decide, by decide, _, rfl, rfl⟩

theorem witness_DcmpbCompletes :
    Inv unpacking ∧ unpacking.phase = .dcmp ∧ isLeaf unpacking.root = false := ⟨inv_unpacking, by decide, by decide⟩

theorem witness_DcmpbIgnoresBitSeven :
    unpacking.g = 7 ∧ (0x8F : Byte).extractLsb' 0 7 = (0x0F : Byte).extractLsb' 0 7 := by decide

theorem witness_DcmpEndResult :
    unpacking.phase = .dcmp ∧ unpacking.wp = unpacking.root ∧ ({ unpacking with urem := 0 } : State).urem = 0 ∧
    unpacking.urem ≠ 0 ∧ ({ unpacking with wp := 0x100 } : State).wp ≠ unpacking.root := by decide

theorem witness_PackedRoundTrip :
    Inv ready ∧ ready.phase = .ready ∧ (∀ b ∈ ([0x41, 0x42, 0x43] : List Sym), ready.ftAt b ≠ 0) ∧
      ((([0x41, 0x42, 0x43] : List Sym)).map fun b => (ready.codeWord b).length).sum < 2 ^ ready.cfg.bitcountBits :=
  ⟨inv_ready, by decide, counted_letters, by decide +kernel⟩

end Sys2Proof.Tests
end

section
/-! How a step unfolds: the next thing at the port is taken off and run (spec/00_scope.md R14), a command word through
the decoder (spec/30_encoding.md R85, R93). -/

namespace Sys2Proof.Machine

open Sys2Proof

/-- A step takes the first thing off the port and runs it. -/
theorem step_of_port_cons {s : State} {e : HostEvent} {rest : List HostEvent} (hport : s.port = e :: rest) :
    step s = runEvent e { s with port := rest } := by
  simp only [step, portStep, hport]

@[simp] theorem runEvent_command (w : Word64) (s : State) : runEvent (.command w) s = runWord w s := rfl

/-- A word that decodes is executed: `runWord` adds nothing to `exec`. -/
theorem runWord_of_decode {w : Word64} {i : Instr} (hdecode : decode w = .ok i) (s : State) :
    runWord w s = exec i s := by
  simp only [runWord, hdecode]

/-- Settles O6: the step is `runWord` of the word taken off the port, which is `exec` of what the word decodes to. -/
theorem stepRunsDecoded : Obligations.StepRunsDecoded := by
  intro s w rest i hport hdecode
  calc step s = runEvent (.command w) { s with port := rest } := step_of_port_cons hport
    _ = runWord w { s with port := rest } := runEvent_command w _
    _ = exec i { s with port := rest } := runWord_of_decode hdecode _

end Sys2Proof.Machine
end

section
/-! The invariant of R44 step by step (spec/10_state.md R30 to R45, spec/70_reset_and_hazards.md R221). `Sound` says at
once that a command completes and that the state it leaves keeps the invariant; one lemma per command shows it, with the
model's two stops named where they arise, and `step_sound` gathers them for whatever the host presents. -/

namespace Sys2Proof

open Sys2Proof.Machine

/-! ### What is to be shown of an answer -/

/-- The command completes, in a state that keeps the invariant. -/
def Sound (a : Answer) : Prop := ∃ t, a = .next t ∧ Inv t

theorem Sound.inv {a : Answer} {t : State} (h : Sound a) (e : a = .next t) : Inv t := by
  obtain ⟨u, eu, hu⟩ := h
  cases eu.symm.trans e
  exact hu

theorem sound_next {t : State} (h : Inv t) : Sound (.next t) := ⟨t, rfl, h⟩

theorem sound_ite {p : Prop} [Decidable p] {a b : Answer} (ha : p → Sound a) (hb : ¬ p → Sound b) :
    Sound (if p then a else b) := by
  split
  · exact ha ‹_›
  · exact hb ‹_›

theorem sound_respond {s : State} (h : Inv s) (v : Val) : Sound (.next (s.respond v)) := sound_next (h.respond v)

theorem sound_raise {s : State} (h : Inv s) {e : Err} (he : e ∈ raisable) : Sound (.next (s.raise e)) :=
  sound_next (h.raise he)

theorem sound_illegal {s : State} (h : Inv s) : Sound s.illegal := sound_raise h (by decide)

/-- A command that ends with `finish` is sound when its run is never stuck and leaves the invariant. -/
theorem sound_finish (s : State) {r : Run} (hok : ∀ t, r = .ok t → Inv t)
    (hraised : ∀ e t, r = .raised e t → e ∈ raisable ∧ Inv t) (hstuck : ∀ f, r ≠ .stuck f) : Sound (finish s r) := by
  cases r with
  | ok t => exact sound_respond (hok t rfl) _
  | raised e t =>
    obtain ⟨he, ht⟩ := hraised e t rfl
    exact sound_raise ht he
  | stuck f => exact absurd rfl (hstuck f)

/-! ### Reset (R43, R100, R210) -/

/-- The reset values keep the invariant under any legal parameters. -/
theorem inv_hardReset {s : State} (hlegal : s.cfg.Legal) : Inv s.hardReset where
  legal := hlegal
  heap0 := heapOk_nil
  heap1 := heapOk_nil
  size0 := Nat.zero_le _
  size1 := Nat.zero_le _
  keys0 := by simp
  keys1 := by simp
  cursor := by simp
  total := by rw [counted_eq]; simp [ftGet]
  totalFits := by simp [keyFits]
  bits := by simp
  err := by simp
  packer := ⟨by have := g_bounds s.hardReset; simp; omega, by simp⟩
  packerIdle := by simp
  rootNil := by simp
  noTree := fun _ => ⟨rfl, rfl, fun b => by simp [codeWord_def, Code.digits]⟩
  tree := fun h => absurd rfl h
  walk := fun h => absurd rfl h
  walkIdle := by simp

theorem inv_cleared {s : State} (hlegal : s.cfg.Legal) : Inv s.cleared :=
  have h := inv_hardReset hlegal
  h.congr rfl h.err rfl rfl rfl rfl rfl rfl h.bank0 h.bank1 h.cursor h.bits h.packer h.packerIdle (.inl rfl)

/-! ### Fields that the invariant bounds on their own -/

/-- A count that has room for one more is one more (R13). -/
theorem toNat_succ {n : Nat} {x : BitVec n} (h : x.toNat + 1 < 2 ^ n) : (x + 1).toNat = x.toNat + 1 := by
  have hwidth : 0 < n := Nat.pos_of_ne_zero fun e => by subst e; omega
  have hone : (1 : BitVec n).toNat = 1 := BitVec.toNat_one hwidth
  rw [BitVec.toNat_add_of_lt (by omega), hone]

/-- OUT does not matter to the invariant. -/
theorem Inv.withOut {s : State} (h : Inv s) (bytes : List Byte) : Inv { s with out := bytes } :=
  h.congr rfl h.err rfl rfl rfl rfl rfl rfl h.bank0 h.bank1 h.cursor h.bits h.packer h.packerIdle (.inl rfl)

/-- How many ExtractMin have run does not matter to the invariant. -/
theorem Inv.withDraws {s : State} (h : Inv s) (n : Nat) : Inv { s with draws := n } :=
  h.congr rfl h.err rfl rfl rfl rfl rfl rfl h.bank0 h.bank1 h.cursor h.bits h.packer h.packerIdle (.inl rfl)

/-- The cursor may go to any slot up to the one behind the last a bank can have (R32). -/
theorem Inv.withCursor {s : State} (h : Inv s) (q : Bank) {k : BitVec 9} (m : IterMark) (hlo : 1 ≤ k.toNat)
    (hhi : k.toNat ≤ s.cfg.pqSlots + 1) : Inv { s with qitb := q, qitk := k, iter := m } :=
  h.congr rfl h.err rfl rfl rfl rfl rfl rfl h.bank0 h.bank1 ⟨hlo, hhi⟩ h.bits h.packer h.packerIdle (.inl rfl)

theorem Inv.setBitcount {s : State} (h : Inv s) (n : Nat) : Inv (s.setBitcount n) :=
  h.congr rfl h.err rfl rfl rfl rfl rfl rfl h.bank0 h.bank1 h.cursor ⟨inBitcount_lt _ n, h.bits.2⟩ h.packer
    h.packerIdle (.inl rfl)

/-! ### Banks (R30, R31, R111 to R115) -/

theorem bankOk_nil (c : Config) : BankOk c [] := ⟨heapOk_nil, Nat.zero_le _, by simp⟩

/-- Insert into a bank with room answers, and leaves it in order. -/
theorem BankOk.insert {c : Config} {h : List Entry} (hb : BankOk c h) {e : Entry} (hkey : keyFits c e.key = true)
    (hroom : h.length < c.pqSlots) : ∃ h', heapInsert h e = .ok h' ∧ BankOk c h' := by
  obtain ⟨h', heq, hperm, hheap⟩ := heapInsert_spec h e
  have hlen : h'.length = h.length + 1 := hperm.length_eq
  refine ⟨h', heq, hheap hb.heap, by omega, fun x hx => ?_⟩
  rcases List.mem_cons.mp (hperm.mem_iff.mp hx) with rfl | hx
  · exact hkey
  · exact hb.keys x hx

/-- ExtractMin of a non-empty bank answers, and leaves it in order. -/
theorem BankOk.extract {c : Config} {h : List Entry} (hb : BankOk c h) (hne : h ≠ []) (right : Nat → Bool) :
    ∃ m h', extractMin right h = .ok (m, h') ∧ BankOk c h' := by
  obtain ⟨m, h', heq, -, hperm, hheap⟩ := extractMin_spec right h hne
  have hlen : h.length = h'.length + 1 := hperm.length_eq
  have hsize := hb.size
  exact ⟨m, h', heq, hheap hb.heap, by omega, fun x hx => hb.keys x (hperm.mem_iff.mpr (List.mem_cons_of_mem m hx))⟩

/-! ### System commands (spec/40_system.md) -/

theorem execClr_sound {s : State} (h : Inv s) : Sound (execClr s) := sound_respond (inv_cleared h.legal) _

theorem execRdcsr_sound {s : State} (h : Inv s) (c : BitVec 8) : Sound (execRdcsr c s) := by
  unfold execRdcsr
  split
  · exact sound_respond h _
  · exact sound_illegal h

theorem execWrcsr_sound {s : State} (h : Inv s) (c : BitVec 8) (v : Val) : Sound (execWrcsr c v s) :=
  sound_ite (fun _ => sound_respond (h.setBitcount _) _) fun _ => sound_illegal h

/-! ### The queue (spec/41_queue.md) -/

theorem execQInsert_sound {s : State} (h : Inv s) (q : Bank) (key : Weight) (item : Ref) :
    Sound (execQInsert q key item s) := by
  refine sound_ite (fun _ => sound_illegal h) fun hkey => sound_ite (fun _ => sound_illegal h) fun hfull => ?_
  have hb := h.bank q
  obtain ⟨l, heq, hl⟩ := hb.insert (e := ⟨key, item⟩) (by simpa using hkey) (lt_of_le_of_ne hb.size hfull)
  simpa only [heq] using sound_respond (h.setBank q hl) 0

theorem execQPeek_sound {s : State} (h : Inv s) (q : Bank) : Sound (execQPeek q s) := by
  refine sound_ite (fun _ => sound_raise h (by decide)) fun hne => ?_
  simpa only [slot_eq (Nat.le_refl 1) (Nat.one_le_iff_ne_zero.mpr hne)] using sound_respond h _

theorem execQExtract_sound {s : State} (h : Inv s) (q : Bank) : Sound (execQExtract q s) := by
  refine sound_ite (fun _ => sound_raise h (by decide)) fun hne => ?_
  obtain ⟨m, l, heq, hl⟩ :=
    (h.bank q).extract (by simpa using hne) (tieChoice s.cfg.tiePolicy s.draws)
  simpa only [heq] using sound_respond ((h.setBank q hl).withDraws (s.draws + 1)) _

theorem execQDup_sound {s : State} (h : Inv s) (q : Bank) : Sound (execQDup q s) :=
  sound_ite
    (fun _ => sound_ite (fun _ => sound_raise h (by decide))
      fun _ => sound_respond (h.setBank (1 - q) (bankOk_nil _)) _)
    fun _ => sound_respond (h.setBank (1 - q) (h.bank q)) _

theorem execQIterBegin_sound {s : State} (h : Inv s) (q : Bank) : Sound (execQIterBegin q s) :=
  sound_respond (h.withCursor q .valid (by simp) (by simp)) _

/-- Over a bank that was not changed, Q_ITER_NEXT reads a live slot or ends: QITK goes one slot on only from a live
one. -/
theorem execQIterNext_sound {s : State} (h : Inv s) (hmark : s.iter ≠ .invalid) : Sound (execQIterNext s) := by
  obtain ⟨-, ⟨-, hslots⟩, -⟩ := h.legal
  have hsize := (h.bank s.qitb).size
  obtain ⟨hlo, hhi⟩ := h.cursor
  unfold execQIterNext
  rw [if_neg hmark]
  refine sound_ite (fun hlive => ?_) fun _ => sound_next (h.withCursor s.qitb .valid hlo hhi).respondDone
  have hnext : (s.qitk + 1).toNat = s.qitk.toNat + 1 := toNat_succ (by omega)
  simpa only [slot_eq hlo hlive] using
    sound_respond (h.withCursor s.qitb (k := s.qitk + 1) .valid (by omega) (by omega)) _

/-! ### Counting and building (spec/42_build.md) -/

/-- While TOTAL is below the limit of its width it counts one more byte without overflow (R130, R23). -/
theorem total_succ {s : State} (h : Inv s) (hlimit : s.total.toNat ≠ 2 ^ s.cfg.weightBits - 1) :
    s.total.toNat + 1 < 2 ^ s.cfg.weightBits ∧ s.total.toNat + 1 < 2 ^ 32 ∧
      (s.total + 1).toNat = s.total.toNat + 1 := by
  have hfits : s.total.toNat < 2 ^ s.cfg.weightBits := by simpa [keyFits] using h.totalFits
  obtain ⟨⟨-, hwidth⟩, -⟩ := h.legal
  have hpow : 2 ^ s.cfg.weightBits ≤ 2 ^ 32 := Nat.pow_le_pow_right (by decide) hwidth
  exact ⟨by omega, by omega, toNat_succ (by omega)⟩

theorem execCount_sound {s : State} (h : Inv s) (b : Sym) : Sound (execCount b s) := by
  refine sound_ite (fun hc => ?_) fun _ => sound_illegal h
  obtain ⟨hphase, hlimit⟩ := hc
  obtain ⟨hfits, h32, hsucc⟩ := total_succ h hlimit
  have hcount : (ftGet s.ft b).toNat ≤ s.total.toNat := h.total ▸ ftGet_le_counted s.ft b
  refine sound_respond (s := { s.setFt b (s.ftAt b + 1) with total := s.total + 1 }) ?_ 0
  exact { h with
    total := by
      show (s.total + 1).toNat = counted (s.ft.set b.toNat (ftGet s.ft b + 1) b.isLt)
      rw [counted_set s.ft b (by omega), hsucc, h.total]
    totalFits := by
      show decide ((s.total + 1).toNat < 2 ^ s.cfg.weightBits) = true
      simpa only [hsucc, decide_eq_true_eq] using hfits
    tree := fun hne => absurd hphase hne }

/-- The state that BUILD leaves keeps the invariant: the tree is BUILD's, the walk is at its root, bank 0 is empty. -/
theorem inv_built {s : State} (h : Inv s) (hphase : s.phase = .count) {t : Tree} (hb : Built s.ft t) :
    Inv { s.setBank 0 t.heap with
      nm := t.nm, root := t.root, ct := t.ct, wp := t.root, phase := .ready, draws := t.draws } := by
  have hbank := h.setBank 0 (l := t.heap) (by rw [hb.heap]; exact bankOk_nil _)
  have htree := treeOk_of_built hb h.total
    { s.setBank 0 t.heap with
      nm := t.nm, root := t.root, ct := t.ct, wp := t.root, phase := .ready, draws := t.draws } rfl rfl rfl rfl rfl
  exact { hbank with
    packerIdle := fun _ => h.packerIdle (by simp [hphase])
    rootNil := ⟨fun hc => (by cases hc), fun hc => absurd hc (root_ne_nil htree)⟩
    noTree := fun hc => by cases hc
    tree := fun _ => htree
    walk := fun _ => .inl rfl
    walkIdle := fun _ => rfl }

/-- BUILD completes unless there are more counted symbols than queue slots, where it may stop at the first slot that is
not there (log entry 18). -/
theorem execBuild_sound {s : State} (h : Inv s) :
    Sound (execBuild s) ∨
      (s.cfg.pqSlots < distinct s.ft ∧ execBuild s = .fault (.noSlot (s.cfg.pqSlots + 1))) := by
  unfold execBuild
  by_cases hphase : s.phase = .count
  case neg => exact .inl (by simpa only [if_neg hphase] using sound_illegal h)
  by_cases hzero : s.total = 0
  case pos => exact .inl (by simpa only [if_pos hphase, if_pos hzero] using sound_raise h (by decide))
  rw [if_pos hphase, if_neg hzero]
  by_cases hslots : s.cfg.pqSlots < distinct s.ft
  case pos => exact .inr ⟨hslots, by rw [buildTree_noSlot _ _ _ hslots]⟩
  have hcounted : counted s.ft ≠ 0 := fun e => hzero (BitVec.eq_of_toNat_eq (by simpa [e] using h.total))
  obtain ⟨t, heq, hb⟩ := buildTree_spec s.cfg s.ft s.draws hcounted (h.total ▸ s.total.isLt) (by omega)
  left
  simpa only [heq] using sound_respond (inv_built h hphase hb) _

/-! ### The textual codec (spec/43_textual_codec.md) -/

/-- A digit walked in an open stream keeps the invariant (R150, R44 c). -/
theorem walk_inv {s t : State} {d : Bool} (h : Inv s) (hphase : s.phase = .dec) (e : walk s d = .ok t) : Inv t := by
  have hne : s.phase ≠ .count := by simp [hphase]
  have hat := walk_at (h.walk hne) e
  obtain ⟨bytes, wp, rfl, -⟩ := walk_frame e
  exact h.congr rfl h.err rfl rfl rfl rfl rfl rfl h.bank0 h.bank1 h.cursor h.bits h.packer h.packerIdle
    (.inr ⟨hne, hat, by simp [hphase]⟩)

/-- WALK raises nothing but STREAM_CORRUPTION, and then changes nothing (R150). -/
theorem walk_raised {s t : State} {d : Bool} {e : Err} (h : walk s d = .raised e t) :
    e = .streamCorruption ∧ t = s := by
  rcases walk_cases s d with ⟨_, hw, -⟩ | ⟨hw, -⟩ | ⟨_, hw, -⟩ <;> cases hw.symm.trans h
  exact ⟨rfl, rfl⟩

theorem finish_walk_sound {s : State} (h : Inv s) (hphase : s.phase = .dec) (d : Bool) : Sound (finish s (walk s d)) := by
  have hne : s.phase ≠ .count := by simp [hphase]
  refine sound_finish s (fun t => walk_inv h hphase) (fun e t hr => ?_) (walk_notStuck (h.tree hne) (h.walk hne) d)
  obtain ⟨rfl, rfl⟩ := walk_raised hr
  exact ⟨by decide, h⟩

theorem execEnc_sound {s : State} (h : Inv s) (b : Sym) : Sound (execEnc b s) :=
  sound_ite (fun _ => sound_respond (by rw [emitDigits_eq]; exact h.withOut _) _) fun _ => sound_illegal h

/-- The walk is put at ROOT when a stream is opened. -/
theorem execDecStart_sound {s : State} (h : Inv s) : Sound (execDecStart s) :=
  sound_ite
    (fun hp => by
      have hne : s.phase ≠ .count ∧ s.phase ≠ .cmp := by simp [hp]
      refine sound_respond ?_ 0
      exact h.rephase hne.1 (by simp) rfl rfl rfl rfl rfl rfl rfl rfl rfl rfl h.bits
        (.inl ⟨rfl, rfl, .inl hne.2⟩) rfl)
    fun _ => sound_illegal h

theorem execDecb_sound {s : State} (h : Inv s) (b : Byte) : Sound (execDecb b s) :=
  sound_ite
    (fun hp => sound_ite (fun _ => finish_walk_sound h hp false) fun _ =>
      sound_ite (fun _ => finish_walk_sound h hp true) fun _ => sound_raise h (by decide))
    fun _ => sound_illegal h

/-- A decode or decompress stream that is closed with the walk at ROOT leaves the invariant. -/
theorem Inv.closed {s : State} (h : Inv s) (hphase : s.phase = .dec ∨ s.phase = .dcmp) :
    Inv { s with phase := .ready, wp := s.root } := by
  have hne : s.phase ≠ .count ∧ s.phase ≠ .cmp := by rcases hphase with e | e <;> simp [e]
  exact h.rephase hne.1 (by simp) rfl rfl rfl rfl rfl rfl rfl rfl rfl rfl h.bits (.inl ⟨rfl, rfl, .inl hne.2⟩) rfl

theorem execDecEnd_sound {s : State} (h : Inv s) : Sound (execDecEnd s) := by
  refine sound_ite (fun hp => ?_) fun _ => sound_illegal h
  have hclosed := h.closed (.inl hp)
  exact sound_ite (fun hwp => sound_respond (by simpa only [← hwp] using hclosed) _)
    fun _ => sound_raise hclosed (by decide)

/-! ### The packed codec (spec/44_packed_codec.md) -/

theorem execCmpStart_sound {s : State} (h : Inv s) : Sound (execCmpStart s) :=
  sound_ite
    (fun hp => by
      have hne : s.phase ≠ .count := by simp [hp]
      refine sound_respond ?_ 0
      exact h.rephase hne (by simp) rfl rfl rfl rfl rfl rfl rfl rfl rfl rfl
        ⟨Nat.two_pow_pos _, h.bits.2⟩ (.inr ⟨rfl, rfl⟩) (h.walkIdle (.inl hp)))
    fun _ => sound_illegal h

/-- Pushing digits in an open compress stream keeps the packer and BITCOUNT in their ranges (R167, R44 d). -/
theorem pushDigits_inv {s : State} (h : Inv s) (hphase : s.phase = .cmp) (ds : List Bool) : Inv (pushDigits ds s) := by
  obtain ⟨hcnt, hbuf⟩ := h.packer
  obtain ⟨bytes, buf, cnt, bc, heq, -, hcnt', hbuf', -, hbits⟩ := pushDigits_spec ds s hcnt
  rw [heq]
  exact h.congr rfl h.err rfl rfl rfl rfl rfl rfl h.bank0 h.bank1 h.cursor ⟨hbits h.bits.1, h.bits.2⟩
    ⟨hcnt', (hbuf' hbuf).1⟩ (fun hne => absurd hphase hne) (.inl rfl)

theorem execCmps_sound {s : State} (h : Inv s) (b : Sym) : Sound (execCmps b s) :=
  sound_ite (fun hp => sound_respond (pushDigits_inv h hp _) _) fun _ => sound_illegal h

/-- A compress stream that is closed leaves an empty packer (R169). -/
theorem flush_inv {s : State} (h : Inv s) (hphase : s.phase = .cmp) : Inv { flush s with phase := .ready } := by
  obtain ⟨-, hbuf⟩ := h.packer
  have hwp := h.walkIdle (.inr hphase)
  have hne : s.phase ≠ .count := by simp [hphase]
  unfold flush
  split
  · exact h.rephase hne (by simp) rfl rfl rfl rfl rfl rfl rfl rfl rfl rfl h.bits (.inr ⟨rfl, rfl⟩) hwp
  · have hzero : s.pcnt = 0 := BitVec.eq_of_toNat_eq (by simp; omega)
    have hempty : s.pbuf = 0 := BitVec.eq_of_toNat_eq (by simpa [hzero] using hbuf)
    exact h.rephase hne (by simp) rfl rfl rfl rfl rfl rfl rfl rfl rfl rfl h.bits (.inr ⟨hzero, hempty⟩) hwp

theorem execCmpEnd_sound {s : State} (h : Inv s) : Sound (execCmpEnd s) :=
  sound_ite (fun hp => sound_respond (flush_inv h hp) _) fun _ => sound_illegal h

theorem execDcmpStart_sound {s : State} (h : Inv s) : Sound (execDcmpStart s) :=
  sound_ite
    (fun hp => by
      have hne : s.phase ≠ .count ∧ s.phase ≠ .cmp := by simp [hp]
      refine sound_respond ?_ 0
      exact h.rephase hne.1 (by simp) rfl rfl rfl rfl rfl rfl rfl rfl rfl rfl
        ⟨h.bits.1, h.bits.1⟩ (.inl ⟨rfl, rfl, .inl hne.2⟩) rfl)
    fun _ => sound_illegal h

/-- The loop of DCMPB never stops, and where it raises the digits before the offending one kept the invariant. -/
theorem execDcmpb_sound {s : State} (h : Inv s) (b : Byte) : Sound (execDcmpb b s) := by
  refine sound_ite (fun hp => ?_) fun _ => sound_illegal h
  refine sound_finish s (fun t hok => ((unpack_inv _ h hp).1 t hok).1) (fun e t hr => ?_) (unpack_inv _ h hp).2
  obtain ⟨before, _, _, -, hwalked, -, -, rfl⟩ := unpack_raised hr
  exact ⟨by decide, ((unpack_inv before h hp).1 t hwalked).1⟩

theorem execDcmpEnd_sound {s : State} (h : Inv s) : Sound (execDcmpEnd s) :=
  sound_ite
    (fun hp => sound_ite (fun _ => sound_respond (h.closed (.inr hp)) _)
      fun _ => sound_raise (h.closed (.inr hp)) (by decide))
    fun _ => sound_illegal h

/-! ### Every command, every step -/

/-- From the invariant every command completes and keeps it, but for the model's two stops (log entries 8, 18). -/
theorem exec_sound {s : State} (h : Inv s) (i : Instr) :
    Sound (exec i s) ∨
    (i = .qIterNext ∧ s.iter = .invalid ∧ exec i s = .refused .staleIteration) ∨
    (i = .build ∧ s.cfg.pqSlots < distinct s.ft ∧ exec i s = .fault (.noSlot (s.cfg.pqSlots + 1))) := by
  cases i with
  | clr => exact .inl (execClr_sound h)
  | count b => exact .inl (execCount_sound h b)
  | build => exact (execBuild_sound h).imp_right fun hstop => .inr ⟨rfl, hstop⟩
  | rdcsr c => exact .inl (execRdcsr_sound h c)
  | wrcsr c v => exact .inl (execWrcsr_sound h c v)
  | qInsert q key item => exact .inl (execQInsert_sound h q key item)
  | qPeek q => exact .inl (execQPeek_sound h q)
  | qExtract q => exact .inl (execQExtract_sound h q)
  | qSize q => exact .inl (sound_respond h _)
  | qEmpty q => exact .inl (sound_respond h _)
  | qDup q => exact .inl (execQDup_sound h q)
  | qIterBegin q => exact .inl (execQIterBegin_sound h q)
  | qIterNext =>
    by_cases hmark : s.iter = .invalid
    · exact .inr (.inl ⟨rfl, hmark, if_pos hmark⟩)
    · exact .inl (execQIterNext_sound h hmark)
  | qIterRemove => exact .inl (sound_raise h (by decide))
  | enc b => exact .inl (execEnc_sound h b)
  | decStart => exact .inl (execDecStart_sound h)
  | decb b => exact .inl (execDecb_sound h b)
  | decEnd => exact .inl (execDecEnd_sound h)
  | cmpStart => exact .inl (execCmpStart_sound h)
  | cmps b => exact .inl (execCmps_sound h b)
  | cmpEnd => exact .inl (execCmpEnd_sound h)
  | dcmpStart => exact .inl (execDcmpStart_sound h)
  | dcmpb b => exact .inl (execDcmpb_sound h b)
  | dcmpEnd => exact .inl (execDcmpEnd_sound h)

/-! ### From commands to steps -/

theorem opField_of_toNat {w : Word64} {n : Nat} (h : (opField w).toNat = n) : opField w = BitVec.ofNat 8 n := by
  rw [← h, BitVec.ofNat_toNat, BitVec.setWidth_eq]

section
variable {w : Word64} {n : Nat} {i : Instr}

/-- In an arm of the opcode map with format N, the word that is read is the word of the command (R82, R85). -/
theorem formatN_encode {j : Instr} (hop : (opField w).toNat = n) (h : formatN w j = .ok i)
    (henc : encode j = wordN (BitVec.ofNat 8 n)) : encode i = w := by
  obtain ⟨rfl, hw⟩ := formatN_ok h
  rw [henc, ← opField_of_toNat hop, hw]

/-- The same in an arm with format B. -/
theorem formatB_encode {mk : Byte → Instr} (hop : (opField w).toNat = n) (h : formatB w mk = .ok i)
    (henc : ∀ b, encode (mk b) = wordB (BitVec.ofNat 8 n) b) : encode i = w := by
  obtain ⟨b, rfl, hw⟩ := formatB_ok h
  rw [henc, ← opField_of_toNat hop, hw]

/-- The same in an arm with format Q. -/
theorem formatQ_encode {mk : Bank → Instr} (hop : (opField w).toNat = n) (h : formatQ w mk = .ok i)
    (henc : ∀ q, encode (mk q) = wordQ (BitVec.ofNat 8 n) q) : encode i = w := by
  obtain ⟨q, rfl, hw⟩ := formatQ_ok h
  rw [henc, ← opField_of_toNat hop, hw]

/-- The same in an arm with format QE. -/
theorem formatQE_encode {mk : Bank → Weight → Ref → Instr} (hop : (opField w).toNat = n) (h : formatQE w mk = .ok i)
    (henc : ∀ q key item, encode (mk q key item) = wordQE (BitVec.ofNat 8 n) q key item) : encode i = w := by
  obtain ⟨q, key, item, rfl, hw⟩ := formatQE_ok h
  rw [henc, ← opField_of_toNat hop, hw]

/-- The same in an arm with format C. -/
theorem formatC_encode {mk : BitVec 8 → Instr} (hop : (opField w).toNat = n) (h : formatC w mk = .ok i)
    (henc : ∀ c, encode (mk c) = wordC (BitVec.ofNat 8 n) c) : encode i = w := by
  obtain ⟨c, rfl, hw⟩ := formatC_ok h
  rw [henc, ← opField_of_toNat hop, hw]

/-- The same in an arm with format CW. -/
theorem formatCW_encode {mk : BitVec 8 → Val → Instr} (hop : (opField w).toNat = n) (h : formatCW w mk = .ok i)
    (henc : ∀ c v, encode (mk c v) = wordCW (BitVec.ofNat 8 n) c v) : encode i = w := by
  obtain ⟨c, v, rfl, hw⟩ := formatCW_ok h
  rw [henc, ← opField_of_toNat hop, hw]

end

/-- A word that decodes is the word of its command: the arm of the opcode map fixes OP, and its format every other bit
(R82, R85). -/
theorem encode_of_decode {w : Word64} {i : Instr} (h : decode w = .ok i) : encode i = w := by
  unfold decode at h
  split at h
  next hop => exact formatN_encode hop h rfl
  next hop => exact formatB_encode hop h fun _ => rfl
  next hop => exact formatN_encode hop h rfl
  next hop => exact formatC_encode hop h fun _ => rfl
  next hop => exact formatCW_encode hop h fun _ _ => rfl
  next hop => exact formatQE_encode hop h fun _ _ _ => rfl
  next hop => exact formatQ_encode hop h fun _ => rfl
  next hop => exact formatQ_encode hop h fun _ => rfl
  next hop => exact formatQ_encode hop h fun _ => rfl
  next hop => exact formatQ_encode hop h fun _ => rfl
  next hop => exact formatQ_encode hop h fun _ => rfl
  next hop => exact formatQ_encode hop h fun _ => rfl
  next hop => exact formatN_encode hop h rfl
  next hop => exact formatN_encode hop h rfl
  next hop => exact formatB_encode hop h fun _ => rfl
  next hop => exact formatN_encode hop h rfl
  next hop => exact formatB_encode hop h fun _ => rfl
  next hop => exact formatN_encode hop h rfl
  next hop => exact formatN_encode hop h rfl
  next hop => exact formatB_encode hop h fun _ => rfl
  next hop => exact formatN_encode hop h rfl
  next hop => exact formatN_encode hop h rfl
  next hop => exact formatB_encode hop h fun _ => rfl
  next hop => exact formatN_encode hop h rfl
  next => cases h

/-- From the invariant every step completes and keeps it, whatever the host presents, but for the model's two stops. -/
theorem step_sound {s : State} (h : Inv s) :
    Sound (step s) ∨
    (s.iter = .invalid ∧ s.port.head? = some (.command 0x2700000000000000) ∧ step s = .refused .staleIteration) ∨
    (s.cfg.pqSlots < distinct s.ft ∧ s.port.head? = some (.command 0x0300000000000000) ∧
      step s = .fault (.noSlot (s.cfg.pqSlots + 1))) := by
  match hport : s.port with
  | [] => exact .inl (by simpa only [step, portStep, hport] using sound_next h)
  | .reset :: rest =>
    exact .inl (step_of_port_cons hport ▸ sound_next (inv_hardReset (h.withPort rest).legal))
  | .command w :: rest =>
    have hs := h.withPort rest
    rw [step_of_port_cons hport, runEvent_command, List.head?_cons]
    match hdec : decode w with
    | .error _ => exact .inl (by simpa only [runWord, hdec] using sound_illegal hs)
    | .ok i =>
      rw [runWord_of_decode hdec]
      have hword := encode_of_decode hdec
      rcases exec_sound hs i with hsound | ⟨rfl, hmark, hstop⟩ | ⟨rfl, hslots, hstop⟩
      · exact .inl hsound
      · exact .inr (.inl ⟨hmark, by rw [← hword]; rfl, hstop⟩)
      · exact .inr (.inr ⟨hslots, by rw [← hword]; rfl, hstop⟩)

/-- Settles O13: a step that completes is sound; the two stops of `step_sound` are no completions. -/
theorem stepKeepsInvariant : Obligations.StepKeepsInvariant := by
  intro s t h hstep
  rcases step_sound h with hsound | ⟨-, -, hstop⟩ | ⟨-, -, hstop⟩
  · exact hsound.inv hstep
  · cases hstop.symm.trans hstep
  · cases hstop.symm.trans hstep

/-- Settles O14: `step_sound` without the invariant of the state that is reached. -/
theorem stepCompletesFromInvariant : Obligations.StepCompletesFromInvariant := by
  intro s h
  refine (step_sound h).imp_left fun hsound => ?_
  obtain ⟨t, hstep, -⟩ := hsound
  exact ⟨t, hstep⟩

/-- Settles O12: reset is the hardware reset of a state with R8's parameters, which are legal. -/
theorem resetKeepsInvariant : Obligations.ResetKeepsInvariant :=
  inv_hardReset (s := State.reset) (by decide)

end Sys2Proof
end

section
/-! What a command that completes leaves unchanged (spec/10_state.md R20, R34, R38, R39, R46, spec/00_scope.md R60): for
all 24 commands from the ways in which one can end (`exec_ends`), for the queue and the transforms from the fields each
may write; and the reset values (R43, R210). -/

namespace Sys2Proof

open Sys2Proof.Machine

/-! ### The reset state -/

/-- Settles O10: every register by its lemma, the entries of FT and CT for every symbol. -/
theorem resetValues : Obligations.ResetValues := by
  have hft : ∀ b, State.reset.ftAt b = 0 := fun b => by simp [State.ftAt, ftGet]
  have hct : ∀ b, (State.reset.ctAt b).len = 0 ∧ State.reset.codeWord b = [] := fun b => by
    simp [State.ctAt, codeWord_def, Code.digits]
  exact ⟨rfl, rfl, rfl, hft, rfl, rfl, rfl, hct, rfl, rfl, rfl, rfl, rfl, rfl, rfl, rfl, rfl, rfl, rfl, rfl, by decide⟩

/-- Settles O11: the step runs the reset event, which is `hardReset`. -/
theorem stepHardwareReset : Obligations.StepHardwareReset :=
  fun _ _ hport => step_of_port_cons hport

/-! ### Every command -/

/-- PHASE, WP and the iteration mark are no part of what every quiet command keeps. -/
theorem quiet_walk (i : Instr) (s : State) (p : Phase) (r : Ref) (m : IterMark) :
    Quiet i s { s with phase := p, wp := r, iter := m } :=
  ⟨rfl, rfl, rfl, ⟨[], by simp⟩, fun _ => rfl, fun _ _ => ⟨rfl, rfl, rfl, rfl, rfl⟩⟩

/-- However a command completes, it gives its one response in a state that it reached quietly. -/
theorem exec_responds {i : Instr} {s t : State} (h : exec i s = .next t) :
    ∃ u, Quiet i s u ∧ ((∃ v, t = u.respond v) ∨ (i = .qIterNext ∧ t = u.respondDone) ∨ ∃ e, t = u.raise e) := by
  cases exec_ends h with
  | answers u v hq => exact ⟨u, hq, .inl ⟨v, rfl⟩⟩
  | iterEnd hi => exact ⟨_, quiet_walk i s s.phase s.wp .valid, .inr (.inl ⟨hi, rfl⟩)⟩
  | raises e _ _ => exact ⟨s, .refl i s, .inr (.inr ⟨e, rfl⟩)⟩
  | closes _ => exact ⟨_, quiet_walk i s .ready s.root s.iter, .inr (.inr ⟨_, rfl⟩)⟩
  | unpacks _ _ _ _ m _ _ _ _ _ _ hq => exact ⟨m, hq, .inr (.inr ⟨_, rfl⟩)⟩

/-- The response aside, a completed command keeps what every quiet command keeps. -/
theorem exec_keeps {i : Instr} {s t : State} (h : exec i s = .next t) :
    t.port = s.port ∧ t.cfg = s.cfg ∧ (∃ bytes, t.out = s.out ++ bytes) ∧
      (s.phase ≠ .count → i ≠ .clr →
        t.ft = s.ft ∧ t.total = s.total ∧ t.nm = s.nm ∧ t.root = s.root ∧ t.ct = s.ct) := by
  obtain ⟨u, hq, ⟨v, rfl⟩ | ⟨-, rfl⟩ | ⟨e, rfl⟩⟩ := exec_responds h <;>
    exact ⟨hq.port, hq.cfg, hq.out, hq.tree⟩

/-- Settles O16, by the three responses there are: an answer, the end mark, an error. -/
theorem oneResponsePerCommand : Obligations.OneResponsePerCommand := by
  intro i s t h
  obtain ⟨u, hq, ⟨v, rfl⟩ | ⟨hi, rfl⟩ | ⟨e, rfl⟩⟩ := exec_responds h
  · exact ⟨answered v, congrArg (· ++ [answered v]) hq.resps, by simp [answered], by simp [answered]⟩
  · exact ⟨ended, congrArg (· ++ [ended]) hq.resps, by simp [ended], fun _ => hi⟩
  · exact ⟨failed e, congrArg (· ++ [failed e]) hq.resps, by simp [failed], by simp [failed]⟩

/-- Settles O21: a quiet command only appends to OUT. -/
theorem outOnlyGrows : Obligations.OutOnlyGrows := by
  intro i s t h
  obtain ⟨-, -, hout, -⟩ := exec_keeps h
  exact hout

/-- Settles O22: the tree clause of what a quiet command keeps. -/
theorem treeIsImmutable : Obligations.TreeIsImmutable := by
  intro i s t h
  obtain ⟨-, -, -, htree⟩ := exec_keeps h
  exact htree

/-- Settles O23: no command writes the port or the parameters. -/
theorem portAndParametersUntouched : Obligations.PortAndParametersUntouched := by
  intro i s t h
  obtain ⟨hport, hcfg, -, -⟩ := exec_keeps h
  exact ⟨hport, hcfg⟩

/-! ### The queue commands -/

/-- `t` is `s` but for the queue's own fields (the banks, the cursor and its mark, the count of draws), ERR and the
responses. -/
def QueueWrites (s t : State) : Prop :=
  ∃ hq0 hq1 qitb qitk iter draws err resps,
    t = { s with
      hq0 := hq0, hq1 := hq1, qitb := qitb, qitk := qitk, iter := iter, draws := draws, err := err, resps := resps }

theorem QueueWrites.refl (s : State) : QueueWrites s s := ⟨_, _, _, _, _, _, _, _, rfl⟩

section
variable {s t : State}

theorem QueueWrites.respond (h : QueueWrites s t) (v : Val) : QueueWrites s (t.respond v) := by
  obtain ⟨_, _, _, _, _, _, _, _, rfl⟩ := h
  exact ⟨_, _, _, _, _, _, _, _, rfl⟩

theorem queueWrites_raise (s : State) (e : Err) : QueueWrites s (s.raise e) := ⟨_, _, _, _, _, _, _, _, rfl⟩

theorem QueueWrites.withDraws (h : QueueWrites s t) (n : Nat) : QueueWrites s { t with draws := n } := by
  obtain ⟨_, _, _, _, _, _, _, _, rfl⟩ := h
  exact ⟨_, _, _, _, _, _, _, _, rfl⟩

theorem queueWrites_setBank (s : State) (q : Bank) (l : List Entry) : QueueWrites s (s.setBank q l) := by
  rcases bank_cases q with rfl | rfl <;> exact ⟨_, _, _, _, _, _, _, _, rfl⟩

theorem execQInsert_writes {q : Bank} {key : Weight} {item : Ref} (h : execQInsert q key item s = .next t) :
    QueueWrites s t := by
  unfold execQInsert at h
  split at h
  · cases h; exact queueWrites_raise s _
  · split at h
    · cases h; exact queueWrites_raise s _
    · split at h <;> cases h
      exact (queueWrites_setBank s q _).respond 0

theorem execQPeek_writes {q : Bank} (h : execQPeek q s = .next t) : QueueWrites s t := by
  unfold execQPeek at h
  split at h
  · cases h; exact queueWrites_raise s _
  · split at h <;> cases h
    exact (QueueWrites.refl s).respond _

theorem execQExtract_writes {q : Bank} (h : execQExtract q s = .next t) : QueueWrites s t := by
  unfold execQExtract at h
  split at h
  · cases h; exact queueWrites_raise s _
  · split at h <;> cases h
    exact ((queueWrites_setBank s q _).withDraws _).respond _

theorem execQDup_writes {q : Bank} (h : execQDup q s = .next t) : QueueWrites s t := by
  unfold execQDup at h
  split at h
  · split at h <;> cases h
    · exact queueWrites_raise s _
    · exact (queueWrites_setBank s (1 - q) _).respond 0
  · cases h
    exact (queueWrites_setBank s (1 - q) _).respond 0

theorem execQIterNext_writes (h : execQIterNext s = .next t) : QueueWrites s t := by
  unfold execQIterNext at h
  split at h
  · cases h
  · split at h
    · split at h <;> cases h
      exact ⟨_, _, _, _, _, _, _, _, rfl⟩
    · cases h
      exact ⟨_, _, _, _, _, _, _, _, rfl⟩

end

/-- Settles O25: each of the nine writes the queue's own fields, ERR and the responses alone. -/
theorem queueCommandsFrame : Obligations.QueueCommandsFrame := by
  intro i s t h hi
  have hwrites : QueueWrites s t := by
    rcases hi with ⟨q, k, x, rfl⟩ | ⟨q, rfl⟩ | ⟨q, rfl⟩ | ⟨q, rfl⟩ | ⟨q, rfl⟩ | ⟨q, rfl⟩ | ⟨q, rfl⟩ | rfl | rfl
    · exact execQInsert_writes h
    · exact execQPeek_writes h
    · exact execQExtract_writes h
    · cases h; exact (QueueWrites.refl s).respond _
    · cases h; exact (QueueWrites.refl s).respond _
    · exact execQDup_writes h
    · cases h; exact ⟨_, _, _, _, _, _, _, _, rfl⟩
    · exact execQIterNext_writes h
    · cases h; exact queueWrites_raise s _
  obtain ⟨_, _, _, _, _, _, _, _, rfl⟩ := hwrites
  exact ⟨rfl, rfl, rfl, rfl, rfl, rfl, rfl, rfl, rfl, rfl, rfl, rfl, rfl, rfl⟩

/-! ### The transforms: the fields each may write -/

section
variable {s t : State}

theorem execEnc_writes {b : Sym} (h : execEnc b s = .next t) :
    ∃ out err resps, t = { s with out := out, err := err, resps := resps } := by
  unfold execEnc at h
  split at h <;> cases h
  · rw [emitDigits_eq]; exact ⟨_, _, _, rfl⟩
  · exact ⟨_, _, _, rfl⟩

theorem execDecStart_writes (h : execDecStart s = .next t) :
    ∃ phase wp err resps, t = { s with phase := phase, wp := wp, err := err, resps := resps } := by
  unfold execDecStart at h
  split at h <;> cases h <;> exact ⟨_, _, _, _, rfl⟩

theorem finish_walk_writes {d : Bool} (h : finish s (walk s d) = .next t) :
    ∃ wp out err resps, t = { s with wp := wp, out := out, err := err, resps := resps } := by
  cases hw : walk s d with
  | ok u =>
    rw [hw] at h; cases h
    obtain ⟨bytes, wp, rfl, -⟩ := walk_frame hw
    exact ⟨_, _, _, _, rfl⟩
  | raised e u =>
    rw [hw] at h; cases h
    obtain ⟨-, rfl⟩ := walk_raised hw
    exact ⟨_, _, _, _, rfl⟩
  | stuck f => rw [hw] at h; cases h

theorem execDecb_writes {b : Byte} (h : execDecb b s = .next t) :
    ∃ wp out err resps, t = { s with wp := wp, out := out, err := err, resps := resps } := by
  unfold execDecb at h
  split at h
  · split at h
    · exact finish_walk_writes h
    · split at h
      · exact finish_walk_writes h
      · cases h; exact ⟨_, _, _, _, rfl⟩
  · cases h; exact ⟨_, _, _, _, rfl⟩

theorem execDecEnd_writes (h : execDecEnd s = .next t) :
    ∃ phase wp err resps, t = { s with phase := phase, wp := wp, err := err, resps := resps } := by
  unfold execDecEnd at h
  split at h
  · split at h <;> cases h <;> exact ⟨_, _, _, _, rfl⟩
  · cases h; exact ⟨_, _, _, _, rfl⟩

theorem execCmpStart_writes (h : execCmpStart s = .next t) :
    ∃ phase pbuf pcnt bitcount err resps,
      t = { s with phase := phase, pbuf := pbuf, pcnt := pcnt, bitcount := bitcount, err := err, resps := resps } := by
  unfold execCmpStart at h
  split at h <;> cases h <;> exact ⟨_, _, _, _, _, _, rfl⟩

theorem execCmps_writes {b : Sym} (h : execCmps b s = .next t) :
    ∃ pbuf pcnt bitcount out err resps,
      t = { s with pbuf := pbuf, pcnt := pcnt, bitcount := bitcount, out := out, err := err, resps := resps } := by
  obtain ⟨bytes, buf, cnt, n, hpush⟩ := pushDigits_frame (s.codeWord b) s
  unfold execCmps at h
  rw [hpush] at h
  split at h <;> cases h <;> exact ⟨_, _, _, _, _, _, rfl⟩

theorem execCmpEnd_writes (h : execCmpEnd s = .next t) :
    ∃ phase pbuf pcnt out err resps,
      t = { s with phase := phase, pbuf := pbuf, pcnt := pcnt, out := out, err := err, resps := resps } := by
  unfold execCmpEnd flush at h
  split at h
  · split at h <;> cases h <;> exact ⟨_, _, _, _, _, _, rfl⟩
  · cases h; exact ⟨_, _, _, _, _, _, rfl⟩

theorem execDcmpStart_writes (h : execDcmpStart s = .next t) :
    ∃ phase wp urem err resps, t = { s with phase := phase, wp := wp, urem := urem, err := err, resps := resps } := by
  unfold execDcmpStart at h
  split at h <;> cases h <;> exact ⟨_, _, _, _, _, rfl⟩

theorem execDcmpb_writes {b : Byte} (h : execDcmpb b s = .next t) :
    ∃ wp urem out err resps, t = { s with wp := wp, urem := urem, out := out, err := err, resps := resps } := by
  unfold execDcmpb at h
  split at h
  · cases hu : unpack (packedDigits s.g b) s with
    | ok u =>
      rw [hu] at h; cases h
      obtain ⟨bytes, wp, n, rfl⟩ := unpack_ok_frame hu
      exact ⟨_, _, _, _, _, rfl⟩
    | raised e u =>
      rw [hu] at h; cases h
      obtain ⟨before, _, _, -, hwalked, -⟩ := unpack_raised hu
      obtain ⟨bytes, wp, n, rfl⟩ := unpack_ok_frame hwalked
      exact ⟨_, _, _, _, _, rfl⟩
    | stuck f => rw [hu] at h; cases h
  · cases h; exact ⟨_, _, _, _, _, rfl⟩

theorem execDcmpEnd_writes (h : execDcmpEnd s = .next t) :
    ∃ phase wp err resps, t = { s with phase := phase, wp := wp, err := err, resps := resps } := by
  unfold execDcmpEnd at h
  split at h
  · split at h <;> cases h <;> exact ⟨_, _, _, _, rfl⟩
  · cases h; exact ⟨_, _, _, _, rfl⟩

end

/-- Settles O26: each clause is read off the fields that the command may write. -/
theorem transformsFrame : Obligations.TransformsFrame := by
  intro i s t h hi
  rcases hi with ⟨b, rfl⟩ | rfl | ⟨b, rfl⟩ | rfl | rfl | ⟨b, rfl⟩ | rfl | rfl | ⟨b, rfl⟩ | rfl
  · obtain ⟨_, _, _, rfl⟩ := execEnc_writes h; simp
  · obtain ⟨_, _, _, _, rfl⟩ := execDecStart_writes h; simp
  · obtain ⟨_, _, _, _, rfl⟩ := execDecb_writes h; simp
  · obtain ⟨_, _, _, _, rfl⟩ := execDecEnd_writes h; simp
  · obtain ⟨_, _, _, _, _, _, rfl⟩ := execCmpStart_writes h; simp
  · obtain ⟨_, _, _, _, _, _, rfl⟩ := execCmps_writes h; simp
  · obtain ⟨_, _, _, _, _, _, rfl⟩ := execCmpEnd_writes h; simp
  · obtain ⟨_, _, _, _, _, rfl⟩ := execDcmpStart_writes h; simp
  · obtain ⟨_, _, _, _, _, rfl⟩ := execDcmpb_writes h; simp
  · obtain ⟨_, _, _, _, rfl⟩ := execDcmpEnd_writes h; simp

end Sys2Proof
end

section
/-! The command word and the response word (spec/30_encoding.md R81 to R87): decoding after encoding, the rows of the
opcode table, and the ways in which a command is illegal; and that BUILD's code words are free of prefixes (R88). -/

namespace Sys2Proof

open Sys2Proof.Machine

/-! ### From a command to its word and back (R81, R82, R85) -/

theorem formatN_wordN (op : BitVec 8) (i : Instr) : formatN (wordN op) i = .ok i := by
  obtain ⟨-, ha, hv⟩ := wordN_fields op
  exact if_pos ⟨ha, hv⟩

theorem formatB_wordB (op : BitVec 8) (b : Byte) (mk : Byte → Instr) : formatB (wordB op b) mk = .ok (mk b) := by
  obtain ⟨-, ha, hv, hb⟩ := wordB_fields op b
  rw [formatB, if_pos ⟨ha, hv⟩, hb]

theorem formatQ_wordQ (op : BitVec 8) (q : Bank) (mk : Bank → Instr) : formatQ (wordQ op q) mk = .ok (mk q) := by
  obtain ⟨-, ha, hv, hq⟩ := wordQ_fields op q
  rw [formatQ, if_pos ⟨ha, hv⟩, hq]

theorem formatQE_wordQE (op : BitVec 8) (q : Bank) (key : Weight) (item : Ref)
    (mk : Bank → Weight → Ref → Instr) : formatQE (wordQE op q key item) mk = .ok (mk q key item) := by
  obtain ⟨-, ha, hv, hq, hkey, hitem⟩ := wordQE_fields op q key item
  rw [formatQE, if_pos ⟨ha, hv⟩, hq, hkey, hitem]

theorem formatC_wordC (op c : BitVec 8) (mk : BitVec 8 → Instr) : formatC (wordC op c) mk = .ok (mk c) := by
  obtain ⟨-, hc, hv⟩ := wordC_fields op c
  rw [formatC, if_pos hv, hc]

theorem formatCW_wordCW (op c : BitVec 8) (v : Val) (mk : BitVec 8 → Val → Instr) :
    formatCW (wordCW op c v) mk = .ok (mk c v) := by
  obtain ⟨-, hc, hv⟩ := wordCW_fields op c v
  rw [formatCW, hc, hv]

/-- Settles O1, by the command's format: OP selects the command's arm of the opcode map, and the arm's format reads the
operands back. -/
theorem decodeOfEncode : Obligations.DecodeOfEncode := by
  intro i
  cases i with
  | clr | build | qIterNext | qIterRemove | decStart | decEnd | cmpStart | cmpEnd | dcmpStart | dcmpEnd =>
    rw [encode, decode, (wordN_fields _).1]
    exact formatN_wordN _ _
  | count b | enc b | decb b | cmps b | dcmpb b =>
    rw [encode, decode, (wordB_fields _ _).1]
    exact formatB_wordB _ _ _
  | qPeek q | qExtract q | qSize q | qEmpty q | qDup q | qIterBegin q =>
    rw [encode, decode, (wordQ_fields _ _).1]
    exact formatQ_wordQ _ _ _
  | qInsert q key item =>
    rw [encode, decode, (wordQE_fields _ _ _ _).1]
    exact formatQE_wordQE _ _ _ _ _
  | rdcsr c =>
    rw [encode, decode, (wordC_fields _ _).1]
    exact formatC_wordC _ _ _
  | wrcsr c v =>
    rw [encode, decode, (wordCW_fields _ _ _).1]
    exact formatCW_wordCW _ _ _ _

/-- Settles O2: the decoder's arms and formats drop no bit of the word. -/
theorem encodeOfDecode : Obligations.EncodeOfDecode :=
  fun _ _ hdecode => encode_of_decode hdecode

/-- Settles O4, by running the decoder on each word. -/
theorem specWordsDecode : Obligations.SpecWordsDecode := by
  unfold Obligations.SpecWordsDecode
  decide

/-! ### The rows of the opcode table (R86) -/

/-- The word of every command belongs to a row, the command's own. -/
theorem encode_mem_row (i : Instr) : Laws.Row.Statement i := by
  cases i with
  | clr => exact Laws.Row.clr
  | count b => exact Laws.Row.count b
  | build => exact Laws.Row.build
  | rdcsr c => exact Laws.Row.rdcsr c
  | wrcsr c v => exact Laws.Row.wrcsr c v
  | qInsert q key item => exact Laws.Row.qInsert q key item
  | qPeek q => exact Laws.Row.qPeek q
  | qExtract q => exact Laws.Row.qExtract q
  | qSize q => exact Laws.Row.qSize q
  | qEmpty q => exact Laws.Row.qEmpty q
  | qDup q => exact Laws.Row.qDup q
  | qIterBegin q => exact Laws.Row.qIterBegin q
  | qIterNext => exact Laws.Row.qIterNext
  | qIterRemove => exact Laws.Row.qIterRemove
  | enc b => exact Laws.Row.enc b
  | decStart => exact Laws.Row.decStart
  | decb b => exact Laws.Row.decb b
  | decEnd => exact Laws.Row.decEnd
  | cmpStart => exact Laws.Row.cmpStart
  | cmps b => exact Laws.Row.cmps b
  | cmpEnd => exact Laws.Row.cmpEnd
  | dcmpStart => exact Laws.Row.dcmpStart
  | dcmpb b => exact Laws.Row.dcmpb b
  | dcmpEnd => exact Laws.Row.dcmpEnd

/-- A field that the mask covers is the row's. -/
theorem field_of_mask {w m k : Word64} (h : w &&& m = k) {a n : Nat} (hm : m.extractLsb' a n = BitVec.allOnes n) :
    w.extractLsb' a n = k.extractLsb' a n := by
  rw [← h, BitVec.extractLsb'_and, hm, BitVec.and_allOnes]

/-- A word that the mask of format N admits is the word of its command. -/
theorem decodes_of_rowN {w : Word64} {op : BitVec 8} {i : Instr} (hdecode : decode (wordN op) = .ok i)
    (h : w &&& 0xFFFFFFFFFFFFFFFF = wordN op) : ∃ i, decode w = .ok i := by
  rw [show (0xFFFFFFFFFFFFFFFF : Word64) = BitVec.allOnes 64 from rfl, BitVec.and_allOnes] at h
  exact ⟨i, h ▸ hdecode⟩

/-- A word that the mask of format B admits is the word of its command and some operand. -/
theorem decodes_of_rowB {w : Word64} {op : BitVec 8} {mk : Byte → Instr}
    (hdecode : ∀ b, decode (wordB op b) = .ok (mk b)) (h : w &&& 0xFFFFFFFFFFFFFF00 = wordB op 0) :
    ∃ i, decode w = .ok i := by
  obtain ⟨hop, ha, hv, -⟩ := wordB_fields op 0
  have hop : opField w = op := (field_of_mask h rfl).trans hop
  obtain ⟨b, -, hw⟩ := formatB_ok (w := w) (i := mk)
    (if_pos ⟨(field_of_mask h rfl).trans ha, (field_of_mask h rfl).trans hv⟩)
  exact ⟨mk b, hw ▸ hop ▸ hdecode b⟩

/-- The same of format Q. -/
theorem decodes_of_rowQ {w : Word64} {op : BitVec 8} {mk : Bank → Instr}
    (hdecode : ∀ q, decode (wordQ op q) = .ok (mk q)) (h : w &&& 0xFFFEFFFFFFFFFFFF = wordQ op 0) :
    ∃ i, decode w = .ok i := by
  obtain ⟨hop, ha, hv, -⟩ := wordQ_fields op 0
  have hop : opField w = op := (field_of_mask h rfl).trans hop
  obtain ⟨q, -, hw⟩ := formatQ_ok (w := w) (i := mk)
    (if_pos ⟨(field_of_mask h rfl).trans ha, (field_of_mask h rfl).trans hv⟩)
  exact ⟨mk q, hw ▸ hop ▸ hdecode q⟩

/-- The same of format QE. -/
theorem decodes_of_rowQE {w : Word64} {op : BitVec 8} {mk : Bank → Weight → Ref → Instr}
    (hdecode : ∀ q key item, decode (wordQE op q key item) = .ok (mk q key item))
    (h : w &&& 0xFFFE00000000FE00 = wordQE op 0 0 0) : ∃ i, decode w = .ok i := by
  obtain ⟨hop, ha, hv, -⟩ := wordQE_fields op 0 0 0
  have hop : opField w = op := (field_of_mask h rfl).trans hop
  obtain ⟨q, key, item, -, hw⟩ := formatQE_ok (w := w) (i := mk)
    (if_pos ⟨(field_of_mask h rfl).trans ha, (field_of_mask h rfl).trans hv⟩)
  exact ⟨mk q key item, hw ▸ hop ▸ hdecode q key item⟩

/-- The same of format C. -/
theorem decodes_of_rowC {w : Word64} {op : BitVec 8} {mk : BitVec 8 → Instr}
    (hdecode : ∀ c, decode (wordC op c) = .ok (mk c)) (h : w &&& 0xFF00FFFFFFFFFFFF = wordC op 0) :
    ∃ i, decode w = .ok i := by
  obtain ⟨hop, -, hv⟩ := wordC_fields op 0
  have hop : opField w = op := (field_of_mask h rfl).trans hop
  obtain ⟨c, -, hw⟩ := formatC_ok (i := mk) (if_pos ((field_of_mask h rfl).trans hv))
  exact ⟨mk c, hw ▸ hop ▸ hdecode c⟩

/-- The same of format CW. -/
theorem decodes_of_rowCW {w : Word64} {op : BitVec 8} {mk : BitVec 8 → Val → Instr}
    (hdecode : ∀ c v, decode (wordCW op c v) = .ok (mk c v)) (h : w &&& 0xFF00000000000000 = wordCW op 0 0) :
    ∃ i, decode w = .ok i := by
  obtain ⟨hop, -, -⟩ := wordCW_fields op 0 0
  have hop : opField w = op := (field_of_mask h rfl).trans hop
  obtain ⟨c, v, -, hw⟩ := formatCW_ok (w := w) (i := mk) rfl
  exact ⟨mk c v, hw ▸ hop ▸ hdecode c v⟩

/-- A word of any row decodes, by the row's format. -/
theorem decodes_of_row {w : Word64} {row : Word64 × Word64} (hrow : row ∈ opcodeRows) (h : w &&& row.1 = row.2) :
    ∃ i, decode w = .ok i := by
  simp only [opcodeRows, List.cons_append, List.nil_append, List.mem_cons, List.not_mem_nil, or_false] at hrow
  rcases hrow with rfl | rfl | rfl | rfl | rfl | rfl | rfl | rfl | rfl | rfl | rfl | rfl | rfl | rfl | rfl | rfl | rfl |
    rfl | rfl | rfl | rfl | rfl | rfl | rfl
  · exact decodes_of_rowN (decodeOfEncode .clr) h
  · exact decodes_of_rowB (fun b => decodeOfEncode (.count b)) h
  · exact decodes_of_rowN (decodeOfEncode .build) h
  · exact decodes_of_rowC (fun c => decodeOfEncode (.rdcsr c)) h
  · exact decodes_of_rowCW (fun c v => decodeOfEncode (.wrcsr c v)) h
  · exact decodes_of_rowQE (fun q key item => decodeOfEncode (.qInsert q key item)) h
  · exact decodes_of_rowQ (fun q => decodeOfEncode (.qPeek q)) h
  · exact decodes_of_rowQ (fun q => decodeOfEncode (.qExtract q)) h
  · exact decodes_of_rowQ (fun q => decodeOfEncode (.qSize q)) h
  · exact decodes_of_rowQ (fun q => decodeOfEncode (.qEmpty q)) h
  · exact decodes_of_rowQ (fun q => decodeOfEncode (.qDup q)) h
  · exact decodes_of_rowQ (fun q => decodeOfEncode (.qIterBegin q)) h
  · exact decodes_of_rowN (decodeOfEncode .qIterNext) h
  · exact decodes_of_rowN (decodeOfEncode .qIterRemove) h
  · exact decodes_of_rowB (fun b => decodeOfEncode (.enc b)) h
  · exact decodes_of_rowN (decodeOfEncode .decStart) h
  · exact decodes_of_rowB (fun b => decodeOfEncode (.decb b)) h
  · exact decodes_of_rowN (decodeOfEncode .decEnd) h
  · exact decodes_of_rowN (decodeOfEncode .cmpStart) h
  · exact decodes_of_rowB (fun b => decodeOfEncode (.cmps b)) h
  · exact decodes_of_rowN (decodeOfEncode .cmpEnd) h
  · exact decodes_of_rowN (decodeOfEncode .dcmpStart) h
  · exact decodes_of_rowB (fun b => decodeOfEncode (.dcmpb b)) h
  · exact decodes_of_rowN (decodeOfEncode .dcmpEnd) h

/-- Settles O3: a word that decodes is its command's, which has a row; a word of a row is some command's, which
decodes. -/
theorem decodesExactlyTableWords : Obligations.DecodesExactlyTableWords := by
  intro w
  constructor
  · rintro ⟨i, hdecode⟩
    exact encode_of_decode hdecode ▸ encode_mem_row i
  · rintro ⟨row, hrow, h⟩
    exact decodes_of_row hrow h

/-! ### Illegal commands (R83, R86, R87) -/

/-- `csr` answers for the numbers of R41 alone. -/
theorem csr_eq_none_of_not_isCsr {c : BitVec 8} (h : isCsr c = false) (s : State) : s.csr c = none := by
  have hc : ¬ c.toNat ≤ 9 := of_decide_eq_false h
  unfold State.csr
  split
  any_goals omega
  rfl

/-- R86 (c), R83: each of the three commands that can be ill-formed checks its operand before anything else. -/
theorem exec_illegal_of_not_wellFormed {i : Instr} {s : State} (h : i.wellFormed s.cfg = false) :
    exec i s = s.illegal := by
  cases i with
  | rdcsr c =>
    have hc : s.csr c = none := csr_eq_none_of_not_isCsr h s
    simp only [exec, execRdcsr, hc]
  | wrcsr c v =>
    have hc : c ≠ 0x02 := beq_eq_false_iff_ne.mp h
    exact if_neg fun hw => hc hw.1
  | qInsert q key item => exact if_pos h
  | _ => cases h

theorem mem_every_phase (p : Phase) : p ∈ [Phase.count, .ready, .dec, .cmp, .dcmp] := by
  cases p <;> decide

/-- R87: every command that is not legal in all phases checks PHASE before it does anything. -/
theorem exec_illegal_of_wrong_phase {i : Instr} {s : State} (h : s.phase ∉ i.phases) : exec i s = s.illegal := by
  cases i with
  | clr | rdcsr _ | qInsert _ _ _ | qPeek _ | qExtract _ | qSize _ | qEmpty _ | qDup _ | qIterBegin _ | qIterNext
  | qIterRemove => exact absurd (mem_every_phase s.phase) h
  | count b => exact if_neg fun hc => h (by simp [Instr.phases, hc.1])
  | wrcsr c v => exact if_neg fun hc => h (by simpa [Instr.phases] using hc.2)
  | build | enc _ | decStart | decb _ | decEnd | cmpStart | cmps _ | cmpEnd | dcmpStart | dcmpb _ | dcmpEnd =>
    exact if_neg fun hp => h (List.mem_singleton.mpr hp)

/-- Settles O15: the command ends in `illegal`, which raises ILLEGAL_COMMAND and writes nothing else. -/
theorem wrongPhaseIsIllegal : Obligations.WrongPhaseIsIllegal :=
  fun _ _ hphase => exec_illegal_of_wrong_phase hphase

/-- Settles O8: `illegal` raises ILLEGAL_COMMAND and writes nothing else. -/
theorem illegalOperand : Obligations.IllegalOperand :=
  fun _ _ hill => exec_illegal_of_not_wellFormed hill

/-- A word of no row is refused by the decoder, and the engine answers as to an illegal command. -/
theorem runWord_illegal_of_no_row {w : Word64} (h : ∀ row ∈ opcodeRows, w &&& row.1 ≠ row.2) (s : State) :
    runWord w s = s.illegal := by
  match hdec : decode w with
  | .error _ => simp only [runWord, hdec]
  | .ok i =>
    obtain ⟨row, hrow, hw⟩ := (decodesExactlyTableWords w).mp ⟨i, hdec⟩
    exact absurd hw (h row hrow)

/-- Settles O7: the word runs in the state with the port's rest, where the decoder refuses it or its command's first
check does. -/
theorem stepRejectsIllegalWord : Obligations.StepRejectsIllegalWord := by
  intro s w rest hport hill
  rw [step_of_port_cons hport, runEvent_command]
  rcases hill with hnorow | ⟨i, hdecode, hill⟩
  · exact runWord_illegal_of_no_row hnorow _
  · rw [runWord_of_decode hdecode]
    exact exec_illegal_of_not_wellFormed hill

/-! ### The response word (R84) -/

theorem response_word_fields (r : Response) :
    r.word.extractLsb' 56 8 = errValue r.err ∧ r.word.extractLsb' 49 7 = 0 ∧ r.word.getLsbD 48 = r.done ∧
      r.word.extractLsb' 0 48 = r.val := by
  have habove (a n : Nat) (ha : 48 ≤ a) :
      r.word.extractLsb' a n = (errValue r.err ++ 0#7 ++ BitVec.ofBool r.done).extractLsb' (a - 48) n :=
    BitVec.extractLsb'_append_eq_of_le (xlo := r.val) ha
  refine ⟨?_, ?_, ?_, ?_⟩
  · rw [habove 56 8 (by decide), BitVec.extractLsb'_append_eq_of_le (by decide)]
    exact BitVec.extractLsb'_append_eq_left
  · rw [habove 49 7 (by decide), BitVec.extractLsb'_append_eq_of_le (by decide)]
    exact BitVec.extractLsb'_append_eq_right
  · have hdone : r.word.extractLsb' 48 1 = BitVec.ofBool r.done :=
      (habove 48 1 (by decide)).trans BitVec.extractLsb'_append_eq_right
    rw [bit_of_field hdone 48 (by decide) (by decide)]
    simp
  · exact BitVec.extractLsb'_append_eq_right

theorem entryVal_fields (e : Entry) :
    (entryVal e).extractLsb' 16 32 = e.key ∧ (entryVal e).extractLsb' 9 7 = 0 ∧
      (entryVal e).extractLsb' 0 9 = e.item := by
  have habove (a n : Nat) (ha : 9 ≤ a) : (entryVal e).extractLsb' a n = (e.key ++ 0#7).extractLsb' (a - 9) n :=
    BitVec.extractLsb'_append_eq_of_le ha
  refine ⟨?_, ?_, ?_⟩
  · exact (habove 16 32 (by decide)).trans BitVec.extractLsb'_append_eq_left
  · exact (habove 9 7 (by decide)).trans BitVec.extractLsb'_append_eq_right
  · exact BitVec.extractLsb'_append_eq_right

/-- Settles O5: the two layouts by their parts, the errors' numbers by R185's table. -/
theorem responseWordLayout : Obligations.ResponseWordLayout :=
  ⟨response_word_fields, ⟨rfl, rfl, rfl, rfl, rfl, rfl, rfl, rfl, rfl⟩, entryVal_fields⟩

/-! ### Code words (R88, R138 a) -/

/-- In a tree only a leaf's own path begins with its path. -/
theorem sym_eq_of_path_prefix {t : CodeTree} {a b : Sym} {p q : List Bool} (ha : (a, p) ∈ t.paths)
    (hb : (b, q) ∈ t.paths) (h : p <+: q) : a = b := by
  induction t generalizing p q with
  | leaf c =>
    simp only [CodeTree.paths, List.mem_singleton, Prod.mk.injEq] at ha hb
    exact ha.1.trans hb.1.symm
  | node l r ihl ihr =>
    simp only [CodeTree.paths, List.mem_append, List.mem_map, Prod.mk.injEq] at ha hb
    rcases ha with ⟨⟨_, p⟩, ha, rfl, rfl⟩ | ⟨⟨_, p⟩, ha, rfl, rfl⟩ <;>
      rcases hb with ⟨⟨_, q⟩, hb, rfl, rfl⟩ | ⟨⟨_, q⟩, hb, rfl, rfl⟩ <;>
      rw [List.cons_prefix_cons] at h
    · exact ihl ha hb h.2
    · cases h.1
    · cases h.1
    · exact ihr ha hb h.2

/-- Settles O46: the two symbols are leaves of the tree under ROOT, with different paths; a tree that is one leaf has no
two symbols. -/
theorem codeIsPrefixFree : Obligations.CodeIsPrefixFree := by
  intro s hinv hphase a b hab ha hb
  obtain ⟨t, hholds, -, hmem, hpaths⟩ := (hinv.tree hphase).tree
  obtain ⟨p, hp⟩ := mem_syms_iff.mp ((hmem a).mpr ha)
  obtain ⟨q, hq⟩ := mem_syms_iff.mp ((hmem b).mpr hb)
  rw [hpaths a p hp, hpaths b q hq]
  intro hword
  have hpath : p <+: q := by
    by_cases hleaf : isLeaf s.root = true
    · obtain rfl := holds_of_leaf hholds hleaf
      have hnil : p = [] := List.eq_nil_of_length_eq_zero (Nat.le_zero.mp (paths_length_le_depth hp))
      exact hnil ▸ List.nil_prefix
    · simpa only [wordOfPath, if_neg hleaf] using hword
  exact hab (sym_eq_of_path_prefix hp hq hpath)

end Sys2Proof
end

section
/-! The system commands (spec/40_system.md R100 to R102): what CLR, RDCSR and WRCSR answer and write. RDCSR needs the
layouts of the CSRs that hold more than one field (spec/10_state.md R41). -/

namespace Sys2Proof

open Sys2Proof.Machine

/-! ### CLR (R100) -/

/-- Settles O27: the state CLR leaves is `cleared` with the response, and `cleared` is the reset state but for OUT, the
responses and the model's own fields. -/
theorem clrResult : Obligations.ClrResult :=
  fun s => ⟨s.cleared.respond 0, rfl, rfl⟩

/-! ### The layouts of the CSRs (R41) -/

/-- A field of one bit is known by its bit. -/
theorem getLsbD_of_field {w a : Nat} {x : BitVec w} {d : Bool} (h : x.extractLsb' a 1 = BitVec.ofBool d) :
    x.getLsbD a = d := by
  simpa using congrArg (BitVec.getLsbD · 0) h

theorem status_fields (s : State) :
    s.status.extractLsb' 0 3 = s.phase.code ∧ s.status.getLsbD 3 = s.tv ∧ s.status.getLsbD 4 = s.single ∧
      s.status.getLsbD 5 = s.atRoot ∧ s.status.extractLsb' 6 42 = 0 := by
  have habovePhase (a n : Nat) (ha : 3 ≤ a) : s.status.extractLsb' a n =
      (0#42 ++ BitVec.ofBool s.atRoot ++ BitVec.ofBool s.single ++ BitVec.ofBool s.tv).extractLsb' (a - 3) n :=
    BitVec.extractLsb'_append_eq_of_le ha
  have haboveTv (a n : Nat) (ha : 4 ≤ a) : s.status.extractLsb' a n =
      (0#42 ++ BitVec.ofBool s.atRoot ++ BitVec.ofBool s.single).extractLsb' (a - 3 - 1) n :=
    (habovePhase a n (by omega)).trans (BitVec.extractLsb'_append_eq_of_le (by omega))
  have haboveSingle (a n : Nat) (ha : 5 ≤ a) : s.status.extractLsb' a n =
      (0#42 ++ BitVec.ofBool s.atRoot).extractLsb' (a - 3 - 1 - 1) n :=
    (haboveTv a n (by omega)).trans (BitVec.extractLsb'_append_eq_of_le (by omega))
  refine ⟨BitVec.extractLsb'_append_eq_right, getLsbD_of_field ?_, getLsbD_of_field ?_, getLsbD_of_field ?_, ?_⟩
  · exact (habovePhase 3 1 (by decide)).trans BitVec.extractLsb'_append_eq_right
  · exact (haboveTv 4 1 (by decide)).trans BitVec.extractLsb'_append_eq_right
  · exact (haboveSingle 5 1 (by decide)).trans BitVec.extractLsb'_append_eq_right
  · exact (haboveSingle 6 42 (by decide)).trans BitVec.extractLsb'_append_eq_left

theorem pack_fields (s : State) :
    s.pack.extractLsb' 0 8 = s.pbuf ∧ s.pack.extractLsb' 8 3 = s.pcnt ∧ s.pack.extractLsb' 11 37 = 0 := by
  have habove (a n : Nat) (ha : 8 ≤ a) : s.pack.extractLsb' a n = (0#37 ++ s.pcnt).extractLsb' (a - 8) n :=
    BitVec.extractLsb'_append_eq_of_le ha
  refine ⟨BitVec.extractLsb'_append_eq_right, ?_, ?_⟩
  · exact (habove 8 3 (by decide)).trans BitVec.extractLsb'_append_eq_right
  · exact (habove 11 37 (by decide)).trans BitVec.extractLsb'_append_eq_left

theorem qiter_fields (s : State) :
    s.qiter.extractLsb' 0 9 = s.qitk ∧ s.qiter.extractLsb' 9 7 = 0 ∧ s.qiter.extractLsb' 16 1 = s.qitb ∧
      s.qiter.extractLsb' 17 31 = 0 := by
  have haboveQitk (a n : Nat) (ha : 9 ≤ a) :
      s.qiter.extractLsb' a n = (0#31 ++ s.qitb ++ 0#7).extractLsb' (a - 9) n :=
    BitVec.extractLsb'_append_eq_of_le ha
  have haboveGap (a n : Nat) (ha : 16 ≤ a) : s.qiter.extractLsb' a n = (0#31 ++ s.qitb).extractLsb' (a - 9 - 7) n :=
    (haboveQitk a n (by omega)).trans (BitVec.extractLsb'_append_eq_of_le (by omega))
  refine ⟨BitVec.extractLsb'_append_eq_right, ?_, ?_, ?_⟩
  · exact (haboveQitk 9 7 (by decide)).trans BitVec.extractLsb'_append_eq_right
  · exact (haboveGap 16 1 (by decide)).trans BitVec.extractLsb'_append_eq_right
  · exact (haboveGap 17 31 (by decide)).trans BitVec.extractLsb'_append_eq_left

/-- NINT is the length of NM as long as that is in R28's range. -/
theorem nint_toNat {s : State} (h : s.nm.length ≤ 255) : s.nint.toNat = s.nm.length :=
  (BitVec.toNat_ofNat _ _).trans (Nat.mod_eq_of_lt (Nat.lt_succ_of_le h))

/-! ### RDCSR (R101) -/

/-- Every number of R41's table has a value. -/
theorem csr_eq_some_of_le {c : BitVec 8} (h : c.toNat ≤ 9) (s : State) : ∃ v, s.csr c = some v := by
  unfold State.csr
  interval_cases c.toNat <;> exact ⟨_, rfl⟩

/-- RDCSR of a CSR answers its value and writes no state. -/
theorem execRdcsr_of_csr {c : BitVec 8} {s : State} {v : Val} (h : s.csr c = some v) :
    execRdcsr c s = .next (s.respond v) := by
  simp only [execRdcsr, h]

/-- Settles O28: the value that `csr` has for each number of R41's table is the one RDCSR answers, and its fields are
those of the layout; a number outside the table is an ill-formed operand. -/
theorem rdcsrResult : Obligations.RdcsrResult := by
  constructor
  · intro s c hc
    exact exec_illegal_of_not_wellFormed (i := .rdcsr c) (decide_eq_false (Nat.not_le_of_lt hc))
  · intro s c hc hnm
    obtain ⟨v, hv⟩ := csr_eq_some_of_le hc s
    refine ⟨v, execRdcsr_of_csr hv, ?_, ?_, ?_, ?_, ?_, ?_, ?_, ?_, ?_, ?_⟩ <;> rintro rfl
    · obtain rfl : s.status = v := Option.some.inj hv
      obtain ⟨hphase, htv, hsingle, hroot, hrest⟩ := status_fields s
      rw [hphase]
      refine ⟨?_, ?_, ?_, ?_, ?_, htv, hsingle, hroot, hrest⟩ <;> exact fun h => h ▸ rfl
    · obtain rfl : (errValue s.err).setWidth 48 = v := Option.some.inj hv
      refine ⟨?_, ?_, ?_, ?_, ?_, ?_, ?_, ?_, ?_⟩ <;> exact fun h => h ▸ rfl
    · exact (Option.some.inj hv).symm
    · exact Option.some.inj hv ▸ BitVec.toNat_setWidth_of_le (b := s.total) (by decide)
    · exact Option.some.inj hv ▸ BitVec.toNat_setWidth_of_le (b := s.root) (by decide)
    · obtain rfl : s.nint.setWidth 48 = v := Option.some.inj hv
      exact (BitVec.toNat_setWidth_of_le (by decide)).trans (nint_toNat hnm)
    · exact Option.some.inj hv ▸ BitVec.toNat_setWidth_of_le (b := s.wp) (by decide)
    · obtain rfl : s.pack = v := Option.some.inj hv
      exact pack_fields s
    · exact (Option.some.inj hv).symm
    · obtain rfl : s.qiter = v := Option.some.inj hv
      exact qiter_fields s

/-! ### WRCSR (R102) -/

/-- A value that BITCOUNT has the bits for is written as it is (R36). -/
theorem inBitcount_val {bits : Nat} {v : Val} (h : v.toNat < 2 ^ bits) : inBitcount bits v.toNat = v := by
  rw [inBitcount, if_pos h, BitVec.ofNat_toNat, BitVec.setWidth_eq]

/-- Settles O29: BITCOUNT takes the value as `inBitcount` cuts it to its width, and every other WRCSR is `illegal`. -/
theorem wrcsrResult : Obligations.WrcsrResult := by
  refine fun s c v => ⟨fun hc => ?_, fun hc => if_neg hc⟩
  exact ⟨inBitcount s.cfg.bitcountBits v.toNat, if_pos hc, inBitcount_val, inBitcount_lt _ _⟩

end Sys2Proof
end

section
/-! The nine commands of the priority queue (spec/41_queue.md R113 to R121): what each answers and writes, and what runs
of them answer (R124 d, R119, R120). The heap's own facts are the specification lemmas of Insert and ExtractMin. -/

namespace Sys2Proof

open Sys2Proof.Machine

/-! ### Answering, and writing a bank -/

@[simp] theorem respond_bank (s : State) (v : Val) (q : Bank) : (s.respond v).bank q = s.bank q := rfl

/-- Writing a bank writes the banks and the iteration mark alone. -/
theorem setBank_frame (s : State) (q : Bank) (l : List Entry) :
    s.setBank q l =
      { s with hq0 := (s.setBank q l).hq0, hq1 := (s.setBank q l).hq1, iter := (s.setBank q l).iter } := by
  rcases bank_cases q with rfl | rfl <;> rfl

theorem setBank_bank_flip (s : State) (q : Bank) (l : List Entry) : (s.setBank q l).bank (1 - q) = s.bank (1 - q) :=
  setBank_bank_other s q (1 - q) l (other_bank_ne q)

/-- Commands in a row: the first one completes, and the rest go on from where it ended. -/
theorem runCommands_cons {i : Instr} {s t : State} (h : exec i s = .next t) (rest : List Instr) :
    runCommands (i :: rest) s = runCommands rest t := by
  simp only [runCommands, h]

/-! ### Q_INSERT (R113) -/

/-- A Q_INSERT that is not refused writes into its bank what Insert makes of it. -/
theorem exec_qInsert_of_heapInsert {s : State} {q : Bank} {key : Weight} {item : Ref} {l : List Entry}
    (hkey : keyFits s.cfg key = true) (hroom : (s.bank q).length ≠ s.cfg.pqSlots)
    (hins : heapInsert (s.bank q) ⟨key, item⟩ = .ok l) :
    exec (.qInsert q key item) s = .next ((s.setBank q l).respond 0) := by
  rw [exec, execQInsert, if_neg (by simp [hkey]), if_neg hroom, hins]

/-- Settles O30: the bank is what Insert leaves, which `heapInsert_spec` gives as a multiset and as a heap and
`heapInsert_swum` slot by slot; the two refusals are the command's first checks. -/
theorem qInsertResult : Obligations.QInsertResult := by
  refine fun s q key item => ⟨fun hkey hroom => ?_, fun hill => ?_⟩
  · obtain ⟨l, hins, hperm, hheap⟩ := heapInsert_spec (s.bank q) ⟨key, item⟩
    refine ⟨_, exec_qInsert_of_heapInsert (decide_eq_true hkey) hroom hins, ?_⟩
    rw [respond_bank, respond_bank, setBank_bank_self, setBank_bank_flip]
    exact ⟨heapInsert_swum hins, hperm, hheap, rfl, by rw [setBank_frame]; rfl⟩
  · rcases hill with hwide | hfull
    · exact exec_illegal_of_not_wellFormed (i := .qInsert q key item) (decide_eq_false (Nat.not_lt.mpr hwide))
    · exact ite_eq_left_iff.mpr fun _ => if_pos hfull

/-! ### Q_PEEK, Q_SIZE and Q_EMPTY (R114, R116, R117) -/

theorem slot_one_cons (m : Entry) (rest : List Entry) : slot (m :: rest) 1 = .ok m := rfl

/-- Settles O31: slot 1 is the list's head, the smallest key of a heap. -/
theorem qPeekResult : Obligations.QPeekResult := by
  refine fun s q => ⟨fun m rest hbank => ⟨?_, fun hheap => ?_⟩, fun hempty => ?_⟩
  · rw [exec, execQPeek, hbank, if_neg (by simp), slot_one_cons]
    rfl
  · exact heap_root_le hheap (hbank ▸ slot_one_cons m rest)
  · exact if_pos (by simp [hempty])

/-- QN is the number of live slots as long as that is in R30's range. -/
theorem qn_toNat {s : State} {q : Bank} (h : (s.bank q).length ≤ 510) : (s.qn q).toNat = (s.bank q).length :=
  (BitVec.toNat_ofNat _ _).trans (Nat.mod_eq_of_lt (by omega))

/-- Settles O34: both commands read QN, which is the number of live slots. -/
theorem qSizeAndEmptyResult : Obligations.QSizeAndEmptyResult := by
  intro s q hlen
  have hqn := qn_toNat hlen
  have hsize : (s.qn q).setWidth 48 = BitVec.ofNat 48 (s.bank q).length := by
    rw [← hqn, BitVec.ofNat_toNat]
  have hempty : s.qn q = 0 ↔ s.bank q = [] := by
    rw [← BitVec.toNat_inj, hqn]
    exact List.length_eq_zero_iff
  constructor
  · rw [← hsize]; rfl
  · simp only [← hempty]; rfl

/-! ### Q_EXTRACT (R115) and draining a heap (R124 d) -/

/-- A Q_EXTRACT of a bank with entries writes into it what ExtractMin leaves, and answers the entry it took. -/
theorem exec_qExtract_of_extractMin {s : State} {q : Bank} {m : Entry} {l : List Entry} (hne : s.bank q ≠ [])
    (hext : extractMin (tieChoice s.cfg.tiePolicy s.draws) (s.bank q) = .ok (m, l)) :
    exec (.qExtract q) s = .next ({ s.setBank q l with draws := s.draws + 1 }.respond (entryVal m)) := by
  rw [exec, execQExtract, if_neg (mt List.length_eq_zero_iff.mp hne), hext]

/-- Settles O32: `extractMin_spec` gives the bank that is left as a multiset and as a heap, `extractMin_sunk` slot by slot;
slot 1 of a heap has the smallest key. -/
theorem qExtractResult : Obligations.QExtractResult := by
  refine fun s q => ⟨fun m rest hbank => ?_, fun hempty => if_pos (by simp [hempty])⟩
  have hne : s.bank q ≠ [] := by simp [hbank]
  obtain ⟨m', l, hext, hslot, hperm, hheap⟩ := extractMin_spec (tieChoice s.cfg.tiePolicy s.draws) (s.bank q) hne
  obtain rfl : m = m' := by
    rw [hbank, slot_one_cons] at hslot
    exact Except.ok.inj hslot
  have hself : ({ s.setBank q l with draws := s.draws + 1 } : State).bank q = l := setBank_bank_self s q l
  refine ⟨_, exec_qExtract_of_extractMin hne hext, ?_⟩
  rw [respond_bank, respond_bank, hself]
  refine ⟨hperm, fun hh => ⟨hheap hh, heap_root_le hh hslot⟩, fun x hx => ?_, setBank_bank_flip s q l,
    by rw [setBank_frame]; rfl⟩
  have hrest : rest ≠ [] := by rintro rfl; cases hx
  have hlast : (s.bank q).getLast? = some x := by rw [hbank, List.getLast?_cons, hx]; rfl
  have htwo : 2 ≤ (s.bank q).length := by
    have := List.length_pos_iff.mpr hrest
    rw [hbank, List.length_cons]
    omega
  exact extractMin_sunk s.cfg.tiePolicy s.draws hlast htwo hext

/-- Settles O33, by induction on the number of entries: the first Q_EXTRACT answers a smallest key and leaves a heap of
the others, which the induction hypothesis drains in order. -/
theorem drainIsSorted : Obligations.DrainIsSorted := by
  intro s q hheap
  generalize hn : (s.bank q).length = n
  induction n generalizing s with
  | zero =>
    have hnil : s.bank q = [] := List.length_eq_zero_iff.mp hn
    exact ⟨s, [], rfl, by simp, by simp [hnil], .nil, hnil⟩
  | succ n ih =>
    obtain ⟨m, rest, hbank⟩ := List.exists_cons_of_length_eq_add_one hn
    obtain ⟨u, hexec, hperm, hmin, -, -, hframe⟩ := (qExtractResult s q).1 m rest hbank
    obtain ⟨hu, hle⟩ := hmin hheap
    have hlen : (u.bank q).length = n := by
      have := hperm.length_eq
      rw [List.length_cons] at this
      omega
    have hresps : u.resps = s.resps ++ [answered (entryVal m)] := by rw [hframe]
    obtain ⟨t, es, hrun, hans, hes, hsorted, hempty⟩ := ih u hu hlen
    have hall : (m :: es).Perm (s.bank q) := (hes.cons m).trans hperm.symm
    refine ⟨t, m :: es, ?_, ?_, hall, List.pairwise_cons.mpr ⟨fun e he => ?_, hsorted⟩, hempty⟩
    · rw [List.replicate_succ, runCommands_cons hexec, hrun]
    · rw [hans, hresps, List.append_assoc, List.map_cons, List.singleton_append]
    · exact hle e (hall.subset (List.mem_cons_of_mem m he))

/-! ### Q_DUP (R118) -/

/-- Settles O35: the other bank becomes what bank `q` is, which is nothing where an empty bank may be copied. -/
theorem qDupResult : Obligations.QDupResult := by
  refine fun s q => ⟨fun hcopy => ?_, fun ⟨hempty, hfails⟩ => ?_⟩
  · have hexec : exec (.qDup q) s = .next ((s.setBank (1 - q) (s.bank q)).respond 0) := by
      by_cases hempty : s.bank q = []
      · have hmay : s.cfg.dupEmptyFails = false := hcopy.resolve_left (not_not_intro hempty)
        simp [exec, execQDup, hempty, hmay]
      · exact if_neg (mt List.length_eq_zero_iff.mp hempty)
    refine ⟨_, hexec, setBank_bank_self s (1 - q) _, ?_, by simp [answered], by rw [setBank_frame]; rfl⟩
    exact setBank_bank_other s (1 - q) q _ (other_bank_ne q).symm
  · simp [exec, execQDup, hempty, hfails]

/-! ### The iteration (R119 to R121) -/

/-- Settles O36: the command writes the cursor and the mark. -/
theorem qIterBeginResult : Obligations.QIterBeginResult :=
  fun _ _ => ⟨_, rfl, rfl⟩

/-- What Q_ITER_NEXT leaves of `s` at a live slot that holds `e`: it has answered the entry and moved the cursor on. -/
def afterSlot (s : State) (e : Entry) : State :=
  { s with qitk := s.qitk + 1, iter := .valid }.respond (entryVal e)

theorem exec_qIterNext_of_slot {s : State} {e : Entry} (hmark : s.iter ≠ .invalid)
    (hslot : slot (s.bank s.qitb) s.qitk.toNat = .ok e) : exec .qIterNext s = .next (afterSlot s e) := by
  obtain ⟨-, hlive⟩ := slot_bounds hslot
  rw [exec, execQIterNext, if_neg hmark, if_pos hlive, hslot]
  rfl

/-- Behind the last live slot Q_ITER_NEXT answers the end mark. -/
theorem exec_qIterNext_of_end {s : State} (hmark : s.iter ≠ .invalid)
    (hend : (s.bank s.qitb).length < s.qitk.toNat) :
    exec .qIterNext s = .next ({ s with iter := .valid } : State).respondDone := by
  rw [exec, execQIterNext, if_neg hmark, if_neg (Nat.not_le.mpr hend)]

/-- Settles O37, by the two places the cursor can be at. -/
theorem qIterNextResult : Obligations.QIterNextResult :=
  fun _ hmark =>
    ⟨fun _ hslot => ⟨_, exec_qIterNext_of_slot hmark hslot⟩, fun hend => ⟨_, exec_qIterNext_of_end hmark hend⟩⟩

/-- An iteration that has passed the slots `past` answers those in `ahead` and then the end, by induction on `ahead`. -/
theorem iteration_from (ahead : List Entry) {past : List Entry} {s : State} (hmark : s.iter = .valid)
    (hbank : s.bank s.qitb = past ++ ahead) (hcursor : s.qitk.toNat = past.length + 1)
    (hsize : (past ++ ahead).length ≤ 510) :
    ∃ t, runCommands (List.replicate (ahead.length + 1) .qIterNext) s = .next t ∧
      t.resps = s.resps ++ ahead.map (fun e => answered (entryVal e)) ++ [ended] ∧ t.hq0 = s.hq0 ∧ t.hq1 = s.hq1 := by
  have hmay : s.iter ≠ .invalid := by simp [hmark]
  induction ahead generalizing past s with
  | nil =>
    have hend : (s.bank s.qitb).length < s.qitk.toNat := by rw [hbank, hcursor, List.append_nil]; omega
    exact ⟨_, runCommands_cons (exec_qIterNext_of_end hmay hend) [], by simp [ended], rfl, rfl⟩
  | cons e ahead ih =>
    have hslot : slot (s.bank s.qitb) s.qitk.toNat = .ok e := by
      rw [hbank, hcursor, slot_eq (by omega) (by simp)]
      simp
    have hcursor' : (afterSlot s e).qitk.toNat = (past ++ [e]).length + 1 := by
      have hfits : s.qitk.toNat + 1 < 2 ^ 9 := by simp only [List.length_append, List.length_cons] at hsize; omega
      rw [List.length_append, List.length_singleton, ← hcursor]
      exact toNat_succ hfits
    have hbank' : (afterSlot s e).bank (afterSlot s e).qitb = past ++ [e] ++ ahead :=
      hbank.trans (List.append_cons past e ahead)
    obtain ⟨t, hrun, hresps, h0, h1⟩ :=
      ih rfl hbank' hcursor' (by rwa [← List.append_cons]) (by simp [afterSlot])
    refine ⟨t, ?_, ?_, h0, h1⟩
    · rw [List.length_cons, List.replicate_succ, runCommands_cons (exec_qIterNext_of_slot hmay hslot), hrun]
    · rw [hresps]
      simp [afterSlot, answered]

/-- Settles O38: Q_ITER_BEGIN puts the cursor before all live slots of the bank. -/
theorem iterationInArrayOrder : Obligations.IterationInArrayOrder := by
  intro s q hsize
  obtain ⟨t, hrun, hresps, h0, h1⟩ := iteration_from (s.bank q) (past := [])
    (s := { s with qitb := q, qitk := 1, iter := .valid }.respond 0) rfl rfl rfl hsize
  exact ⟨t, (runCommands_cons rfl _).trans hrun, hresps, h0, h1⟩

/-- Settles O39: the command raises, and does nothing else. -/
theorem qIterRemoveResult : Obligations.QIterRemoveResult :=
  fun _ => rfl

end Sys2Proof
end

section
/-! The engine is deterministic (spec/41_queue.md R122, spec/42_build.md R139): unless TIE_POLICY is `any`, the count of
ExtractMin runs, which selects the free choices, changes no answer. `Agrees` compares two answers but for that count; the
commands that run no ExtractMin only carry it along. -/

namespace Sys2Proof

open Sys2Proof.Machine

/-! ### Answers that agree -/

/-- Where `a` completes, `b` completes in the same state but for the count of draws. -/
def Agrees (a b : Answer) : Prop := ∀ t, a = .next t → ∃ d, b = .next { t with draws := d }

theorem agrees_next (t : State) (d : Nat) : Agrees (.next t) (.next { t with draws := d }) := by
  rintro _ ⟨⟩
  exact ⟨d, rfl⟩

theorem agrees_fault (f : Fault) (b : Answer) : Agrees (.fault f) b := by
  rintro _ ⟨⟩

theorem agrees_refused (r : Refusal) (b : Answer) : Agrees (.refused r) b := by
  rintro _ ⟨⟩

theorem agrees_ite {p : Prop} [Decidable p] {a b a' b' : Answer} (ha : p → Agrees a a') (hb : ¬ p → Agrees b b') :
    Agrees (if p then a else b) (if p then a' else b') := by
  split
  · exact ha ‹_›
  · exact hb ‹_›

/-! ### The walk, the unpacker, the packer and the banks carry the count along -/

/-- A run in the same states but for the count of draws, which is `d` there. -/
def runWithDraws (d : Nat) : Run → Run
  | .ok s => .ok { s with draws := d }
  | .raised e s => .raised e { s with draws := d }
  | .stuck f => .stuck f

theorem agrees_finish (s : State) (d : Nat) (r : Run) :
    Agrees (finish s r) (finish { s with draws := d } (runWithDraws d r)) := by
  cases r with
  | ok t => exact agrees_next _ d
  | raised e t => exact agrees_next _ d
  | stuck f => exact agrees_fault f _

theorem walk_withDraws (s : State) (d : Nat) (digit : Bool) :
    walk { s with draws := d } digit = runWithDraws d (walk s digit) := by
  by_cases hleaf : isLeaf s.root = true
  · cases digit <;> simp only [walk, hleaf, if_true] <;> rfl
  · rw [Bool.not_eq_true] at hleaf
    cases hnode : nodeAt s.nm s.wp with
    | error f => simp [walk, State.node, hleaf, hnode, runWithDraws]
    | ok n =>
      rw [walk_internal digit hleaf hnode, walk_internal (s := { s with draws := d }) digit hleaf hnode]
      by_cases hchild : isLeaf (if digit then n.right else n.left) = true
      · rw [if_pos hchild, if_pos hchild]; rfl
      · rw [if_neg hchild, if_neg hchild]; rfl

theorem unpack_withDraws (ds : List Bool) (s : State) (d : Nat) :
    unpack ds { s with draws := d } = runWithDraws d (unpack ds s) := by
  induction ds generalizing s with
  | nil => rfl
  | cons digit ds ih =>
    simp only [unpack]
    by_cases hspent : s.urem = 0
    · rw [if_pos hspent, if_pos hspent, runWithDraws]
    · rw [if_neg hspent, if_neg hspent, walk_withDraws]
      cases walk s digit with
      | ok t => exact ih { t with urem := t.urem - 1 }
      | raised e t => rfl
      | stuck f => rfl

theorem push_withDraws (s : State) (d : Nat) (digit : Bool) :
    push { s with draws := d } digit = { push s digit with draws := d } := by
  by_cases hfull : s.pcnt.toNat + 1 = s.g
  · rw [push_full hfull, push_full (s := { s with draws := d }) hfull]
  · rw [push_part hfull, push_part (s := { s with draws := d }) hfull]

theorem pushDigits_withDraws (ds : List Bool) (s : State) (d : Nat) :
    pushDigits ds { s with draws := d } = { pushDigits ds s with draws := d } := by
  induction ds generalizing s with
  | nil => rfl
  | cons digit ds ih => rw [pushDigits, push_withDraws, ih, pushDigits]

theorem flush_withDraws (s : State) (d : Nat) : flush { s with draws := d } = { flush s with draws := d } := by
  unfold flush
  split <;> rfl

theorem setBank_withDraws (s : State) (q : Bank) (l : List Entry) (d : Nat) :
    ({ s with draws := d } : State).setBank q l = { s.setBank q l with draws := d } := by
  rcases bank_cases q with rfl | rfl <;> rfl

/-! ### ExtractMin and BUILD under a policy without free choices -/

/-- Every ExtractMin makes the same choice where the policy leaves none. -/
theorem tieChoice_eq {p : TiePolicy} (h : p ≠ .any) (d e : Nat) : tieChoice p d = tieChoice p e := by
  cases p with
  | left => rfl
  | right => rfl
  | any => exact absurd rfl h

/-- A computation that answers has answered at each of its steps. -/
theorem bind_eq_ok {α β : Type} {x : Except Fault α} {f : α → Except Fault β} {b : β} :
    x >>= f = .ok b ↔ ∃ a, x = .ok a ∧ f a = .ok b := by
  cases x <;> simp [bind, Except.bind]

theorem mergeOnce_withDraws {p : TiePolicy} (hp : p ≠ .any) {f g : Forest} (h : mergeOnce p f = .ok g) (d : Nat) :
    mergeOnce p { f with draws := d } = .ok { g with draws := d + 2 } := by
  simp only [mergeOnce, bind_eq_ok] at h
  obtain ⟨⟨a, l₁⟩, hfirst, ⟨b, l₂⟩, hsecond, l₃, hinsert, h⟩ := h
  cases h
  rw [tieChoice_eq hp f.draws d] at hfirst
  rw [tieChoice_eq hp (f.draws + 1) (d + 1)] at hsecond
  simp only [mergeOnce, bind_eq_ok]
  exact ⟨_, hfirst, _, hsecond, _, hinsert, rfl⟩

theorem merge_withDraws {p : TiePolicy} (hp : p ≠ .any) (fuel : Nat) {f g : Forest} (h : merge p fuel f = .ok g)
    (d : Nat) : ∃ d', merge p fuel { f with draws := d } = .ok { g with draws := d' } := by
  induction fuel generalizing f d with
  | zero => cases h; exact ⟨d, rfl⟩
  | succ fuel ih =>
    by_cases hmore : 1 < f.heap.length
    · rw [merge, if_pos hmore, bind_eq_ok] at h
      obtain ⟨f', hturn, hrest⟩ := h
      obtain ⟨d', hrest'⟩ := ih hrest (d + 2)
      refine ⟨d', ?_⟩
      rw [merge, if_pos hmore, bind_eq_ok]
      exact ⟨_, mergeOnce_withDraws hp hturn d, hrest'⟩
    · rw [merge, if_neg hmore] at h
      cases h
      exact ⟨d, if_neg hmore⟩

theorem buildTree_withDraws {c : Config} (hp : c.tiePolicy ≠ .any) {ft : Vector Weight 256} {d₀ : Nat} {t : Tree}
    (h : buildTree c ft d₀ = .ok t) (d : Nat) : ∃ d', buildTree c ft d = .ok { t with draws := d' } := by
  rw [buildTree, bind_eq_ok] at h
  obtain ⟨l, hleaves, h⟩ := h
  have hfit : ¬ c.pqSlots < l.length := by
    intro hfull
    rw [if_pos hfull] at h
    cases h
  simp only [if_neg hfit, bind_eq_ok] at h
  obtain ⟨f, hmerge, ⟨e, l'⟩, hroot, ct, hderive, h⟩ := h
  cases h
  obtain ⟨d', hmerge'⟩ := merge_withDraws hp _ hmerge d
  rw [tieChoice_eq hp f.draws d'] at hroot
  refine ⟨d' + 1, ?_⟩
  simp only [buildTree, bind_eq_ok]
  refine ⟨l, hleaves, ?_⟩
  simp only [if_neg hfit, bind_eq_ok]
  exact ⟨_, hmerge', _, hroot, ct, hderive, rfl⟩

/-! ### The commands -/

section
variable (s : State) (d : Nat)

theorem bank_withDraws (q : Bank) : ({ s with draws := d } : State).bank q = s.bank q := rfl

theorem execRdcsr_agrees (c : BitVec 8) : Agrees (execRdcsr c s) (execRdcsr c { s with draws := d }) := by
  have hcsr : ({ s with draws := d } : State).csr c = s.csr c := rfl
  unfold execRdcsr
  rw [hcsr]
  cases s.csr c with
  | none => exact agrees_next _ d
  | some v => exact agrees_next _ d

theorem execQInsert_agrees (q : Bank) (key : Weight) (item : Ref) :
    Agrees (execQInsert q key item s) (execQInsert q key item { s with draws := d }) := by
  refine agrees_ite (fun _ => agrees_next _ d) fun _ => agrees_ite (fun _ => agrees_next _ d) fun _ => ?_
  rw [bank_withDraws s d]
  cases heapInsert (s.bank q) ⟨key, item⟩ with
  | error f => exact agrees_fault f _
  | ok l =>
    simp only [setBank_withDraws]
    exact agrees_next _ d

theorem execQPeek_agrees (q : Bank) : Agrees (execQPeek q s) (execQPeek q { s with draws := d }) := by
  refine agrees_ite (fun _ => agrees_next _ d) fun _ => ?_
  rw [bank_withDraws s d]
  cases slot (s.bank q) 1 with
  | error f => exact agrees_fault f _
  | ok e => exact agrees_next _ d

theorem execQExtract_agrees (hp : s.cfg.tiePolicy ≠ .any) (q : Bank) :
    Agrees (execQExtract q s) (execQExtract q { s with draws := d }) := by
  refine agrees_ite (fun _ => agrees_next _ d) fun _ => ?_
  rw [bank_withDraws s d, tieChoice_eq hp d s.draws]
  cases extractMin (tieChoice s.cfg.tiePolicy s.draws) (s.bank q) with
  | error f => exact agrees_fault f _
  | ok a =>
    simp only [setBank_withDraws]
    exact agrees_next _ (d + 1)

theorem execQDup_agrees (q : Bank) : Agrees (execQDup q s) (execQDup q { s with draws := d }) := by
  unfold execQDup
  simp only [setBank_withDraws]
  exact agrees_ite (fun _ => agrees_ite (fun _ => agrees_next _ d) fun _ => agrees_next _ d) fun _ => agrees_next _ d

theorem execQIterNext_agrees : Agrees (execQIterNext s) (execQIterNext { s with draws := d }) := by
  refine agrees_ite (fun _ => agrees_refused _ _) fun _ => agrees_ite (fun _ => ?_) fun _ => agrees_next _ d
  rw [bank_withDraws s d]
  cases slot (s.bank s.qitb) s.qitk.toNat with
  | error f => exact agrees_fault f _
  | ok e => exact agrees_next _ d

theorem execBuild_agrees (hp : s.cfg.tiePolicy ≠ .any) : Agrees (execBuild s) (execBuild { s with draws := d }) := by
  refine agrees_ite (fun _ => agrees_ite (fun _ => agrees_next _ d) fun _ => ?_) fun _ => agrees_next _ d
  cases htree : buildTree s.cfg s.ft s.draws with
  | error f => exact agrees_fault f _
  | ok t =>
    obtain ⟨d', htree'⟩ := buildTree_withDraws hp htree d
    simp only [htree', setBank_withDraws]
    exact agrees_next _ d'

theorem execEnc_agrees (b : Sym) : Agrees (execEnc b s) (execEnc b { s with draws := d }) := by
  unfold execEnc
  simp only [emitDigits_eq]
  exact agrees_ite (fun _ => agrees_next _ d) fun _ => agrees_next _ d

theorem finish_walk_agrees (digit : Bool) :
    Agrees (finish s (walk s digit)) (finish { s with draws := d } (walk { s with draws := d } digit)) :=
  walk_withDraws s d digit ▸ agrees_finish s d _

theorem execDecb_agrees (b : Byte) : Agrees (execDecb b s) (execDecb b { s with draws := d }) :=
  agrees_ite
    (fun _ => agrees_ite (fun _ => finish_walk_agrees s d false) fun _ =>
      agrees_ite (fun _ => finish_walk_agrees s d true) fun _ => agrees_next _ d)
    fun _ => agrees_next _ d

theorem execCmps_agrees (b : Sym) : Agrees (execCmps b s) (execCmps b { s with draws := d }) :=
  agrees_ite (fun _ => pushDigits_withDraws (s.codeWord b) s d ▸ agrees_finish s d _) fun _ => agrees_next _ d

theorem execCmpEnd_agrees : Agrees (execCmpEnd s) (execCmpEnd { s with draws := d }) :=
  agrees_ite (fun _ => flush_withDraws s d ▸ agrees_finish s d _) fun _ => agrees_next _ d

theorem execDcmpb_agrees (b : Byte) : Agrees (execDcmpb b s) (execDcmpb b { s with draws := d }) :=
  agrees_ite (fun _ => unpack_withDraws (packedDigits s.g b) s d ▸ agrees_finish s d _) fun _ => agrees_next _ d

/-- Under a policy without free choices every command answers alike, whatever the count of draws is. -/
theorem exec_agrees (hp : s.cfg.tiePolicy ≠ .any) (i : Instr) : Agrees (exec i s) (exec i { s with draws := d }) := by
  cases i with
  | clr | qSize _ | qEmpty _ | qIterBegin _ | qIterRemove => exact agrees_next _ d
  | count _ | wrcsr _ _ | decStart | cmpStart | dcmpStart =>
    exact agrees_ite (fun _ => agrees_next _ d) fun _ => agrees_next _ d
  | decEnd | dcmpEnd =>
    exact agrees_ite (fun _ => agrees_ite (fun _ => agrees_next _ d) fun _ => agrees_next _ d) fun _ => agrees_next _ d
  | build => exact execBuild_agrees s d hp
  | rdcsr c => exact execRdcsr_agrees s d c
  | qInsert q key item => exact execQInsert_agrees s d q key item
  | qPeek q => exact execQPeek_agrees s d q
  | qExtract q => exact execQExtract_agrees s d hp q
  | qDup q => exact execQDup_agrees s d q
  | qIterNext => exact execQIterNext_agrees s d
  | enc b => exact execEnc_agrees s d b
  | decb b => exact execDecb_agrees s d b
  | cmps b => exact execCmps_agrees s d b
  | cmpEnd => exact execCmpEnd_agrees s d
  | dcmpb b => exact execDcmpb_agrees s d b

end

/-- Settles O24: the answers agree but for the count of draws itself. -/
theorem noFreeChoiceWithoutAny : Obligations.NoFreeChoiceWithoutAny :=
  fun i s t d hp h => exec_agrees s d hp i t h

end Sys2Proof
end

section
/-! Counting and building (spec/42_build.md R130 to R138): what COUNT answers and writes, the state that BUILD leaves,
which is `withTree` of the tree that `buildTree` computes, and why no code free of prefixes is shorter than BUILD's. -/

namespace Sys2Proof

open Sys2Proof.Machine

/-! ### COUNT (R130) -/

theorem setFt_ftAt (s : State) (b c : Sym) (v : Weight) :
    (s.setFt b v).ftAt c = if b = c then v else s.ftAt c := by
  simp only [State.ftAt, ftGet, setFt_ft, Vector.getElem_set, BitVec.toNat_inj]

theorem execCount_legal {s : State} (h : s.phase = .count ∧ s.total.toNat ≠ 2 ^ s.cfg.weightBits - 1) (b : Sym) :
    execCount b s = .next ({ s.setFt b (s.ftAt b + 1) with total := s.total + 1 }.respond 0) := if_pos h

/-- Settles O41: COUNT writes FT and TOTAL where it is legal, and is `illegal` elsewhere. -/
theorem countResult : Obligations.CountResult := by
  refine fun s b => ⟨fun hlegal => ?_, fun hillegal => if_neg (by tauto)⟩
  refine ⟨_, execCount_legal hlegal b, ?_, ?_, rfl, ?_, rfl, rfl⟩
  · exact (setFt_ftAt s b b _).trans (if_pos rfl)
  · exact fun c hc => (setFt_ftAt s b c _).trans (if_neg hc.symm)
  · intro hroom
    have hwidth : 2 ^ min s.cfg.weightBits 32 ≤ 2 ^ 32 := Nat.pow_le_pow_right (by decide) (Nat.min_le_right _ _)
    exact toNat_succ (by omega)

/-! ### What BUILD answers and writes (R131 to R137) -/

/-- The state with the tree in place, before the answer: bank 0 as MERGE left it, the walk at ROOT, phase READY (R131,
R134). -/
def withTree (s : State) (t : Tree) : State :=
  { s.setBank 0 t.heap with
    nm := t.nm, root := t.root, ct := t.ct, wp := t.root, phase := .ready, draws := t.draws }

/-- BUILD of a counted session answers ROOT where `buildTree` computes a tree. -/
theorem execBuild_of_tree {s : State} {t : Tree} (hphase : s.phase = .count) (htotal : s.total ≠ 0)
    (htree : buildTree s.cfg s.ft s.draws = .ok t) :
    execBuild s = .next ((withTree s t).respond (t.root.setWidth 48)) := by
  rw [execBuild, if_pos hphase, if_neg htotal, htree]
  rfl

/-- BUILD of a counted session stops where `buildTree` stops. -/
theorem execBuild_of_stop {s : State} {f : Fault} (hphase : s.phase = .count) (htotal : s.total ≠ 0)
    (hstop : buildTree s.cfg s.ft s.draws = .error f) : execBuild s = .fault f := by
  rw [execBuild, if_pos hphase, if_neg htotal, hstop]

theorem counted_ne_zero {s : State} (h : Inv s) (htotal : s.total ≠ 0) : counted s.ft ≠ 0 :=
  fun hzero => htotal (BitVec.eq_of_toNat_eq (h.total.trans hzero))

theorem counted_lt {s : State} (h : Inv s) : counted s.ft < 2 ^ 32 := h.total ▸ s.total.isLt

/-- A counted session whose symbols fit the queue has a tree. -/
theorem exists_tree {s : State} (h : Inv s) (htotal : s.total ≠ 0) (hslots : distinct s.ft ≤ s.cfg.pqSlots) :
    ∃ t, buildTree s.cfg s.ft s.draws = .ok t ∧ Built s.ft t :=
  buildTree_spec s.cfg s.ft s.draws (counted_ne_zero h htotal) (counted_lt h) hslots

theorem treeOk_withTree {s : State} (h : Inv s) {t : Tree} (hb : Built s.ft t) (v : Val) :
    TreeOk ((withTree s t).respond v) :=
  treeOk_of_built hb h.total _ rfl rfl rfl rfl rfl

/-- Settles O42: `buildTree` stops at the slot that is not there, or computes a tree, which `withTree` puts in place. -/
theorem buildResult : Obligations.BuildResult := by
  refine fun s hinv hphase htotal => ⟨fun hslots => ?_, fun hslots => ?_⟩
  · exact execBuild_of_stop hphase htotal (buildTree_noSlot _ _ _ hslots)
  · obtain ⟨t, htree, hb⟩ := exists_tree hinv htotal hslots
    exact ⟨_, execBuild_of_tree hphase htotal htree, treeOk_withTree hinv hb _, rfl, rfl, hb.heap, rfl, rfl⟩

/-- Settles O43: the check of TOTAL comes first, and raises. -/
theorem buildEmptyInput : Obligations.BuildEmptyInput :=
  fun _ hphase htotal => (if_pos hphase).trans (if_pos htotal)

/-- Settles O45: `buildTree` reads the parameters, FT and the count of draws, and bank 0 is overwritten. -/
theorem buildIgnoresBankZero : Obligations.BuildIgnoresBankZero := by
  intro s h hphase htotal
  cases htree : buildTree s.cfg s.ft s.draws with
  | ok t =>
    calc exec .build { s with hq0 := h } = .next ((withTree { s with hq0 := h } t).respond (t.root.setWidth 48)) :=
          execBuild_of_tree (s := { s with hq0 := h }) hphase htotal htree
      _ = .next ((withTree s t).respond (t.root.setWidth 48)) := rfl
      _ = exec .build s := (execBuild_of_tree hphase htotal htree).symm
  | error f =>
    exact (execBuild_of_stop (s := { s with hq0 := h }) hphase htotal htree).trans
      (execBuild_of_stop hphase htotal htree).symm

/-! ### One counted symbol (R136) -/

theorem countedSyms_of_single {ft : Vector Weight 256} {b : Sym} (hb : ftGet ft b ≠ 0)
    (honly : ∀ c, c ≠ b → ftGet ft c = 0) : countedSyms ft = [b] := by
  refine List.perm_singleton.mp ((List.perm_ext_iff_of_nodup (countedSyms_nodup ft) (List.nodup_singleton b)).mpr ?_)
  intro c
  rw [mem_countedSyms, List.mem_singleton]
  exact ⟨fun hc => by_contra fun hne => hc (honly c hne), fun hc => hc ▸ hb⟩

/-- The tree of one counted symbol is its leaf, without internal nodes. -/
theorem TreeOk.of_single {t : State} (h : TreeOk t) {b : Sym} (hcounted : countedSyms t.ft = [b]) :
    t.nm = [] ∧ t.root = leafRef b ∧ t.codeWord b = singleCode := by
  have hcount : t.nm.length + 1 = 1 := by rw [h.nodeCount, distinct_eq, hcounted, List.length_singleton]
  have hnm : t.nm = [] := List.eq_nil_of_length_eq_zero (by omega)
  have hleaf : isLeaf t.root = true := by simpa only [if_pos hnm] using h.rootLast
  obtain ⟨tree, hholds, -, hsyms, hpaths⟩ := h.tree
  obtain rfl := holds_of_leaf hholds hleaf
  have hsym : sym t.root = b := by
    have hmem : sym t.root ∈ countedSyms t.ft := mem_countedSyms.mpr ((hsyms _).mp (List.mem_singleton_self _))
    simpa [hcounted] using hmem
  refine ⟨hnm, hsym ▸ (leafRef_sym hleaf).symm, ?_⟩
  rw [hpaths b [] (by simp [CodeTree.paths, hsym]), wordOfPath, if_pos hleaf]

/-- Settles O44: the symbol fits every legal queue, and the tree that BUILD leaves is its leaf. -/
theorem buildSingleSymbol : Obligations.BuildSingleSymbol := by
  intro s b hinv hphase hb honly
  have hcounted : countedSyms s.ft = [b] := countedSyms_of_single hb honly
  have htotal : s.total ≠ 0 := by
    intro hzero
    have hle := ftGet_le_counted s.ft b
    rw [← hinv.total, hzero] at hle
    exact hb (BitVec.eq_of_toNat_eq (Nat.le_zero.mp hle))
  have hslots : distinct s.ft ≤ s.cfg.pqSlots := by
    obtain ⟨-, ⟨hpos, -⟩, -⟩ := hinv.legal
    rwa [distinct_eq, hcounted]
  obtain ⟨tree, htree, hbuilt⟩ := exists_tree hinv htotal hslots
  have hok := treeOk_withTree hinv hbuilt (tree.root.setWidth 48)
  obtain ⟨hnm, hroot, hword⟩ := hok.of_single hcounted
  refine ⟨_, execBuild_of_tree hphase htotal htree, hroot, ?_, hword, fun c hc => hok.unused c (honly c hc), ?_⟩
  · rw [State.nint, hnm]; rfl
  · rw [State.single, hroot, isLeaf_leafRef]; rfl

/-! ### The least total length (R138 b) -/

/-- A code for the counted symbols as a weighted code. -/
def weighted (ft : Vector Weight 256) (c : Sym → List Bool) : List (Nat × List Bool) :=
  (countedSyms ft).map fun b => ((ftGet ft b).toNat, c b)

/-- A symbol that was not counted adds nothing to the total encoded length. -/
theorem cost_weighted (ft : Vector Weight 256) (c : Sym → List Bool) :
    cost (weighted ft c) = (allSyms.map fun b => (ftGet ft b).toNat * (c b).length).sum := by
  have huncounted :
      ((allSyms.filter fun b => ¬ ftGet ft b ≠ 0).map fun b => (ftGet ft b).toNat * (c b).length).sum = 0 := by
    refine List.sum_eq_zero fun x hx => ?_
    obtain ⟨b, hb, rfl⟩ := List.mem_map.mp hx
    have hzero : ftGet ft b = 0 := by simpa using (List.mem_filter.mp hb).2
    simp [hzero]
  rw [← List.sum_map_filter_add_sum_map_filter_not (fun b => ftGet ft b ≠ 0), huncounted, Nat.add_zero, cost,
    weighted, List.map_map]
  rfl

theorem weighted_weights (ft : Vector Weight 256) (c : Sym → List Bool) :
    (weighted ft c).map (·.1) = (countedSyms ft).map fun b => (ftGet ft b).toNat := by
  rw [weighted, List.map_map]; rfl

/-- A code that is free of prefixes on the counted symbols is so as a weighted code. -/
theorem prefixFree_weighted {ft : Vector Weight 256} {c : Sym → List Bool}
    (h : ∀ a b, a ≠ b → ftGet ft a ≠ 0 → ftGet ft b ≠ 0 → ¬ c a <+: c b) : PrefixFree (weighted ft c) := by
  refine List.pairwise_map.mpr ((countedSyms_nodup ft).pairwise_of_forall_ne fun a ha b hb hab => ?_)
  rw [mem_countedSyms] at ha hb
  exact ⟨h a b hab ha hb, h b a hab.symm hb ha⟩

/-- A code whose words are the paths of a tree over the counted symbols costs what the tree costs. -/
theorem cost_weighted_paths {ft : Vector Weight 256} {tree : CodeTree} {c : Sym → List Bool}
    (hsyms : tree.syms.Perm (countedSyms ft)) (hpaths : ∀ b p, (b, p) ∈ tree.paths → c b = p) :
    cost (weighted ft c) = treeCost ft tree := by
  calc cost (weighted ft c)
      = cost (tree.syms.map fun b => ((ftGet ft b).toNat, c b)) := cost_perm (hsyms.map _).symm
    _ = (tree.paths.map fun x => (ftGet ft x.1).toNat * (c x.1).length).sum := by
        simp only [cost, ← paths_fst, List.map_map, Function.comp_def]
    _ = treeCost ft tree := by
        refine congrArg List.sum (List.map_congr_left fun x hx => ?_)
        rw [hpaths x.1 x.2 hx]

/-- What BUILD computes has a tree under ROOT that costs no more than any weighted code free of prefixes, whatever the
tie policy. -/
theorem buildTree_optimal {c : Config} {ft : Vector Weight 256} {draws : Nat} {t : Tree} (hcounted : counted ft ≠ 0)
    (hfits : counted ft < 2 ^ 32) (h : buildTree c ft draws = .ok t) :
    ∃ tree, Holds t.nm t.root tree ∧ tree.syms.Perm (countedSyms ft) ∧
      ∀ l, PrefixFree l → (l.map (·.1)).Perm ((countedSyms ft).map fun b => (ftGet ft b).toNat) →
        treeCost ft tree ≤ cost l := by
  obtain ⟨l₀, hleaves, hgrowing⟩ := leaves_growing ft draws
  have hlen : l₀.length = distinct ft := leaves_length hleaves
  have hpos := distinct_pos_of_counted hcounted
  rw [buildTree, bind_eq_ok] at h
  obtain ⟨l₁, hleaves', h⟩ := h
  obtain rfl : l₀ = l₁ := Except.ok.inj (hleaves.symm.trans hleaves')
  split at h
  · cases h
  simp only [bind_eq_ok] at h
  obtain ⟨f, hmerge, ⟨e, rest⟩, hroot, ct, -, h⟩ := h
  cases h
  obtain ⟨pt, hlast, hcost, hleast⟩ :=
    merge_optimal c.tiePolicy l₀.length hgrowing (hlen ▸ hpos) (Nat.le_succ _) hfits hmerge
      (by simp [nmWeight, treeCost, CodeTree.paths, Function.comp_def])
  have hitem : e = pt.1 := by
    have hheap : f.heap = [pt.1] := List.perm_singleton.mp hlast.perm
    obtain ⟨m, rest', hextract, -, hperm, -⟩ :=
      extractMin_spec (tieChoice c.tiePolicy f.draws) f.heap (by simp [hheap])
    cases hroot.symm.trans hextract
    simpa [hheap] using hperm.mem_iff.mpr List.mem_cons_self
  refine ⟨pt.2, hitem ▸ hlast.holds pt (List.mem_singleton_self pt), by simpa using hlast.syms, fun l hl hweights => ?_⟩
  have hle := hleast l hl (by simpa [leafEntry, Function.comp_def] using hweights)
  simpa [hcost, nmWeight] using hle

/-- BUILD's code words cost no more than those of any other code free of prefixes: a tree that is one leaf has one digit
for its symbol, any other has its paths. -/
theorem cost_codeWord_le {ft : Vector Weight 256} {root : Ref} {nm : List Node} {tree : CodeTree}
    {w c : Sym → List Bool} (hholds : Holds nm root tree) (hsyms : tree.syms.Perm (countedSyms ft))
    (hpaths : ∀ b p, (b, p) ∈ tree.paths → w b = wordOfPath root p) (hne : ∀ b, ftGet ft b ≠ 0 → c b ≠ [])
    (hleast : treeCost ft tree ≤ cost (weighted ft c)) : cost (weighted ft w) ≤ cost (weighted ft c) := by
  by_cases hleaf : isLeaf root = true
  · obtain rfl := holds_of_leaf hholds hleaf
    have hcounted : countedSyms ft = [sym root] := List.perm_singleton.mp hsyms.symm
    have hword : w (sym root) = [false] :=
      (hpaths (sym root) [] (List.mem_singleton_self _)).trans (if_pos hleaf)
    have hlen : 1 ≤ (c (sym root)).length :=
      List.length_pos_iff.mpr (hne _ (mem_countedSyms.mp (hcounted ▸ List.mem_singleton_self _)))
    simpa [weighted, hcounted, cost, hword] using Nat.le_mul_of_pos_right _ hlen
  · refine (cost_weighted_paths hsyms fun b p hp => ?_).trans_le hleast
    rw [hpaths b p hp, wordOfPath, if_neg hleaf]

/-- Settles O47: the code words are the paths of the tree that MERGE made by the greedy step, which `merge_optimal`
shows to cost no more than any weighted code. -/
theorem codeIsOptimal : Obligations.CodeIsOptimal := by
  intro s t hinv hphase htotal hexec c hne hfree
  have hslots : distinct s.ft ≤ s.cfg.pqSlots := by
    by_contra hfew
    have hstop := execBuild_of_stop hphase htotal (buildTree_noSlot s.cfg s.ft s.draws (Nat.lt_of_not_le hfew))
    cases hstop.symm.trans hexec
  obtain ⟨built, htree, hbuilt⟩ := exists_tree hinv htotal hslots
  cases (execBuild_of_tree hphase htotal htree).symm.trans hexec
  obtain ⟨tree, hholds, hsyms, hleast⟩ := buildTree_optimal (counted_ne_zero hinv htotal) (counted_lt hinv) htree
  obtain ⟨tree', hholds', -, -, hpaths⟩ := (treeOk_withTree hinv hbuilt (built.root.setWidth 48)).tree
  obtain rfl := holds_unique hholds hholds'
  have hcost := cost_codeWord_le hholds hsyms hpaths hne
    (hleast _ (prefixFree_weighted hfree) (List.Perm.of_eq (weighted_weights s.ft c)))
  simpa only [cost_weighted, ← ftAt_eq] using hcost

end Sys2Proof
end

section
/-! The textual transforms (spec/43_textual_codec.md R150 to R156): what ENC, DEC_START, DECB and DEC_END answer and
write, and why a decode stream reads back what ENC emits. -/

namespace Sys2Proof

open Sys2Proof.Machine

/-! ### Streams are opened (R153, R166, R170) -/

/-- Settles O48: in READY each of the three passes its only check. -/
theorem streamStartsResult : Obligations.StreamStartsResult :=
  fun _ hphase => ⟨if_pos hphase, if_pos hphase, if_pos hphase⟩

/-! ### ENC (R152) -/

/-- Settles O49: the digits' characters are appended to OUT by `emitDigits`. -/
theorem encResult : Obligations.EncResult := by
  intro s b hphase
  rw [exec, execEnc, if_pos hphase, emitDigits_eq]
  rfl

/-! ### DECB (R150, R154) -/

/-- The answer of a command that appended `bytes` to OUT is their number. -/
theorem emitted_of_out {s t : State} {bytes : List Byte} (h : t.out = s.out ++ bytes) :
    emitted s t = BitVec.ofNat 48 bytes.length := by
  rw [emitted, h, List.length_append, Nat.add_sub_cancel_left]

theorem finish_of_ok {s t : State} {r : Run} {bytes : List Byte} (hr : r = .ok t) (hout : t.out = s.out ++ bytes) :
    finish s r = .next (t.respond (BitVec.ofNat 48 bytes.length)) := by
  rw [hr, finish, emitted_of_out hout]

/-- DECB of the character of a digit walks the digit. -/
theorem exec_decb_asciiDigit {s : State} (hphase : s.phase = .dec) (d : Bool) :
    exec (.decb (asciiDigit d)) s = finish s (walk s d) := by
  cases d with
  | false => exact (if_pos hphase).trans (if_pos rfl)
  | true => exact (if_pos hphase).trans ((if_neg (by decide)).trans (if_pos rfl))

/-- Settles O50: DECB of a digit is `finish` of its walk, which has the cases of `walk`. -/
theorem decbResult : Obligations.DecbResult := by
  refine fun s b hphase => ⟨fun d n hb hroot hnode => ?_, fun hb hroot => ?_, fun hb hroot => ?_, fun h0 h1 => ?_⟩
  · subst hb
    refine (exec_decb_asciiDigit hphase d).trans ?_
    have hwalk := walk_internal d hroot hnode
    by_cases hleaf : isLeaf (if d then n.right else n.left) = true
    · rw [if_pos hleaf] at hwalk ⊢
      exact finish_of_ok (bytes := [sym (if d then n.right else n.left)]) hwalk rfl
    · rw [if_neg hleaf] at hwalk ⊢
      exact finish_of_ok (bytes := []) hwalk (List.append_nil _).symm
  · subst hb
    have hwalk : walk s false = .ok (s.emit (sym s.root)) := if_pos hroot
    exact (exec_decb_asciiDigit hphase false).trans (finish_of_ok hwalk (emit_out s _))
  · subst hb
    have hwalk : walk s true = .raised .streamCorruption s := if_pos hroot
    exact (exec_decb_asciiDigit hphase true).trans (congrArg (finish s) hwalk)
  · exact (if_pos hphase).trans ((if_neg h0).trans (if_neg h1))

/-! ### DEC_END (R155) -/

/-- Settles O51, by whether the walk stands at ROOT. -/
theorem decEndResult : Obligations.DecEndResult :=
  fun _ hphase =>
    ⟨fun hroot => (if_pos hphase).trans (if_pos hroot), fun hpath => (if_pos hphase).trans (if_neg hpath)⟩

/-! ### The round trip (R156) -/

/-- Commands in a row: when the first ones complete, the rest go on from where they ended. -/
theorem runCommands_append {is : List Instr} {s t : State} (h : runCommands is s = .next t) (rest : List Instr) :
    runCommands (is ++ rest) s = runCommands rest t := by
  induction is generalizing s with
  | nil => cases h; rfl
  | cons i is ih =>
    cases hexec : exec i s with
    | next u =>
      rw [runCommands_cons hexec] at h
      rw [List.cons_append, runCommands_cons hexec, ih h]
    | fault f => simp [runCommands, hexec] at h
    | refused r => simp [runCommands, hexec] at h

/-- The state after commands that emitted `bytes` and answered `vals`, and wrote nothing else. -/
def afterAnswers (s : State) (bytes : List Byte) (vals : List Val) : State :=
  { s with out := s.out ++ bytes, resps := s.resps ++ vals.map answered }

theorem afterAnswers_nil (s : State) : afterAnswers s [] [] = s := by simp [afterAnswers]

theorem afterAnswers_afterAnswers (s : State) (bytes bytes' : List Byte) (vals vals' : List Val) :
    afterAnswers (afterAnswers s bytes vals) bytes' vals' = afterAnswers s (bytes ++ bytes') (vals ++ vals') := by
  simp [afterAnswers]

/-- The text that ENC of symbols emits: the characters of their code words' digits (R152). -/
def encodedText (s : State) (bs : List Sym) : List Byte := (bs.flatMap s.codeWord).map asciiDigit

theorem encodedText_cons (s : State) (b : Sym) (bs : List Sym) :
    encodedText s (b :: bs) = (s.codeWord b).map asciiDigit ++ encodedText s bs := by
  rw [encodedText, List.flatMap_cons, List.map_append, encodedText]

/-- Symbols encoded one after another leave their text in OUT. -/
theorem runCommands_enc (bs : List Sym) {s : State} (hphase : s.phase = .ready) :
    ∃ vals, runCommands (bs.map .enc) s = .next (afterAnswers s (encodedText s bs) vals) := by
  induction bs generalizing s with
  | nil => exact ⟨[], congrArg _ (afterAnswers_nil s).symm⟩
  | cons b bs ih =>
    obtain ⟨v, hexec⟩ : ∃ v, exec (.enc b) s = .next (afterAnswers s ((s.codeWord b).map asciiDigit) [v]) :=
      ⟨_, encResult s b hphase⟩
    obtain ⟨vals, hrun⟩ := ih (s := afterAnswers s ((s.codeWord b).map asciiDigit) [v]) hphase
    refine ⟨v :: vals, (runCommands_cons hexec _).trans (hrun.trans ?_)⟩
    rw [afterAnswers_afterAnswers, encodedText_cons]
    rfl

/-- The digits of counted symbols' code words, walked from ROOT, emit exactly the symbols and end at ROOT. -/
theorem walkDigits_codeWords (bs : List Sym) {s : State} (htree : TreeOk s) (hroot : s.wp = s.root)
    (hcounted : ∀ b ∈ bs, s.ftAt b ≠ 0) :
    walkDigits (bs.flatMap s.codeWord) s = .ok (afterAnswers s bs []) := by
  induction bs generalizing s with
  | nil => exact congrArg _ (afterAnswers_nil s).symm
  | cons b bs ih =>
    obtain ⟨hb, hbs⟩ := List.forall_mem_cons.mp hcounted
    have hrest := ih (s := s.emit b) (htree.congr rfl rfl rfl rfl rfl) hroot hbs
    rw [List.flatMap_cons, walkDigits_codeWord htree hroot hb, afterAnswers, List.append_cons]
    exact hrest

/-- DECB of the characters of digits walks the digits: where the walk goes on, every command answers. -/
theorem runCommands_decb {ds : List Bool} {s t : State} (hphase : s.phase = .dec) (h : walkDigits ds s = .ok t) :
    ∃ vals, runCommands ((ds.map asciiDigit).map .decb) s = .next (afterAnswers t [] vals) := by
  induction ds generalizing s t with
  | nil => cases h; exact ⟨[], congrArg _ (afterAnswers_nil s).symm⟩
  | cons d ds ih =>
    rw [walkDigits] at h
    cases hwalk : walk s d with
    | raised e u => rw [hwalk] at h; cases h
    | stuck f => rw [hwalk] at h; cases h
    | ok u =>
      rw [hwalk] at h
      obtain ⟨bytes, wp, hu, -⟩ := walk_frame hwalk
      obtain ⟨bytes', wp', rfl, hagain⟩ := walkDigits_frame h
      obtain ⟨v, hexec⟩ : ∃ v, exec (.decb (asciiDigit d)) s = .next (u.respond v) :=
        ⟨_, (exec_decb_asciiDigit hphase d).trans (finish_of_ok hwalk (by rw [hu]))⟩
      have hphase' : u.phase = .dec := by rw [hu, hphase]
      obtain ⟨vals, hrun⟩ := ih (s := u.respond v) hphase' (hagain _ rfl rfl rfl)
      refine ⟨v :: vals, (runCommands_cons hexec _).trans (hrun.trans ?_)⟩
      simp [afterAnswers, answered]

/-- The state in which DEC_START leaves `s` (R153). -/
def decOpened (s : State) : State :=
  { s with wp := s.root, phase := .dec, resps := s.resps ++ [answered 0] }

/-- A decode stream fed with what ENC emits for counted symbols emits them, and leaves the walk where it was. -/
theorem runCommands_decodeStream (bs : List Sym) {s : State} (hphase : s.phase = .ready) (htree : TreeOk s)
    (hroot : s.wp = s.root) (hcounted : ∀ b ∈ bs, s.ftAt b ≠ 0) :
    ∃ vals, runCommands (.decStart :: (encodedText s bs).map .decb ++ [.decEnd]) s =
      .next (afterAnswers s bs vals) := by
  have hwalk : walkDigits (bs.flatMap s.codeWord) (decOpened s) = .ok (afterAnswers (decOpened s) bs []) :=
    walkDigits_codeWords bs (s := decOpened s) (htree.congr rfl rfl rfl rfl rfl) rfl hcounted
  obtain ⟨vals, hdecb⟩ := runCommands_decb rfl hwalk
  rw [afterAnswers_afterAnswers, List.append_nil, List.nil_append] at hdecb
  obtain ⟨hstart, -, -⟩ := streamStartsResult s hphase
  obtain ⟨hend, -⟩ := decEndResult (afterAnswers (decOpened s) bs vals) rfl
  refine ⟨0 :: vals ++ [0], ?_⟩
  calc runCommands (.decStart :: (encodedText s bs).map .decb ++ [.decEnd]) s
      = runCommands ((encodedText s bs).map .decb ++ [.decEnd]) (decOpened s) := runCommands_cons hstart _
    _ = runCommands [.decEnd] (afterAnswers (decOpened s) bs vals) := runCommands_append hdecb _
    _ = .next { afterAnswers s bs (0 :: vals ++ [0]) with phase := .ready, wp := s.root } := by
      rw [runCommands_cons (hend rfl)]
      simp [runCommands, afterAnswers, decOpened]
    _ = .next (afterAnswers s bs (0 :: vals ++ [0])) := by rw [← hphase, ← hroot]; rfl

/-- Settles O52: ENC emits the code words' digits and leaves the tree and the walk at ROOT as they were, and the decode
stream emits the symbols; both only answer. -/
theorem textualRoundTrip : Obligations.TextualRoundTrip := by
  intro s bs hinv hphase hcounted
  have htree : TreeOk s := hinv.tree (by simp [hphase])
  have hroot : s.wp = s.root := hinv.walkIdle (.inl hphase)
  obtain ⟨vals, henc⟩ := runCommands_enc bs hphase
  obtain ⟨vals', hdec⟩ := runCommands_decodeStream bs (s := afterAnswers s (encodedText s bs) vals) hphase
    (htree.congr rfl rfl rfl rfl rfl) hroot hcounted
  refine ⟨_, _, _, henc, rfl, hdec, rfl, rfl, ?_, hphase⟩
  rw [afterAnswers_afterAnswers, afterAnswers, List.drop_left]
  exact List.forall_mem_map.mpr fun _ _ => rfl

end Sys2Proof
end

section
/-! The packed transforms (spec/44_packed_codec.md R165 to R173): what CMPS, CMP_END, DCMPB and DCMP_END answer and
write, and why a decompress stream reads back what a compress stream packs. -/

namespace Sys2Proof

open Sys2Proof.Machine

/-! ### CMPS (R168) -/

/-- Settles O53: `pushDigits_spec` for the digits of the code word, and `packed_count` for the number of bytes. -/
theorem cmpsResult : Obligations.CmpsResult := by
  intro s b hphase hcnt
  obtain ⟨bytes, buf, cnt, bc, hpush, hdigits, hcnt', hbuf, hexact, hfits⟩ := pushDigits_spec (s.codeWord b) s hcnt
  refine ⟨bytes, buf, cnt, bc, ?_, hdigits, hexact, hfits, hcnt', ?_, hbuf⟩
  · rw [exec, execCmps, if_pos hphase, hpush]
    exact finish_of_ok rfl rfl
  · rw [packed_count bytes _ _ hdigits hcnt', packedDigits_length]

/-! ### CMP_END (R169) -/

theorem flush_empty {s : State} (h : s.pcnt = 0) : flush s = s := if_neg (by simp [h])

theorem flush_held {s : State} (h : s.pcnt ≠ 0) :
    flush s = { s with out := s.out ++ [s.pbuf <<< (s.g - s.pcnt.toNat)], pbuf := 0, pcnt := 0 } :=
  if_pos (Nat.pos_of_ne_zero fun h0 => h (BitVec.eq_of_toNat_eq h0))

/-- Settles O54, by whether the packer holds digits. -/
theorem cmpEndResult : Obligations.CmpEndResult := by
  refine fun s hphase hcnt => ⟨fun hempty => ?_, fun hheld => ⟨?_, ?_⟩⟩
  · rw [exec, execCmpEnd, if_pos hphase, flush_empty hempty]
    exact finish_of_ok (bytes := []) rfl (List.append_nil _).symm
  · rw [exec, execCmpEnd, if_pos hphase, flush_held hheld]
    exact finish_of_ok (bytes := [s.pbuf <<< (s.g - s.pcnt.toNat)]) rfl rfl
  · exact packedDigits_fill s.g s.pcnt.toNat hcnt.le (g_bounds s).2 s.pbuf

/-! ### DCMPB (R171) -/

theorem exec_dcmpb {s : State} (hphase : s.phase = .dcmp) (b : Byte) :
    exec (.dcmpb b) s = finish s (unpack (packedDigits s.g b) s) := if_pos hphase

/-- `min(G, UREM)` digits of a byte lie within the budget (R171). -/
theorem length_take_budget (s : State) (b : Byte) :
    ((packedDigits s.g b).take (min s.g s.urem.toNat)).length = min s.g s.urem.toNat := by
  rw [List.length_take, packedDigits_length, Nat.min_eq_left (Nat.min_le_left _ _)]

/-- When the digits within the budget go on, the loop ends after them: the byte or the budget is used up. -/
theorem unpack_byte {s t : State} {b : Byte}
    (h : walkDigits ((packedDigits s.g b).take (min s.g s.urem.toNat)) s = .ok t) :
    unpack (packedDigits s.g b) s = .ok { t with urem := s.urem - BitVec.ofNat 48 (min s.g s.urem.toNat) } := by
  have hlen := length_take_budget s b
  have hrun := unpack_walkDigits h (hlen.le.trans (Nat.min_le_right _ _))
    ((packedDigits s.g b).drop (min s.g s.urem.toNat))
  rw [List.take_append_drop, hlen] at hrun
  refine hrun.trans ?_
  rcases Nat.le_total s.g s.urem.toNat with hle | hle
  · rw [List.drop_eq_nil_of_le (by rw [packedDigits_length, Nat.min_eq_left hle])]
    rfl
  · refine unpack_spent _ _ ?_
    simp [Nat.min_eq_right hle]

/-- WALK raises on the tree that is one leaf alone (R150). -/
theorem root_leaf_of_walk_raised {s t : State} {d : Bool} {e : Err} (h : walk s d = .raised e t) :
    isLeaf s.root = true ∧ d = true := by
  rcases walk_cases s d with ⟨_, hw, -⟩ | ⟨-, hleaf, hd⟩ | ⟨_, hw, -⟩
  · cases hw.symm.trans h
  · exact ⟨hleaf, hd⟩
  · cases hw.symm.trans h

/-- On the tree that is one leaf, the digit 1 raises wherever the walk is (R150). -/
theorem walk_one_of_root_leaf {s : State} (h : isLeaf s.root = true) :
    walk s true = .raised .streamCorruption s := if_pos h

/-- When a digit within the budget raises, the loop ends there, with the digits before it walked and counted. -/
theorem unpack_raises {ds es : List Bool} {d : Bool} {s t : State} (h : walkDigits ds s = .ok t)
    (hbudget : ds.length < s.urem.toNat) (hraise : walk t d = .raised .streamCorruption t) :
    unpack (ds ++ d :: es) s =
      .raised .streamCorruption { t with urem := s.urem - BitVec.ofNat 48 ds.length } := by
  obtain ⟨hleaf, rfl⟩ := root_leaf_of_walk_raised hraise
  have hleft : s.urem - BitVec.ofNat 48 ds.length ≠ 0 := by
    intro h0
    have := congrArg BitVec.toNat (BitVec.sub_eq_iff_eq_add.mp h0)
    simp at this
    omega
  rw [unpack_walkDigits h hbudget.le, unpack, if_neg hleft, walk_one_of_root_leaf (by exact hleaf)]

/-- Settles O55: the loop over the whole byte is the walk of the digits within the budget, or ends at the one that
raises. -/
theorem dcmpbResult : Obligations.DcmpbResult := by
  refine ⟨fun s b t hphase hwalk => ?_, fun s b ds es d t hphase htake hwalk hraise => ?_⟩
  · rw [exec_dcmpb hphase, unpack_byte hwalk]
    obtain ⟨bytes, wp, rfl, -⟩ := walkDigits_frame hwalk
    rfl
  · have hlen := length_take_budget s b
    rw [htake, List.length_append, List.length_cons] at hlen
    have hbyte : packedDigits s.g b = ds ++ d :: (es ++ (packedDigits s.g b).drop (min s.g s.urem.toNat)) := by
      rw [← List.cons_append, ← List.append_assoc, ← htake, List.take_append_drop]
    rw [exec_dcmpb hphase, hbyte, unpack_raises hwalk (by omega) hraise]
    obtain ⟨bytes, wp, rfl, -⟩ := walkDigits_frame hwalk
    rfl

/-- On a tree with internal nodes the loop raises nothing. -/
theorem root_leaf_of_unpack_raised {ds : List Bool} {s t : State} {e : Err} (h : unpack ds s = .raised e t) :
    isLeaf s.root = true := by
  obtain ⟨before, _, d, -, hwalked, -, hraise, -⟩ := unpack_raised h
  obtain ⟨bytes, wp, n, rfl⟩ := unpack_ok_frame hwalked
  exact (root_leaf_of_walk_raised hraise).1

/-- Settles O56, by how the loop ends: it is never stuck, and where it raises the tree is one leaf. -/
theorem dcmpbCompletes : Obligations.DcmpbCompletes := by
  intro s b hinv hphase
  obtain ⟨-, hnotStuck⟩ := unpack_inv (packedDigits s.g b) hinv hphase
  rw [exec_dcmpb hphase]
  cases hrun : unpack (packedDigits s.g b) s with
  | ok t =>
    obtain ⟨bytes, wp, n, rfl⟩ := unpack_ok_frame hrun
    exact ⟨_, rfl, hphase, fun _ => ⟨rfl, _, rfl⟩⟩
  | raised e t =>
    have hleaf := root_leaf_of_unpack_raised hrun
    obtain ⟨before, _, _, -, hwalked, -⟩ := unpack_raised hrun
    obtain ⟨bytes, wp, n, rfl⟩ := unpack_ok_frame hwalked
    exact ⟨_, rfl, hphase, fun hnode => by simp [hleaf] at hnode⟩
  | stuck f => exact absurd hrun (hnotStuck f)

/-- The digits of a packed byte are its low G bits. -/
theorem packedDigits_congr {g : Nat} {b c : Byte} (h : b.extractLsb' 0 g = c.extractLsb' 0 g) :
    packedDigits g b = packedDigits g c := by
  refine List.map_congr_left fun i hi => ?_
  have hlt : g - 1 - i < g := by have := List.mem_range.mp hi; omega
  have hbit := congrArg (BitVec.getLsbD · (g - 1 - i)) h
  simpa [BitVec.getLsbD_extractLsb', hlt] using hbit

/-- Settles O57: DCMPB looks at the byte's packed digits alone. -/
theorem dcmpbIgnoresBitSeven : Obligations.DcmpbIgnoresBitSeven := by
  intro s b c hg hbits
  have hdigits : packedDigits s.g b = packedDigits s.g c := by rw [hg]; exact packedDigits_congr hbits
  simp only [exec, execDcmpb, hdigits]

/-! ### DCMP_END (R172) -/

/-- Settles O58, by whether the walk stands at ROOT with the budget spent. -/
theorem dcmpEndResult : Obligations.DcmpEndResult := by
  refine fun s hphase => ⟨fun hroot hspent => ?_, fun hbad => ?_⟩
  · refine (if_pos hphase).trans ((if_pos ⟨hroot, hspent⟩).trans ?_)
    rw [← hroot]
    rfl
  · exact (if_pos hphase).trans (if_neg fun h => hbad.elim (absurd h.1) (absurd h.2))

/-! ### A compress stream (R173) -/

theorem pushDigits_append (ds es : List Bool) (s : State) :
    pushDigits (ds ++ es) s = pushDigits es (pushDigits ds s) := by
  induction ds generalizing s with
  | nil => rfl
  | cons d ds ih => exact ih (push s d)

theorem push_afterAnswers (s : State) (vals : List Val) (d : Bool) :
    push (afterAnswers s [] vals) d = afterAnswers (push s d) [] vals := by
  by_cases hfull : s.pcnt.toNat + 1 = s.g
  · rw [push_full hfull, push_full (s := afterAnswers s [] vals) hfull]
    simp [afterAnswers]
  · rw [push_part hfull, push_part (s := afterAnswers s [] vals) hfull]
    simp [afterAnswers]

/-- The packer does not look at the responses. -/
theorem pushDigits_afterAnswers (ds : List Bool) (s : State) (vals : List Val) :
    pushDigits ds (afterAnswers s [] vals) = afterAnswers (pushDigits ds s) [] vals := by
  induction ds generalizing s with
  | nil => rfl
  | cons d ds ih => rw [pushDigits, push_afterAnswers, ih, pushDigits]

/-- Symbols packed one after another push the digits of their code words in a row. -/
theorem runCommands_cmps (bs : List Sym) {s : State} (hphase : s.phase = .cmp) :
    ∃ vals, runCommands (bs.map .cmps) s = .next (afterAnswers (pushDigits (bs.flatMap s.codeWord) s) [] vals) := by
  induction bs generalizing s with
  | nil => exact ⟨[], congrArg _ (afterAnswers_nil s).symm⟩
  | cons b bs ih =>
    obtain ⟨bytes, buf, cnt, bc, hpush⟩ := pushDigits_frame (s.codeWord b) s
    obtain ⟨v, hexec⟩ : ∃ v, exec (.cmps b) s = .next (afterAnswers (pushDigits (s.codeWord b) s) [] [v]) :=
      ⟨_, (if_pos hphase).trans (by rw [finish, afterAnswers, List.append_nil]; rfl)⟩
    have hphase' : (pushDigits (s.codeWord b) s).phase = .cmp := by rw [hpush, hphase]
    have hcode : (afterAnswers (pushDigits (s.codeWord b) s) [] [v]).codeWord = s.codeWord := by rw [hpush]; rfl
    obtain ⟨vals, hrun⟩ := ih (s := afterAnswers (pushDigits (s.codeWord b) s) [] [v]) hphase'
    refine ⟨v :: vals, (runCommands_cons hexec _).trans (hrun.trans ?_)⟩
    rw [hcode, pushDigits_afterAnswers, afterAnswers_afterAnswers, List.flatMap_cons, pushDigits_append]
    rfl

/-- CMP_END emits the held digits, followed by zero digits, and leaves the packer with none (R169). -/
theorem exec_cmpEnd {s : State} (hphase : s.phase = .cmp) (hcnt : s.pcnt.toNat < s.g) :
    ∃ (last : List Byte) (buf : Byte) (v : Val) (pad : Nat),
      exec .cmpEnd s = .next { afterAnswers s last [v] with pbuf := buf, pcnt := 0, phase := .ready } ∧
      last.flatMap (packedDigits s.g) = packedDigits s.pcnt.toNat s.pbuf ++ List.replicate pad false := by
  obtain ⟨hempty, hheld⟩ := cmpEndResult s hphase hcnt
  by_cases h0 : s.pcnt = 0
  · refine ⟨[], s.pbuf, 0, 0, (hempty h0).trans ?_, by rw [h0]; rfl⟩
    rw [afterAnswers, List.append_nil, ← h0]
    rfl
  · obtain ⟨hexec, hdigits⟩ := hheld h0
    exact ⟨_, _, _, _, hexec, by rw [List.flatMap_singleton, hdigits]⟩

/-- The state in which CMP_START leaves `s` (R166). -/
def cmpOpened (s : State) : State :=
  { s with pbuf := 0, pcnt := 0, bitcount := 0, phase := .cmp, resps := s.resps ++ [answered 0] }

/-- The state after a compress stream from `s` that emitted `packed` and answered `vals`: `bc` digits are counted, and
the packer holds none of them. -/
def compressed (s : State) (packed : List Byte) (vals : List Val) (buf : Byte) (bc : Val) : State :=
  { afterAnswers s packed vals with pbuf := buf, pcnt := 0, bitcount := bc }

/-- A compress stream packs the digits of its symbols' code words, filled up with zero digits, and leaves their number
in BITCOUNT. -/
theorem runCommands_compressStream (bs : List Sym) {s : State} (hphase : s.phase = .ready)
    (hfits : (bs.flatMap s.codeWord).length < 2 ^ min s.cfg.bitcountBits 48) :
    ∃ packed vals buf bc pad,
      runCommands (.cmpStart :: bs.map .cmps ++ [.cmpEnd]) s = .next (compressed s packed vals buf bc) ∧
      packed.flatMap (packedDigits s.g) = bs.flatMap s.codeWord ++ List.replicate pad false ∧
      bc.toNat = (bs.flatMap s.codeWord).length := by
  have hcnt0 : (cmpOpened s).pcnt.toNat < s.g := Nat.lt_of_lt_of_le (show 0 < 7 by decide) (g_bounds s).1
  obtain ⟨bytes, buf, cnt, bc, hpush, hdigits, hcnt, -, hcount, -⟩ :=
    pushDigits_spec (bs.flatMap s.codeWord) (cmpOpened s) hcnt0
  obtain ⟨-, hstart, -⟩ := streamStartsResult s hphase
  obtain ⟨vals, hcmps⟩ := runCommands_cmps bs (s := cmpOpened s) rfl
  obtain ⟨last, buf', v, pad, hend, hlast⟩ :=
    exec_cmpEnd (s := afterAnswers (pushDigits (bs.flatMap s.codeWord) (cmpOpened s)) [] vals)
      (by rw [hpush]; rfl) (by rw [hpush]; exact hcnt)
  refine ⟨bytes ++ last, 0 :: vals ++ [v], buf', bc, pad, ?_, ?_, ?_⟩
  · calc runCommands (.cmpStart :: bs.map .cmps ++ [.cmpEnd]) s
        = runCommands (bs.map .cmps ++ [.cmpEnd]) (cmpOpened s) := runCommands_cons hstart _
      _ = runCommands [.cmpEnd] (afterAnswers (pushDigits (bs.flatMap s.codeWord) (cmpOpened s)) [] vals) :=
        runCommands_append hcmps _
      _ = .next { compressed s (bytes ++ last) (0 :: vals ++ [v]) buf' bc with phase := .ready } := by
        rw [runCommands_cons hend, hpush]
        simp [runCommands, compressed, afterAnswers, cmpOpened]
      _ = .next (compressed s (bytes ++ last) (0 :: vals ++ [v]) buf' bc) := by rw [← hphase]; rfl
  · rw [hpush] at hlast
    calc (bytes ++ last).flatMap (packedDigits s.g)
        = bytes.flatMap (packedDigits s.g) ++ (packedDigits cnt.toNat buf ++ List.replicate pad false) := by
          rw [List.flatMap_append]; exact congrArg _ hlast
      _ = bs.flatMap s.codeWord ++ List.replicate pad false := by
          rw [← List.append_assoc]; exact congrArg (· ++ _) hdigits
  · simpa [cmpOpened] using hcount (by simpa [cmpOpened] using hfits)

/-! ### A decompress stream (R173) -/

/-- The unpacker does not look at the responses. -/
theorem unpack_respond {ds : List Bool} {s t : State} (h : unpack ds s = .ok t) (v : Val) :
    unpack ds (s.respond v) = .ok (t.respond v) := by
  induction ds generalizing s with
  | nil => cases h; rfl
  | cons d ds ih =>
    by_cases hspent : s.urem = 0
    · rw [unpack_spent _ _ hspent] at h
      cases h
      exact unpack_spent _ _ hspent
    · have hspent' : (s.respond v).urem ≠ 0 := hspent
      rw [unpack, if_neg hspent] at h
      rw [unpack, if_neg hspent']
      cases hwalk : walk s d with
      | raised e u => rw [hwalk] at h; cases h
      | stuck f => rw [hwalk] at h; cases h
      | ok u =>
        rw [hwalk] at h
        obtain ⟨bytes, wp, rfl, hagain⟩ := walk_frame hwalk
        rw [hagain (s.respond v) rfl rfl rfl]
        exact ih h

/-- The loop over the digits of all bytes, where it goes on, is DCMPB of each byte, and every command answers. -/
theorem runCommands_dcmpb {packed : List Byte} {s t : State} (hphase : s.phase = .dcmp)
    (h : unpack (packed.flatMap (packedDigits s.g)) s = .ok t) :
    ∃ vals, runCommands (packed.map .dcmpb) s = .next (afterAnswers t [] vals) := by
  induction packed generalizing s t with
  | nil => cases h; exact ⟨[], congrArg _ (afterAnswers_nil s).symm⟩
  | cons b packed ih =>
    rw [List.flatMap_cons, unpack_append] at h
    cases hbyte : unpack (packedDigits s.g b) s with
    | raised e u => rw [hbyte] at h; cases h
    | stuck f => rw [hbyte] at h; cases h
    | ok u =>
      rw [hbyte] at h
      obtain ⟨bytes, wp, n, hu⟩ := unpack_ok_frame hbyte
      obtain ⟨v, hexec⟩ : ∃ v, exec (.dcmpb b) s = .next (u.respond v) :=
        ⟨_, (exec_dcmpb hphase b).trans (finish_of_ok hbyte (by rw [hu]))⟩
      have hg : (u.respond v).g = s.g := by rw [hu]; rfl
      have hphase' : (u.respond v).phase = .dcmp := by rw [hu]; exact hphase
      obtain ⟨vals, hrun⟩ := ih hphase' (hg.symm ▸ unpack_respond h v)
      refine ⟨v :: vals, (runCommands_cons hexec _).trans (hrun.trans ?_)⟩
      simp [afterAnswers, answered]

/-- The state in which DCMP_START leaves `s` (R170). -/
def dcmpOpened (s : State) : State :=
  { s with urem := s.bitcount, wp := s.root, phase := .dcmp, resps := s.resps ++ [answered 0] }

/-- A decompress stream fed with bytes whose digits begin with the code words of counted symbols, BITCOUNT of them,
emits the symbols and ends at ROOT with the budget spent. -/
theorem runCommands_decompressStream {bs : List Sym} {packed : List Byte} {pad : List Bool} {s : State}
    (hphase : s.phase = .ready) (htree : TreeOk s) (hcounted : ∀ b ∈ bs, s.ftAt b ≠ 0)
    (hpacked : packed.flatMap (packedDigits s.g) = bs.flatMap s.codeWord ++ pad)
    (hcount : s.bitcount.toNat = (bs.flatMap s.codeWord).length) :
    ∃ vals, runCommands (.dcmpStart :: packed.map .dcmpb ++ [.dcmpEnd]) s =
      .next { afterAnswers s bs vals with wp := s.root, urem := 0 } := by
  have hwalk : walkDigits (bs.flatMap s.codeWord) (dcmpOpened s) = .ok (afterAnswers (dcmpOpened s) bs []) :=
    walkDigits_codeWords bs (s := dcmpOpened s) (htree.congr rfl rfl rfl rfl rfl) rfl hcounted
  have hspent : (dcmpOpened s).urem - BitVec.ofNat 48 (bs.flatMap s.codeWord).length = 0 := by
    simp [dcmpOpened, ← hcount]
  have hunpack : unpack (packed.flatMap (packedDigits s.g)) (dcmpOpened s) =
      .ok { afterAnswers (dcmpOpened s) bs [] with urem := 0 } := by
    rw [hpacked, unpack_walkDigits hwalk hcount.ge, hspent]
    exact unpack_spent pad _ rfl
  obtain ⟨vals, hdcmpb⟩ := runCommands_dcmpb (s := dcmpOpened s) rfl hunpack
  obtain ⟨-, -, hstart⟩ := streamStartsResult s hphase
  obtain ⟨hend, -⟩ := dcmpEndResult (afterAnswers { afterAnswers (dcmpOpened s) bs [] with urem := 0 } [] vals) rfl
  refine ⟨0 :: vals ++ [0], ?_⟩
  calc runCommands (.dcmpStart :: packed.map .dcmpb ++ [.dcmpEnd]) s
      = runCommands (packed.map .dcmpb ++ [.dcmpEnd]) (dcmpOpened s) := runCommands_cons hstart _
    _ = runCommands [.dcmpEnd] (afterAnswers { afterAnswers (dcmpOpened s) bs [] with urem := 0 } [] vals) :=
      runCommands_append hdcmpb _
    _ = .next { afterAnswers s bs (0 :: vals ++ [0]) with wp := s.root, urem := 0, phase := .ready } := by
      rw [runCommands_cons (hend rfl rfl)]
      simp [runCommands, afterAnswers, dcmpOpened]
    _ = .next { afterAnswers s bs (0 :: vals ++ [0]) with wp := s.root, urem := 0 } := by rw [← hphase]; rfl

/-- Settles O59: the compress stream packs the code words' digits and leaves their number in BITCOUNT, and the
decompress stream walks that many digits and emits the symbols; both only answer. -/
theorem packedRoundTrip : Obligations.PackedRoundTrip := by
  intro s bs hinv hphase hcounted hfits
  obtain ⟨-, -, -, hbits⟩ := hinv.legal
  have hlen : (bs.flatMap s.codeWord).length = (bs.map fun b => (s.codeWord b).length).sum := List.length_flatMap
  obtain ⟨packed, vals, buf, bc, pad, hcompress, hpacked, hcount⟩ :=
    runCommands_compressStream bs hphase (by rw [Nat.min_eq_left hbits, hlen]; exact hfits)
  have htree : TreeOk s := hinv.tree (by simp [hphase])
  obtain ⟨vals', hdecompress⟩ := runCommands_decompressStream (s := compressed s packed vals buf bc) hphase
    (htree.congr rfl rfl rfl rfl rfl) hcounted hpacked hcount
  refine ⟨_, _, packed, hcompress, rfl, hcount.trans hlen, hdecompress, rfl, rfl, ?_, hphase⟩
  simp only [compressed, afterAnswers, List.append_assoc, List.drop_left, ← List.map_append]
  exact List.forall_mem_map.mpr fun _ _ => rfl

end Sys2Proof
end

section
/-! Errors (spec/60_exceptions.md R185 to R194, R202): which command raises what, what the response and ERR then hold,
and what a raise leaves as it was, from the ways in which a completed command can end (`exec_ends`). -/

namespace Sys2Proof

open Sys2Proof.Machine

/-- Settles O9: with an empty port `portStep` answers the state itself. -/
theorem stepIdleHoldsState : Obligations.StepIdleHoldsState := by
  intro s hport
  simp only [step, portStep, hport]

/-- The response added to those there were is the only one that can have been added. -/
theorem eq_of_resps_append {s u : State} (hresps : u.resps = s.resps) {a r : Response}
    (h : u.resps ++ [a] = s.resps ++ [r]) : r = a := by
  rw [hresps] at h
  exact (List.singleton_injective (List.append_cancel_left h)).symm

/-! ### Which command raises what (R188) -/

/-- Settles O19, by the five ways in which a command ends: the two that answer carry no error, and of the three that
raise the last two belong to DEC_END, DCMP_END and DCMPB, which list STREAM_CORRUPTION. -/
theorem onlyListedErrors : Obligations.OnlyListedErrors := by
  intro i s t e h hr
  cases exec_ends h with
  | answers u v hq => cases eq_of_resps_append hq.resps hr
  | iterEnd _ => cases eq_of_resps_append (s := s) rfl hr
  | raises e' he _ => cases eq_of_resps_append (s := s) rfl hr; exact he
  | closes hi =>
    cases eq_of_resps_append (s := s) rfl hr
    rcases hi with ⟨rfl, -⟩ | ⟨rfl, -⟩ <;> simp [Instr.errors]
  | unpacks b _ _ _ _ hi _ _ _ _ _ hq =>
    cases eq_of_resps_append hq.resps hr
    subst hi
    simp [Instr.errors]

/-! ### The response and ERR (R186, R187) -/

/-- CLR lists no error, so a command that raised is another. -/
theorem ne_clr_of_failed {i : Instr} {s t : State} {e : Err} (h : exec i s = .next t)
    (hr : t.resps = s.resps ++ [failed e]) : i ≠ .clr := by
  rintro rfl
  exact List.not_mem_nil (onlyListedErrors .clr s t e h hr)

/-- Settles O17, by the three responses there are; ERR had been left alone up to the response. -/
theorem raiseReportsAndRecords : Obligations.RaiseReportsAndRecords := by
  intro i s t r h hr
  obtain ⟨u, hq, ⟨v, rfl⟩ | ⟨-, rfl⟩ | ⟨e, rfl⟩⟩ := exec_responds h
  · cases eq_of_resps_append hq.resps hr
    exact ⟨nofun, fun _ => hq.err⟩
  · cases eq_of_resps_append hq.resps hr
    exact ⟨nofun, fun _ => hq.err⟩
  · cases eq_of_resps_append hq.resps hr
    have herr : u.err = s.err := hq.err (ne_clr_of_failed h hr)
    refine ⟨?_, nofun⟩
    rintro _ ⟨⟩
    exact ⟨rfl, by rw [raise_err, herr]⟩

/-- Settles O18: the command's one response (O16) either carries no error, and then ERR is left alone, or carries one,
which ERR takes only where it holds none (O17). -/
theorem errIsSticky : Obligations.ErrIsSticky := by
  refine ⟨fun i s t e h hclr hs => ?_, fun i s t e h hs hr => ?_, fun s t h => ?_, fun s => hardReset_err s⟩
  · obtain ⟨r, hr, -⟩ := oneResponsePerCommand i s t h
    obtain ⟨hfails, hanswers⟩ := raiseReportsAndRecords i s t r h hr
    cases hre : r.err with
    | none => exact (hanswers hre hclr).trans hs
    | some e' => rw [(hfails e' hre).2, hs]; rfl
  · obtain ⟨hfails, -⟩ := raiseReportsAndRecords i s t _ h hr
    exact (hfails e rfl).2.trans (if_pos hs)
  · cases h
    rfl

/-! ### What a raise leaves as it was (R194) -/

/-- The loop of DCMPB that stands before a digit which raises has walked and counted the digits before it, and the digit
raises after the same walk without the budget (R171). -/
theorem walkDigits_of_unpack_raises {ds : List Bool} {d : Bool} {s m : State} (hloop : unpack ds s = .ok m)
    (hbudget : m.urem ≠ 0) (hraise : walk m d = .raised .streamCorruption m) :
    ∃ w, walkDigits ds s = .ok w ∧ ds.length < s.urem.toNat ∧ walk w d = .raised .streamCorruption w ∧
      m = { s with out := w.out, wp := w.wp, urem := s.urem - BitVec.ofNat 48 ds.length } := by
  obtain ⟨w, hwalk, hlt, rfl⟩ := unpack_ok_walk hloop hbudget
  obtain ⟨hleaf, rfl⟩ := root_leaf_of_walk_raised hraise
  refine ⟨w, hwalk, hlt, walk_one_of_root_leaf hleaf, ?_⟩
  obtain ⟨bytes, wp, rfl, -⟩ := walkDigits_frame hwalk
  rfl

/-- Settles O20: the three ways to raise are the three clauses, and the state each raises in is written out. -/
theorem errorsArePrecise : Obligations.ErrorsArePrecise := by
  intro i s t e h hr
  cases exec_ends h with
  | answers u v hq => cases eq_of_resps_append hq.resps hr
  | iterEnd _ => cases eq_of_resps_append (s := s) rfl hr
  | raises e' _ hguard =>
    cases eq_of_resps_append (s := s) rfl hr
    exact .inl ⟨hguard, rfl⟩
  | closes hi =>
    cases eq_of_resps_append (s := s) rfl hr
    exact .inr (.inl ⟨hi, rfl, rfl⟩)
  | unpacks b ds es d m hi hphase hdigits hloop hbudget hraise hq =>
    cases eq_of_resps_append hq.resps hr
    obtain ⟨w, hwalk, hlt, hlast, rfl⟩ := walkDigits_of_unpack_raises hloop hbudget hraise
    exact .inr (.inr ⟨b, ds, d, es, w, hi, hphase, rfl, hdigits, hwalk, hlt, hlast, rfl⟩)

end Sys2Proof
end

section
/-! The mark of an iteration (spec/70_reset_and_hazards.md R216, 93_implementation_defined U5): `exec_iteration` says once
what a command that completes can do to the banks, the cursor's bank and the mark, and the clauses of U5 are read off it. -/

namespace Sys2Proof

open Sys2Proof.Machine

/-! ### What an iteration depends on -/

/-- `t` holds the banks, the bank the cursor is on and the iteration mark of `s`. -/
structure SameIteration (s t : State) : Prop where
  bank : ∀ q, t.bank q = s.bank q
  qitb : t.qitb = s.qitb
  iter : t.iter = s.iter

theorem SameIteration.refl (s : State) : SameIteration s s := ⟨fun _ => rfl, rfl, rfl⟩

section
variable {s t : State}

theorem SameIteration.respond (h : SameIteration s t) (v : Val) : SameIteration s (t.respond v) :=
  ⟨h.bank, h.qitb, h.iter⟩

theorem sameIteration_raise (s : State) (e : Err) : SameIteration s (s.raise e) := ⟨fun _ => rfl, rfl, rfl⟩

/-- The commands that may write bank `q`. -/
def WritesBank (i : Instr) (q : Bank) : Prop :=
  (∃ k x, i = .qInsert q k x) ∨ i = .qExtract q ∨ i = .qDup (1 - q) ∨ (i = .build ∧ q = 0)

/-- What a completed command can do to an iteration: leave it, write a bank, clear the engine, begin an iteration, or
read on in one that has a meaning. -/
inductive IterationAfter (i : Instr) (s t : State) : Prop where
  | keeps (h : SameIteration s t)
  | writes (q : Bank) (l : List Entry) (hi : WritesBank i q) (h : SameIteration (s.setBank q l) t)
  | clears (hi : i = .clr) (h : t.iter = s.iter.disturb)
  | begins (q : Bank) (hi : i = .qIterBegin q)
  | reads (hi : i = .qIterNext) (hmark : s.iter ≠ .invalid) (h : SameIteration { s with iter := .valid } t)

/-! ### The commands that write a bank -/

theorem iterationAfter_raise (i : Instr) (s : State) (e : Err) : IterationAfter i s (s.raise e) :=
  .keeps (sameIteration_raise s e)

theorem iterationAfter_setBank {i : Instr} {q : Bank} (hi : WritesBank i q) (s : State) (l : List Entry) (v : Val) :
    IterationAfter i s ((s.setBank q l).respond v) :=
  .writes q l hi ((SameIteration.refl _).respond v)

theorem execQInsert_iteration {q : Bank} {key : Weight} {item : Ref} (h : execQInsert q key item s = .next t) :
    IterationAfter (.qInsert q key item) s t := by
  unfold execQInsert at h
  split at h
  · cases h; exact iterationAfter_raise _ s _
  · split at h
    · cases h; exact iterationAfter_raise _ s _
    · split at h <;> cases h
      exact iterationAfter_setBank (.inl ⟨key, item, rfl⟩) s _ 0

theorem execQExtract_iteration {q : Bank} (h : execQExtract q s = .next t) : IterationAfter (.qExtract q) s t := by
  unfold execQExtract at h
  split at h
  · cases h; exact iterationAfter_raise _ s _
  · split at h <;> cases h
    exact .writes q _ (.inr (.inl rfl)) ⟨fun _ => rfl, rfl, rfl⟩

theorem writesBank_qDup (q : Bank) : WritesBank (.qDup q) (1 - q) :=
  .inr (.inr (.inl (by rw [sub_sub_cancel])))

theorem execQDup_iteration {q : Bank} (h : execQDup q s = .next t) : IterationAfter (.qDup q) s t := by
  unfold execQDup at h
  split at h
  · split at h <;> cases h
    · exact iterationAfter_raise _ s _
    · exact iterationAfter_setBank (writesBank_qDup q) s _ 0
  · cases h
    exact iterationAfter_setBank (writesBank_qDup q) s _ 0

theorem execBuild_iteration (h : execBuild s = .next t) : IterationAfter .build s t := by
  unfold execBuild at h
  split at h
  · split at h
    · cases h; exact iterationAfter_raise _ s _
    · split at h <;> cases h
      exact .writes 0 _ (.inr (.inr (.inr ⟨rfl, rfl⟩))) ⟨fun _ => rfl, rfl, rfl⟩
  · cases h; exact iterationAfter_raise _ s _

/-! ### The commands that write no bank -/

/-- Q_ITER_NEXT completes only where the mark is not `invalid`, and then leaves it `valid`. -/
theorem execQIterNext_iteration (h : execQIterNext s = .next t) :
    s.iter ≠ .invalid ∧ SameIteration { s with iter := .valid } t := by
  unfold execQIterNext at h
  split at h
  · cases h
  · refine ⟨‹_›, ?_⟩
    split at h
    · split at h <;> cases h
      exact ⟨fun _ => rfl, rfl, rfl⟩
    · cases h
      exact ⟨fun _ => rfl, rfl, rfl⟩

theorem execCount_iteration {b : Sym} (h : execCount b s = .next t) : SameIteration s t := by
  unfold execCount at h
  split at h <;> cases h <;> exact ⟨fun _ => rfl, rfl, rfl⟩

theorem execRdcsr_iteration {c : BitVec 8} (h : execRdcsr c s = .next t) : SameIteration s t := by
  unfold execRdcsr at h
  split at h <;> cases h <;> exact ⟨fun _ => rfl, rfl, rfl⟩

theorem execWrcsr_iteration {c : BitVec 8} {v : Val} (h : execWrcsr c v s = .next t) : SameIteration s t := by
  unfold execWrcsr at h
  split at h <;> cases h <;> exact ⟨fun _ => rfl, rfl, rfl⟩

theorem execQPeek_iteration {q : Bank} (h : execQPeek q s = .next t) : SameIteration s t := by
  unfold execQPeek at h
  split at h
  · cases h; exact sameIteration_raise s _
  · split at h <;> cases h
    exact (SameIteration.refl s).respond _

/-- The ten transforms leave the queue alone (O26). -/
theorem transform_iteration {i : Instr} (h : exec i s = .next t)
    (hi : (∃ b, i = .enc b) ∨ i = .decStart ∨ (∃ b, i = .decb b) ∨ i = .decEnd ∨ i = .cmpStart ∨ (∃ b, i = .cmps b) ∨
      i = .cmpEnd ∨ i = .dcmpStart ∨ (∃ b, i = .dcmpb b) ∨ i = .dcmpEnd) : SameIteration s t := by
  obtain ⟨-, -, -, -, -, h0, h1, hqitb, -, -, hiter, -⟩ := transformsFrame i s t h hi
  exact ⟨fun q => by simp only [State.bank, h0, h1], hqitb, hiter⟩

/-! ### Every command -/

/-- However a command completes, it does to the iteration one of the five things. -/
theorem exec_iteration {i : Instr} (h : exec i s = .next t) : IterationAfter i s t := by
  cases i with
  | clr => cases h; exact .clears rfl rfl
  | count b => exact .keeps (execCount_iteration h)
  | build => exact execBuild_iteration h
  | rdcsr c => exact .keeps (execRdcsr_iteration h)
  | wrcsr c v => exact .keeps (execWrcsr_iteration h)
  | qInsert q key item => exact execQInsert_iteration h
  | qPeek q => exact .keeps (execQPeek_iteration h)
  | qExtract q => exact execQExtract_iteration h
  | qSize q => cases h; exact .keeps ((SameIteration.refl s).respond _)
  | qEmpty q => cases h; exact .keeps ((SameIteration.refl s).respond _)
  | qDup q => exact execQDup_iteration h
  | qIterBegin q => exact .begins q rfl
  | qIterNext =>
    obtain ⟨hmark, hsame⟩ := execQIterNext_iteration h
    exact .reads rfl hmark hsame
  | qIterRemove => cases h; exact iterationAfter_raise _ s _
  | enc | decStart | decb | decEnd | cmpStart | cmps | cmpEnd | dcmpStart | dcmpb | dcmpEnd =>
    exact .keeps (transform_iteration h (by simp))

/-- A valid iteration goes on over the same bank with the same entries, or its bank was written or the engine cleared. -/
theorem exec_of_valid {i : Instr} (h : exec i s = .next t) (hbegin : ∀ q, i ≠ .qIterBegin q) (hvalid : s.iter = .valid) :
    (t.iter = .valid ∧ t.qitb = s.qitb ∧ t.bank s.qitb = s.bank s.qitb) ∨
      (t.iter = .invalid ∧ (i = .clr ∨ WritesBank i s.qitb)) := by
  cases exec_iteration h with
  | keeps hsame => exact .inl ⟨hsame.iter.trans hvalid, hsame.qitb, hsame.bank _⟩
  | writes q l hi hsame =>
    by_cases hq : s.qitb = q
    · have hiter : t.iter = .invalid := by rw [hsame.iter, setBank_iter, if_pos hq, hvalid]; rfl
      exact .inr ⟨hiter, .inr (hq ▸ hi)⟩
    · have hiter : t.iter = .valid := by rw [hsame.iter, setBank_iter, if_neg hq, hvalid]
      exact .inl ⟨hiter, hsame.qitb.trans (setBank_qitb s q l),
        (hsame.bank _).trans (setBank_bank_other s q s.qitb l hq)⟩
  | clears hi hiter => exact .inr ⟨by rw [hiter, hvalid]; rfl, .inl hi⟩
  | begins q hi => exact absurd hi (hbegin q)
  | reads _ _ hsame => exact .inl ⟨hsame.iter, hsame.qitb, hsame.bank _⟩

/-- An invalid iteration stays so. -/
theorem exec_of_invalid {i : Instr} (h : exec i s = .next t) (hbegin : ∀ q, i ≠ .qIterBegin q)
    (hinvalid : s.iter = .invalid) : t.iter = .invalid := by
  have hdisturb : s.iter.disturb = .invalid := by rw [hinvalid]; rfl
  cases exec_iteration h with
  | keeps hsame => exact hsame.iter.trans hinvalid
  | writes q l _ hsame => rw [hsame.iter, setBank_iter, hdisturb, hinvalid, ite_self]
  | clears _ hiter => exact hiter.trans hdisturb
  | begins q hi => exact absurd hi (hbegin q)
  | reads _ hmark _ => exact absurd hinvalid hmark

end

/-- Settles O40: the clauses between Q_ITER_BEGIN and the next one are what `exec_iteration` says of a valid and of an
invalid mark; Q_ITER_NEXT reads the mark first. -/
theorem iterationMarkIsSound : Obligations.IterationMarkIsSound := by
  refine ⟨fun s t q h => ?_, fun i s t h => exec_of_valid h, fun i s t h => exec_of_invalid h,
    fun s hinvalid => if_pos hinvalid, fun s t h => ?_⟩
  · cases h
    rfl
  · obtain ⟨-, hsame⟩ := execQIterNext_iteration h
    exact hsame.iter

end Sys2Proof
end
